-- ==== Sys2Proof/Word.lean ====
section
/-!
DEFINITION. The value types of the core: 32-bit register values (`REG_WIDTH`, R7), bytes and bit strings.
-/

namespace Sys2Proof

/-- A host register value (R9, R21): 32 bits, unsigned. -/
abbrev Word := BitVec 32

/-- A byte of a buffer or of a container (R10). -/
abbrev Byte := BitVec 8

/-- A bit string (R11), first bit first. -/
abbrev Bits := List Bool

end Sys2Proof
end

