-- ==== Sys2Proof/Syntax.lean ====
section
/-!
DEFINITION. The vocabulary of the spec as data: the commands of `CMD` (one constructor for every row of the opcode
table), the host's bus transactions, the host script notation, the error kinds and the codec selector.
-/

namespace Sys2Proof

/-- The commands a host writes to `CMD` (R91): one constructor per row of the opcode table. No command carries an
operand (R94), so no constructor has an argument. -/
inductive Instr
  | nop
  | encBest
  | encHuff
  | encRle
  | decode
  | reserved5
  | reserved6
  | reserved7
  | reserved8
  | reserved9
  | reservedA
  | reservedB
  | reservedC
  | reservedD
  | reservedE
  | reservedF
  deriving DecidableEq, Repr, Inhabited

/-- The error kinds of `STATUS.ERR` (R260). Codes 8 to 15 are never produced, so they have no constructor. -/
inductive ErrKind
  | none
  | unknownEncodingType
  | corruptCodeTable
  | truncatedInput
  | outputOverflow
  | illegalCommand
  | inputTooLong
  | codeTooLong
  deriving DecidableEq, Repr, Inhabited

/-- The codec reported in `STATUS.SEL` (R23, R220, R223): `SEL_NONE`, `SEL_HUFF`, `SEL_RLE`. The value 3 is never
produced, so it has no constructor. -/
inductive Sel
  | none
  | huff
  | rle
  deriving DecidableEq, Repr, Inhabited

/-- The two byte buffers (R33, R34). -/
inductive Buf
  | src
  | dst
  deriving DecidableEq, Repr, Inhabited

/-- The three address spaces of the host (R60), selected by the port it uses. -/
inductive Space
  | reg
  | buf (b : Buf)
  deriving DecidableEq, Repr, Inhabited

/-- What a host transaction names (R61, R62): its space, its byte offset or address, its width in bits. -/
structure Access where
  space : Space
  addr  : Nat
  width : Nat
  deriving DecidableEq, Repr

/-- The named registers of the map of R21. The reserved offsets 0x24 to 0xFC have no name. -/
inductive Reg
  | cmd
  | status
  | irqEn
  | srcLen
  | dstCap
  | dstLen
  | huffLen
  | rleLen
  | id
  deriving DecidableEq, Repr

/-- A name to which a host script binds a value read from the bus (R109): the scratch name `t` of R110, or
a script's own name with an index (`name[i]` in R110's `DUMP`). -/
inductive HostName
  | scratch
  | named (n : Nat) (index : Nat)
  deriving DecidableEq, Repr

/-- The value operand of a host write: written out, or the value bound to a name (R109, R110's `COPY`). -/
inductive HostVal
  | lit (v : Word)
  | var (n : HostName)
  deriving DecidableEq, Repr

/-- What the host agent does next: one bus transaction (R234 to R237), or one of its two ways of waiting
for a completion (R71): the `POLL` loop of R110 and the wait for the interrupt. -/
inductive HostOp
  | write (a : Access) (v : HostVal)
  | read (a : Access) (n : HostName)
  | poll
  | waitIrq
  deriving DecidableEq, Repr

/-- A line of the host script: the mnemonics of R109 and the pseudo-instructions of R110. -/
inductive ScriptLine
  | wr (r : Reg) (v : HostVal)
  | rd (r : Reg) (n : HostName)
  | stb (b : Buf) (addr : Nat) (v : HostVal)
  | ldb (b : Buf) (addr : Nat) (n : HostName)
  | fillSrc (bytes : List Byte)
  | dumpDst (count : Nat) (name : Nat)
  | copyDstToSrc (count : Nat)
  | poll
  | run (i : Instr)
  | clear
  deriving DecidableEq, Repr

/-- The agent that moves at a step (R6, R70), the external reset input (R290) among them. -/
inductive Turn
  | host
  | engine
  | reset
  deriving DecidableEq, Repr, Inhabited

end Sys2Proof
end

