-- ==== Sys2Proof/Config.lean ====
section
/-!
DEFINITION. What an implementation fixes (R7: the two buffer sizes), the readings of the two points on which rules of
the spec disagree and no ruling decides, and the values the spec leaves free. A free value is an opaque constant with no
body: nothing can be proved about which value it is.
-/

namespace Sys2Proof

/-- The readings of the two points on which rules of the spec disagree (log entries 5 and 22). Each is an argument of
the model, so that each rule is modelled under its own reading. -/
structure Readings where
  /-- Whether a `NOP` while idle clears `DST_LEN`, `HUFF_LEN` and `RLE_LEN`: true by R28, R29, R30; false by R94, R227
  and V-CMD4. -/
  nopClearsLengths : Bool
  /-- Whether a host read of a never-written `DST` byte while busy records `UninitRead`: true by R39, R236, R291; false
  by R75 and U5. -/
  busyReadRecordsUninit : Bool
  deriving DecidableEq, Repr

/-- The OPEN parameters of R7 (D3): bytes in the input buffer and in the output buffer. They are an argument of the
model (R8), as the readings are: every state carries them and no step changes them. -/
structure Params where
  srcMemSize : Nat
  dstMemSize : Nat
  readings   : Readings
  deriving DecidableEq, Repr

/-- The size of a buffer (R60). -/
def Params.size (p : Params) : Buf → Nat
  | .src => p.srcMemSize
  | .dst => p.dstMemSize

namespace Config

/-- FREE. The byte a never-written buffer byte holds since the reset with the given number (R39, R291, U1, U2):
unspecified, and the same at every read until something is written or reset (R68). -/
opaque unwrittenByte : Nat → Buf → Nat → Byte

/-- FREE. The value of the `k`-th host read of `DST` while `ENG = BUSY` (R75, U5): a fresh draw each time. -/
opaque busyDstByte : Nat → Byte

/-- FREE. The error kind of a command whose result the spec does not define (R39, R75, U3, U4). -/
opaque undefinedErr : Nat → ErrKind

/-- FREE. The codec reported by a command whose result the spec does not define. -/
opaque undefinedSel : Nat → Sel

/-- FREE. The output bytes of a command whose result the spec does not define. -/
opaque undefinedOut : Nat → List Byte

/-- FREE. The `HUFF_LEN` reported by a command whose result the spec does not define. -/
opaque undefinedHuffLen : Nat → Word

/-- FREE. The `RLE_LEN` reported by a command whose result the spec does not define. -/
opaque undefinedRleLen : Nat → Word

end Config

/-- The readings of the machine of `State.reset`, a DESIGN CHOICE: a `NOP` changes nothing, as its own rule R227, R94 and
V-CMD4 say (log entry 22), and a busy read of a never-written byte is recorded, as R39, R236, R291 and V-RST2 say (log
entry 5). -/
def Readings.reference : Readings := { nopClearsLengths := false, busyReadRecordsUninit := true }

/-- The reference configuration of R7: both buffers of 2^20 bytes. -/
def Params.reference : Params :=
  { srcMemSize := 2 ^ 20, dstMemSize := 2 ^ 20, readings := Readings.reference }

end Sys2Proof
end

