-- ==== Sys2Proof/WellFormed.lean ====
section
/-!
DEFINITION. The checks on terms of the syntax: the parameter bounds of R7 and the operand ranges of a host script line
(R109, R110). The checks are Bools, so that `decide` runs on them.
-/

namespace Sys2Proof

/-- R7: each buffer has between 1 and 2^32 - 1 bytes. -/
def Params.wf (p : Params) : Bool :=
  1 ≤ p.srcMemSize && p.srcMemSize ≤ 2 ^ 32 - 1 && 1 ≤ p.dstMemSize && p.dstMemSize ≤ 2 ^ 32 - 1

/-- A command has no operand (R94) and every written value decodes (R92): every command is well formed. -/
def Instr.wf (_ : Instr) : Bool := true

/-- The value of `STB` is one byte (R109). A bound name is checked when it is used. -/
def HostVal.fitsByte : HostVal → Bool
  | .lit v => v.toNat < 256
  | .var _ => true

/-- R109, R110: every buffer address a line names lies in its buffer, and a stored literal is a byte. -/
def ScriptLine.wf (p : Params) : ScriptLine → Bool
  | .wr _ _ => true
  | .rd _ _ => true
  | .stb b a v => a < p.size b && v.fitsByte
  | .ldb b a _ => a < p.size b
  | .fillSrc bytes => bytes.length ≤ p.srcMemSize
  | .dumpDst n _ => n ≤ p.dstMemSize
  | .copyDstToSrc n => n ≤ p.srcMemSize && n ≤ p.dstMemSize
  | .poll => true
  | .run i => i.wf
  | .clear => true

end Sys2Proof
end

