-- ==== Sys2Proof/Decode.lean ====
section
/-!
DEFINITION. Decoding the 32-bit value written to `CMD` (R90 to R93), the opcode table as data, and the encoder written
from the same table. Decoding is total: every 32-bit value is exactly one row (R92), so there is nothing to reject.
-/

namespace Sys2Proof

/-- The field `OP = v[3:0]` of a written value (R90). Bits 31 to 4 are ignored (R92). -/
def opField (v : Word) : BitVec 4 := v.extractLsb' 0 4

/-- The opcode map of R91. -/
def decodeOp (op : BitVec 4) : Instr :=
  match op.toNat with
  | 0x0 => .nop
  | 0x1 => .encBest
  | 0x2 => .encHuff
  | 0x3 => .encRle
  | 0x4 => .decode
  | 0x5 => .reserved5
  | 0x6 => .reserved6
  | 0x7 => .reserved7
  | 0x8 => .reserved8
  | 0x9 => .reserved9
  | 0xA => .reservedA
  | 0xB => .reservedB
  | 0xC => .reservedC
  | 0xD => .reservedD
  | 0xE => .reservedE
  | _ => .reservedF

/-- Decoding a value written to `CMD` (R92): total, by bits 3 to 0 alone. -/
def decode (v : Word) : Instr := decodeOp (opField v)

/-- The `OP` value of a command (R91). -/
def Instr.op : Instr → BitVec 4
  | .nop => 0x0#4
  | .encBest => 0x1#4
  | .encHuff => 0x2#4
  | .encRle => 0x3#4
  | .decode => 0x4#4
  | .reserved5 => 0x5#4
  | .reserved6 => 0x6#4
  | .reserved7 => 0x7#4
  | .reserved8 => 0x8#4
  | .reserved9 => 0x9#4
  | .reservedA => 0xA#4
  | .reservedB => 0xB#4
  | .reservedC => 0xC#4
  | .reservedD => 0xD#4
  | .reservedE => 0xE#4
  | .reservedF => 0xF#4

/-- The word of a command: `OP` in bits 3 to 0, the reserved bits written 0 (R93: "should be written 0"). -/
def encode (i : Instr) : Word := i.op.setWidth 32

/-- The word of a command with any value in the reserved bits 31 to 4 (R90). -/
def encodeWith (reserved : BitVec 28) (i : Instr) : Word := (reserved.setWidth 32 <<< 4) ||| i.op.setWidth 32

/-- A row of the opcode table: a written value `v` is this row when `v AND mask = pattern` (R92). -/
structure OpcodeRow where
  mask    : Word
  pattern : Word
  instr   : Instr
  deriving DecidableEq, Repr

/-- The sixteen rows of the opcode table. -/
def opcodeTable : List OpcodeRow :=
  [ ⟨0x0000000F#32, 0x00000000#32, .nop⟩,
    ⟨0x0000000F#32, 0x00000001#32, .encBest⟩,
    ⟨0x0000000F#32, 0x00000002#32, .encHuff⟩,
    ⟨0x0000000F#32, 0x00000003#32, .encRle⟩,
    ⟨0x0000000F#32, 0x00000004#32, .decode⟩,
    ⟨0x0000000F#32, 0x00000005#32, .reserved5⟩,
    ⟨0x0000000F#32, 0x00000006#32, .reserved6⟩,
    ⟨0x0000000F#32, 0x00000007#32, .reserved7⟩,
    ⟨0x0000000F#32, 0x00000008#32, .reserved8⟩,
    ⟨0x0000000F#32, 0x00000009#32, .reserved9⟩,
    ⟨0x0000000F#32, 0x0000000A#32, .reservedA⟩,
    ⟨0x0000000F#32, 0x0000000B#32, .reservedB⟩,
    ⟨0x0000000F#32, 0x0000000C#32, .reservedC⟩,
    ⟨0x0000000F#32, 0x0000000D#32, .reservedD⟩,
    ⟨0x0000000F#32, 0x0000000E#32, .reservedE⟩,
    ⟨0x0000000F#32, 0x0000000F#32, .reservedF⟩ ]

/-- The written value `v` is a word of this row (R92). -/
def OpcodeRow.admits (r : OpcodeRow) (v : Word) : Bool := v &&& r.mask == r.pattern

/-- The command read from an instruction whose bits are `w`, of which the table gives the row `nbits`. A command
is one 32-bit register value, so its bits are numbered as the table numbers them. -/
def decodeTableWord (nbits w : Nat) : Option Instr := some (decode (BitVec.ofNat 32 (w % 2 ^ nbits)))

end Sys2Proof
end

