-- ==== Sys2Proof/Machine/State.lean ====
section
/-!
DEFINITION. The state of the core (R20 to R40) as plain data, the state after reset (R290), and the two reasons a
step can stop. What the spec does not give the machine but the model needs (the host's script, the schedule, the
counters of the free values) stands at the end of the structure and is marked as the model's own.
-/

namespace Sys2Proof.Machine

/-- Why a step stops with a fault. -/
inductive Fault
  /-- Raised by the engine's turn alone, when the latched opcode is none of the four that a command start latches
  (R225): R238 gives `EXEC` no meaning there. Safe: no run from reset reaches such a state. -/
  | latchedOpHasNoCommand (op : BitVec 4)
  deriving DecidableEq, Repr

/-- Why a step has no meaning. -/
inductive Refusal
  /-- Raised by `exec` for an instruction with no meaning yet. No arm of this model raises it. Safe. -/
  | notModelled (mnemonic : String)
  /-- Raised by the host's turn for a bus transaction of an illegal width, alignment or address, to which the spec
  gives no step (R61, R62, U8, U9). Safe. -/
  | illegalAccess (a : Access)
  /-- Raised by the host's turn for a script that uses a name no read has bound (R109 gives it no value). Safe. -/
  | unboundName (n : HostName)
  deriving DecidableEq, Repr

/-- A buffer: the bytes written since the last reset, by address, addresses strictly rising. An address is listed
exactly when its written flag is 1 (R39), so this one list is both the contents and the written-byte record. -/
abbrev Memory := List Host.Cell

/-- The canonical form of a buffer of the given size: addresses strictly rising and inside the buffer (R60). An
unlisted address has no value of its own (R291), so no entry can repeat what it reads as. -/
abbrev Memory.wf (size : Nat) (m : Memory) : Prop :=
  m.Pairwise (fun a b => a.1 < b.1) ∧ ∀ c ∈ m, c.1 < size

/-- The engine's sequencing state `ENG` (R35). -/
inductive Eng
  | idle
  | busy
  deriving DecidableEq, Repr, Inhabited

/-- The kinds of the fault record (R38, R274). -/
inductive FaultKind
  | hostHazard
  | uninitRead
  deriving DecidableEq, Repr

/-- `FAULTS`, a set of model fault kinds (R38): one flag per kind. -/
structure FaultRecord where
  hostHazard : Bool
  uninitRead : Bool
  deriving DecidableEq, Repr

/-- The result of a command (R238). -/
structure CmdResult where
  err : ErrKind
  sel : Sel
  out : List Byte
  hl  : Word
  rl  : Word
  deriving DecidableEq, Repr

/-- The state of the machine. -/
structure State where
  /-- The buffer sizes (R7, R8) and the readings of log entries 5 and 22: arguments of the model, changed by no step. -/
  params   : Params
  /-- `STATUS.DONE` (R23). -/
  done     : Bool
  /-- `STATUS.ERR` (R23, R260). -/
  err      : ErrKind
  /-- `STATUS.SEL` (R23). -/
  sel      : Sel
  /-- `IRQ_EN.IE` (R25). -/
  ie       : Bool
  /-- `SRC_LEN` (R26). -/
  srcLen   : Word
  /-- `DST_CAP` (R27). -/
  dstCap   : Word
  /-- `DST_LEN` (R28). -/
  dstLen   : Word
  /-- `HUFF_LEN` (R29). -/
  huffLen  : Word
  /-- `RLE_LEN` (R30). -/
  rleLen   : Word
  /-- The input buffer with its written-byte record (R33, R39). -/
  src      : Memory
  /-- The output buffer with its written-byte record (R34, R39). -/
  dst      : Memory
  /-- `ENG` (R35). `STATUS.BUSY` is computed from it. -/
  eng      : Eng
  /-- `L_OP` (R35). -/
  lOp      : BitVec 4
  /-- `L_SRC_LEN` (R35). -/
  lSrcLen  : Word
  /-- `L_CAP` (R35). -/
  lCap     : Word
  /-- `FAULTS` (R38). -/
  faults   : FaultRecord
  /-- The model's own: a host buffer write has met the command in flight, whose result is no longer defined (R75). -/
  tainted  : Bool
  /-- The model's own: how many resets there have been, so that unwritten bytes are free anew after each (R291). -/
  epoch    : Nat
  /-- The model's own: how many free values have been drawn. -/
  draws    : Nat
  /-- The model's own: what the host agent still has to do, in program order (R70, R109). -/
  script   : List HostOp
  /-- The model's own: the values the host's reads have bound to names (R109). -/
  names    : List (HostName × Word)
  /-- The model's own: the agent that moves at this step (R70). -/
  turn     : Turn
  /-- The model's own: the agents that move at the following steps, as far as the schedule is fixed. -/
  sched    : List Turn
  deriving DecidableEq, Repr

/-- The machine right after reset (R290) with the given buffer sizes. The latches are 0, a DESIGN CHOICE (log entry
3): R290 leaves them unspecified and nothing reads them while `ENG = IDLE`. -/
def State.resetWith (p : Params) : State where
  params  := p
  done    := false
  err     := .none
  sel     := .none
  ie      := false
  srcLen  := 0#32
  dstCap  := BitVec.ofNat 32 p.dstMemSize
  dstLen  := 0#32
  huffLen := 0#32
  rleLen  := 0#32
  src     := []
  dst     := []
  eng     := .idle
  lOp     := 0#4
  lSrcLen := 0#32
  lCap    := 0#32
  faults  := { hostHazard := false, uninitRead := false }
  tainted := false
  epoch   := 0
  draws   := 0
  script  := []
  names   := []
  turn    := .host
  sched   := []

/-- The machine right after reset in the reference configuration of R7. -/
def State.reset : State := State.resetWith Params.reference

end Sys2Proof.Machine
end

