-- ==== Sys2Proof/Machine/Constants.lean ====
section
/-!
DEFINITION. The fixed numbers of the spec: the values of R7's table that are not open, the codes of the status fields
and the register map.
-/

namespace Sys2Proof.Machine

/-- `MARKER_HUFF` (R96). -/
def markerHuff : Byte := 0x48#8

/-- `MARKER_RLE` (R96). -/
def markerRle : Byte := 0x52#8

/-- `RLE_COUNT_MAX` (R7, D9). -/
def rleCountMax : Nat := 65535

/-- `MAX_CODE_LEN` (R7, D38). -/
def maxCodeLen : Nat := 255

/-- The hardwired value of `ID` (R31). -/
def idValue : Word := 0x48524C07#32

/-- The code of an error kind in `STATUS.ERR` (R260). -/
def errCode : ErrKind → BitVec 4
  | .none => 0#4
  | .unknownEncodingType => 1#4
  | .corruptCodeTable => 2#4
  | .truncatedInput => 3#4
  | .outputOverflow => 4#4
  | .illegalCommand => 5#4
  | .inputTooLong => 6#4
  | .codeTooLong => 7#4

/-- The code of a codec in `STATUS.SEL` (R23). -/
def selCode : Sel → BitVec 2
  | .none => 0#2
  | .huff => 1#2
  | .rle => 2#2

/-- The byte offset of a register (R21). -/
def regOffset : Reg → Nat
  | .cmd => 0x00
  | .status => 0x04
  | .irqEn => 0x08
  | .srcLen => 0x0C
  | .dstCap => 0x10
  | .dstLen => 0x14
  | .huffLen => 0x18
  | .rleLen => 0x1C
  | .id => 0x20

/-- The register at an offset, none at a reserved one (R21, R32). -/
def regAt (offset : Nat) : Option Reg :=
  match offset with
  | 0x00 => some .cmd
  | 0x04 => some .status
  | 0x08 => some .irqEn
  | 0x0C => some .srcLen
  | 0x10 => some .dstCap
  | 0x14 => some .dstLen
  | 0x18 => some .huffLen
  | 0x1C => some .rleLen
  | 0x20 => some .id
  | _ => none

end Sys2Proof.Machine
end

