-- ==== Sys2Proof/Machine/BitStream.lean ====
section
/-!
DEFINITION. Byte order and bit order (R10, R11, R64, R65), the bit writer (R130 to R133) and the bit reader (R134 to
R137).
-/

namespace Sys2Proof.Machine

/-- `ceil8(n) = (n + 7) div 8` (R11). -/
def ceil8 (n : Nat) : Nat := (n + 7) / 8

/-- `u16be(x)` (R10): the more significant byte first (R65). -/
def u16be (x : Nat) : List Byte := [BitVec.ofNat 8 (x / 256), BitVec.ofNat 8 (x % 256)]

/-- `be16(a, b) = 256*a + b` (R10). -/
def be16 (a b : Byte) : Nat := 256 * a.toNat + b.toNat

/-- `bitsMSB(b)` (R11): the eight bits of a byte, bit 7 first. -/
def bitsMSB (b : Byte) : Bits :=
  [b.getLsbD 7, b.getLsbD 6, b.getLsbD 5, b.getLsbD 4, b.getLsbD 3, b.getLsbD 2, b.getLsbD 1, b.getLsbD 0]

/-- `BITS(D)` (R135): the bits of a byte string in reading order. -/
def bitsOf : List Byte → Bits
  | [] => []
  | b :: bytes => bitsMSB b ++ bitsOf bytes

/-- The number a bit string spells, first bit most significant. -/
def bitsValue (s : Bits) : Nat := s.foldl (fun n x => 2 * n + x.toNat) 0

/-- The byte whose bits, bit 7 first, are those of `s` (at most 8 of them), then zeros (R133). -/
def byteOfBits (s : Bits) : Byte := BitVec.ofNat 8 (bitsValue (s ++ List.replicate (8 - s.length) false))

/-- `PACK(s)` (R133): bit strings to bytes, first bit in bit 7 of byte 0, the last partial byte padded with zeros. -/
def pack : Bits → List Byte
  | [] => []
  | b7 :: b6 :: b5 :: b4 :: b3 :: b2 :: b1 :: b0 :: rest => byteOfBits [b7, b6, b5, b4, b3, b2, b1, b0] :: pack rest
  | s => [byteOfBits s]

/-! ## The bit writer -/

/-- A bit writer: every bit written so far (R130). -/
structure BitWriter where
  bits : Bits
  deriving DecidableEq, Repr

/-- `BW_NEW` (R130). -/
def bwNew : BitWriter := { bits := [] }

/-- `BW_BIT` (R131). -/
def bwBit (w : BitWriter) (x : Bool) : BitWriter := { bits := w.bits ++ [x] }

/-- `BW_BITS` (R132): the bulk form. -/
def bwBits (w : BitWriter) (c : Bits) : BitWriter := { bits := w.bits ++ c }

/-- `BW_FINISH` (R133). -/
def bwFinish (w : BitWriter) : List Byte := pack w.bits

/-! ## The bit reader -/

/-- A bit reader: its bytes and the number of bits consumed (R134, R135). -/
structure BitReader where
  bytes : List Byte
  pos   : Nat
  deriving DecidableEq, Repr

/-- `BR_NEW` (R134). -/
def brNew (bytes : List Byte) : BitReader := { bytes := bytes, pos := 0 }

/-- The reader is exhausted (R135). -/
def BitReader.exhausted (r : BitReader) : Bool := r.pos == 8 * r.bytes.length

/-- `BR_BIT` (R136): the next bit and the reader after it; `none` is `Exhausted`, which moves nothing. -/
def brBit (r : BitReader) : Option Bool × BitReader :=
  if r.exhausted then (none, r)
  else
    (some ((r.bytes.getD (r.pos / 8) 0#8).getLsbD (7 - r.pos % 8)), { r with pos := r.pos + 1 })

/-- The bits a reader still yields (R135): those of `BITS` that are not consumed. -/
def BitReader.remaining (r : BitReader) : Bits := (bitsOf r.bytes).drop r.pos

end Sys2Proof.Machine
end

