-- ==== Sys2Proof/Machine/HuffmanEncode.lean ====
section
/-!
DEFINITION. The Huffman encoder (R150 to R165): the frequency counter, the tree builder, the code generator, the table
serializer, the bit packer and the container (R97 to R104).
-/

namespace Sys2Proof.Machine

/-- A symbol (R13): a byte value, or the EndOfStream sentinel, distinct from all byte values. -/
inductive Symbol
  | byte (b : Byte)
  | eos
  deriving DecidableEq, Repr

/-- The number of a symbol (R13): 0 to 255, and 256 for `EOS`. Symbols are ordered by it. -/
def Symbol.num : Symbol → Nat
  | .byte b => b.toNat
  | .eos => 256

/-! ## Frequency counter -/

/-- A frequency table (R14): symbols with their counts, in ascending symbol number, each at most once. -/
abbrev FreqTable := List (Symbol × Nat)

/-- Counting one occurrence of a symbol (R150): 1 for a symbol not yet in the table, one more otherwise. -/
def countSymbol (s : Symbol) : FreqTable → FreqTable
  | [] => [(s, 1)]
  | (t, c) :: F =>
    if s = t then (t, c + 1) :: F
    else if s.num < t.num then (s, 1) :: (t, c) :: F
    else (t, c) :: countSymbol s F

/-- The scan of R150, in input order. -/
def countBytes (input : List Byte) : FreqTable := input.foldl (fun F b => countSymbol (.byte b) F) []

/-- `FREQ(I)` (R150): after the scan exactly one `EOS`, whose number is above every byte's. -/
def freq (input : List Byte) : FreqTable := countBytes input ++ [(.eos, 1)]

/-! ## Tree builder -/

/-- A tree node (R152), with its count and its creation sequence number. -/
inductive Tree
  | leaf (sym : Symbol) (count seq : Nat)
  | node (left right : Tree) (count seq : Nat)
  deriving DecidableEq, Repr

/-- The count of a node (R152). -/
def Tree.count : Tree → Nat
  | .leaf _ c _ => c
  | .node _ _ c _ => c

/-- The creation sequence number of a node (R152). -/
def Tree.seq : Tree → Nat
  | .leaf _ _ q => q
  | .node _ _ _ q => q

/-- The order of the keys `(count, seq)` (R153): count first, then sequence number. -/
def Tree.before (a b : Tree) : Bool := a.count < b.count || (a.count == b.count && a.seq < b.seq)

/-- The element of the queue `t :: q` with the least key, and the other elements in their order (R153). -/
def extractMin (t : Tree) : List Tree → Tree × List Tree
  | [] => (t, [])
  | u :: q =>
    if t.before (extractMin u q).1 then (t, u :: q)
    else ((extractMin u q).1, t :: (extractMin u q).2)

/-- The internal node that combines two removed nodes (R153): the first removed is the left child (R154). -/
def combine (a b : Tree) (next : Nat) : Tree := .node a b (a.count + b.count) next

/-- One iteration of the loop of R153 on the queue `t :: u :: q`: the two nodes of least key are removed and their
combination is put at the end of the queue. -/
def combineLeast (t u : Tree) (q : List Tree) (next : Nat) : List Tree :=
  match extractMin t (u :: q) with
  | (a, []) => [a]
  | (a, v :: q1) => (extractMin v q1).2 ++ [combine a (extractMin v q1).1 next]

/-- The loop of R153 on the queue `t :: q`. Each iteration makes the queue one node shorter, so as many iterations as
`q` has nodes reach the root; the first argument counts them. -/
def buildLoop : Nat → Tree → List Tree → Nat → Tree
  | 0, t, _, _ => t
  | _ + 1, t, [], _ => t
  | n + 1, t, u :: q, next =>
    match combineLeast t u q next with
    | [] => t
    | v :: q1 => buildLoop n v q1 (next + 1)

/-- The leaves of R153, numbered in ascending symbol order from `next` on. -/
def leavesFrom : Nat → FreqTable → List Tree
  | _, [] => []
  | next, (s, c) :: F => .leaf s c next :: leavesFrom (next + 1) F

/-- `BUILD_TREE(F)` (R153). A frequency table always holds `EOS` (R151), so the queue is never empty at the start. -/
def buildTree (F : FreqTable) : Tree :=
  match leavesFrom 0 F with
  | [] => .leaf .eos 1 0
  | t :: q => buildLoop q.length t q (q.length + 1)

/-! ## Code generator -/

/-- A code table (R14): symbols with their codes, each symbol at most once. -/
abbrev CodeTable := List (Symbol × Bits)

/-- `WALK` (R158): 0 for a left branch, 1 for a right branch. -/
def walk : Tree → Bits → CodeTable
  | .leaf s _ _, p => [(s, p)]
  | .node l r _ _, p => walk l (p ++ [false]) ++ walk r (p ++ [true])

/-- `CODES(root)` (R158); the single leaf's code is "0" (R159). -/
def codes : Tree → CodeTable
  | .leaf s _ _ => [(s, [false])]
  | .node l r c q => walk (.node l r c q) []

/-- The code of a symbol in a table. -/
def codeOf : CodeTable → Symbol → Option Bits
  | [], _ => none
  | (t, c) :: C, s => if s = t then some c else codeOf C s

/-- The code table of an input (R161). -/
def codeTable (input : List Byte) : CodeTable := codes (buildTree (freq input))

/-! ## Table serializer -/

/-- Inserting an entry in ascending symbol number. -/
def insertEntry (e : Symbol × Bits) : CodeTable → CodeTable
  | [] => [e]
  | f :: C => if e.1.num ≤ f.1.num then e :: f :: C else f :: insertEntry e C

/-- The entries in ascending symbol number, `EOS` last (R103). -/
def ascending : CodeTable → CodeTable
  | [] => []
  | e :: C => insertEntry e (ascending C)

/-- An entry of the serialized table (R99 to R102): `SYM_HI`, `SYM_LO`, `L`, the code bits packed. -/
def serEntry (s : Symbol) (c : Bits) : List Byte := u16be s.num ++ [BitVec.ofNat 8 c.length] ++ pack c

/-- The entries serialized in the order given; a code longer than 255 bits raises `CodeTooLong` (R162). -/
def serEntries : CodeTable → Except ErrKind (List Byte)
  | [] => .ok []
  | (s, c) :: C =>
    if maxCodeLen < c.length then .error .codeTooLong
    else (serEntries C).map (fun out => serEntry s c ++ out)

/-- `SER_TABLE(C)` (R162). -/
def serTable (C : CodeTable) : Except ErrKind (List Byte) := serEntries (ascending C)

/-! ## Bit packer -/

/-- Writing the code of a symbol to a bit writer. Every symbol written is in the table (R161). -/
def writeSymbol (C : CodeTable) (w : BitWriter) (s : Symbol) : BitWriter := bwBits w ((codeOf C s).getD [])

/-- The codes of the input bytes in order, one after the other (R163), without the code of `EOS`. -/
def codeBits (C : CodeTable) : List Byte → Bits
  | [] => []
  | b :: input => (codeOf C (.byte b)).getD [] ++ codeBits C input

/-- `PACK_DATA(C, I)` (R163): the codes of the input bytes, then the code of `EOS`, padded to a byte boundary. The
input's codes are given to the writer in one piece (R132's bulk form). -/
def packData (C : CodeTable) (input : List Byte) : List Byte :=
  bwFinish (writeSymbol C (bwBits bwNew (codeBits C input)) .eos)

/-! ## Container -/

/-- The layout of a Huffman container (R97) around a serialized table and its bit data. -/
def huffContainer (table data : List Byte) : List Byte := markerHuff :: (u16be table.length ++ table ++ data)

/-- `HUFF_ENCODE(I)` (R164). -/
def huffEncode (input : List Byte) : Except ErrKind (List Byte) :=
  (serTable (codeTable input)).map (fun table => huffContainer table (packData (codeTable input) input))

end Sys2Proof.Machine
end

