-- ==== Sys2Proof/Machine/HuffmanDecode.lean ====
section
/-!
DEFINITION. The Huffman decoder (R180 to R193): the header reader, the table reconstructor with its checks, the symbol
mapper.
-/

namespace Sys2Proof.Machine

/-! ## Table reconstructor -/

/-- `CHECK_SYMBOL(hi, lo)` (R182). -/
def checkSymbol (hi lo : Byte) : Except ErrKind Symbol :=
  if hi = 0x00#8 then .ok (.byte lo)
  else if hi = 0x01#8 ∧ lo = 0x00#8 then .ok .eos
  else .error .corruptCodeTable

/-- `CHECK_LENGTH(L)` (R183). -/
def checkLength (len : Byte) : Except ErrKind Unit :=
  if len = 0x00#8 then .error .corruptCodeTable else .ok ()

/-- `CODE_BITS(q, L)` (R184): the first `len` bits of the code bytes; the padding after them must be zero. -/
def codeBitsOf (q : List Byte) (len : Nat) : Except ErrKind Bits :=
  if ((bitsOf q).drop len).any id then .error .corruptCodeTable else .ok ((bitsOf q).take len)

/-- One entry at the head of the table bytes (R181): the entry and the bytes after it. -/
def parseEntry : List Byte → Except ErrKind ((Symbol × Bits) × List Byte)
  | hi :: lo :: len :: rest =>
    match checkSymbol hi lo, checkLength len with
    | .ok s, .ok _ =>
      if rest.length < ceil8 len.toNat then .error .corruptCodeTable
      else
        match codeBitsOf (rest.take (ceil8 len.toNat)) len.toNat with
        | .ok c => .ok ((s, c), rest.drop (ceil8 len.toNat))
        | .error e => .error e
    | .error e, _ => .error e
    | .ok _, .error e => .error e
  | _ => .error .corruptCodeTable

/-- The loop of R181: entries until the table bytes end, no symbol twice (R185). Each entry takes at least 3 bytes, so
the length of the table bounds the number of iterations; the first argument counts them. -/
def parseEntries : Nat → List Byte → CodeTable → Except ErrKind CodeTable
  | _, [], C => .ok C
  | 0, _ :: _, _ => .error .corruptCodeTable
  | n + 1, b :: tb, C =>
    match parseEntry (b :: tb) with
    | .error e => .error e
    | .ok (e, rest) =>
      if (codeOf C e.1).isSome then .error .corruptCodeTable else parseEntries n rest (C ++ [e])

/-- `CHECK_EOS(C)` (R186). -/
def hasEos (C : CodeTable) : Bool := (codeOf C .eos).isSome

/-- The check of `CHECK_PREFIX_FREE(C)` (R187): no code is a prefix of, or equal to, the code of another symbol. -/
def prefixFree (C : CodeTable) : Bool :=
  C.all (fun e => C.all (fun f => e.1 == f.1 || !(e.2.isPrefixOf f.2)))

/-- `PARSE_TABLE(tb)` (R181). -/
def parseTable (tb : List Byte) : Except ErrKind CodeTable :=
  match parseEntries tb.length tb [] with
  | .error e => .error e
  | .ok C => if hasEos C && prefixFree C then .ok C else .error .corruptCodeTable

/-! ## Symbol mapper -/

/-- `INV(C)` (R188): the symbol whose code is the given bit string. -/
def symbolOf : CodeTable → Bits → Option Symbol
  | [], _ => none
  | (s, c) :: C, acc => if acc = c then some s else symbolOf C acc

/-- The loop of `MAP_SYMBOLS` (R189) over the bits the reader still yields, with the accumulated string and the number
of bytes that may still be emitted. Bits running out is `TruncatedInput` (R191), a byte with no room left is
`OutputOverflow` (R192), and the code of `EOS` ends the decode (R190). -/
def mapBits (C : CodeTable) : Bits → Bits → Nat → Except ErrKind (List Byte)
  | [], _, _ => .error .truncatedInput
  | x :: bits, acc, room =>
    match symbolOf C (acc ++ [x]) with
    | none => mapBits C bits (acc ++ [x]) room
    | some .eos => .ok []
    | some (.byte b) =>
      match room with
      | 0 => .error .outputOverflow
      | room' + 1 => (mapBits C bits [] room').map (fun out => b :: out)

/-- `MAP_SYMBOLS(C, D, cap)` (R189): a fresh reader over the bit data (R137). -/
def mapSymbols (C : CodeTable) (data : List Byte) (cap : Nat) : Except ErrKind (List Byte) :=
  mapBits C (brNew data).remaining [] cap

/-! ## Header reader -/

/-- `HUFF_DECODE(d, cap)` (R180), for a container whose byte 0 is the marker: the length field, the table, the bit
data. The table is validated completely before any bit is decoded. -/
def huffDecode (d : List Byte) (cap : Nat) : Except ErrKind (List Byte) :=
  match d with
  | _ :: hi :: lo :: rest =>
    if rest.length < be16 hi lo then .error .truncatedInput
    else
      match parseTable (rest.take (be16 hi lo)) with
      | .error e => .error e
      | .ok C => mapSymbols C (rest.drop (be16 hi lo)) cap
  | _ => .error .truncatedInput

end Sys2Proof.Machine
end

