-- ==== Sys2Proof/Machine/RunLength.lean ====
section
/-!
DEFINITION. The run-length encoder and decoder (R200 to R207) and the run-length container (R105, R106).
-/

namespace Sys2Proof.Machine

/-- The scan of the run detector (R200) with its current symbol and running count. -/
def runsFrom (cur : Byte) (cnt : Nat) : List Byte → List (Byte × Nat)
  | [] => [(cur, cnt)]
  | b :: input => if b = cur then runsFrom cur (cnt + 1) input else (cur, cnt) :: runsFrom b 1 input

/-- `RUNS(I)` (R200): the maximal runs of the input, in order. -/
def runs : List Byte → List (Byte × Nat)
  | [] => []
  | b :: input => runsFrom b 1 input

/-- The loop of `SPLIT` (R201). Each iteration takes 65535 off the run length; the first argument bounds them. -/
def splitLoop : Nat → Byte → Nat → List (Byte × Nat)
  | 0, s, r => [(s, r)]
  | n + 1, s, r => if rleCountMax < r then (s, rleCountMax) :: splitLoop n s (r - rleCountMax) else [(s, r)]

/-- `SPLIT(s, r)` (R201): full-capacity units first, then the remainder. -/
def split (s : Byte) (r : Nat) : List (Byte × Nat) := splitLoop (r / rleCountMax) s r

/-- `UNIT(s, k)` (R202). -/
def unit (s : Byte) (k : Nat) : List Byte := s :: u16be k

/-- The units of a list of runs, split and serialized (R203). -/
def unitsOf : List (Byte × Nat) → List Byte
  | [] => []
  | (s, r) :: rs => (split s r).flatMap (fun u => unit u.1 u.2) ++ unitsOf rs

/-- `RLE_ENCODE(I)` (R203). -/
def rleEncode (input : List Byte) : List Byte := markerRle :: unitsOf (runs input)

/-- The loop of `RLE_DECODE` (R204) over the bytes after the marker, with the number of bytes that may still be
emitted: a unit cut short is `TruncatedInput` (R206), a unit past the capacity is `OutputOverflow` (R207), a count of 0
emits nothing (R205). -/
def rleUnits : List Byte → Nat → Except ErrKind (List Byte)
  | [], _ => .ok []
  | s :: hi :: lo :: rest, room =>
    if room < be16 hi lo then .error .outputOverflow
    else (rleUnits rest (room - be16 hi lo)).map (fun out => List.replicate (be16 hi lo) s ++ out)
  | _, _ => .error .truncatedInput

/-- `RLE_DECODE(d, cap)` (R204), for a container whose byte 0 is the marker. -/
def rleDecode (d : List Byte) (cap : Nat) : Except ErrKind (List Byte) := rleUnits (d.drop 1) cap

end Sys2Proof.Machine
end

