-- ==== Sys2Proof/Machine/Container.lean ====
section
/-!
DEFINITION. The format selector (R220, R221), the decode dispatcher (R223, R224) and the four `EXEC_` functions (R229
to R232) as pure functions of the input bytes and the capacity (R238).
-/

namespace Sys2Proof.Machine

/-- `sat(x) = min(x, 2^32 - 1)` (R229) as a register value. -/
def sat (x : Nat) : Word := BitVec.ofNat 32 (min x (2 ^ 32 - 1))

/-- `SELECT(h, r)` (R220): run-length only when strictly shorter; ties go to Huffman (R221). The selected candidate is
emitted unchanged (R222). -/
def select (h r : List Byte) : List Byte × Sel := if r.length < h.length then (r, .rle) else (h, .huff)

/-- `DISPATCH(d, cap)` (R223): by the marker byte alone; an empty container lacks it (R224). -/
def dispatch (d : List Byte) (cap : Nat) : Except ErrKind (List Byte) × Sel :=
  match d with
  | [] => (.error .truncatedInput, .none)
  | m :: _ =>
    if m = markerHuff then (huffDecode d cap, .huff)
    else if m = markerRle then (rleDecode d cap, .rle)
    else (.error .unknownEncodingType, .none)

/-- The result of an encode that selected the container `c` (R229 to R231, R239): within the capacity it is the output,
beyond it the encode fails with `OutputOverflow`; both report the codec and the candidate lengths. -/
def encodeResult (c : List Byte) (sel : Sel) (hl rl : Word) (cap : Nat) : CmdResult :=
  if cap < c.length then { err := .outputOverflow, sel := sel, out := [], hl := hl, rl := rl }
  else { err := .none, sel := sel, out := c, hl := hl, rl := rl }

/-- `EXEC_ENC_BEST(I, cap)` (R229). -/
def encBestResult (input : List Byte) (cap : Nat) : CmdResult :=
  match huffEncode input with
  | .error e => { err := e, sel := .none, out := [], hl := 0#32, rl := 0#32 }
  | .ok h =>
    encodeResult (select h (rleEncode input)).1 (select h (rleEncode input)).2 (sat h.length)
      (sat (rleEncode input).length) cap

/-- `EXEC_ENC_HUFF(I, cap)` (R230). -/
def encHuffResult (input : List Byte) (cap : Nat) : CmdResult :=
  match huffEncode input with
  | .error e => { err := e, sel := .none, out := [], hl := 0#32, rl := 0#32 }
  | .ok h => encodeResult h .huff (sat h.length) 0#32 cap

/-- `EXEC_ENC_RLE(I, cap)` (R231). -/
def encRleResult (input : List Byte) (cap : Nat) : CmdResult :=
  encodeResult (rleEncode input) .rle 0#32 (sat (rleEncode input).length) cap

/-- `EXEC_DECODE(d, cap)` (R232). -/
def decodeResult (d : List Byte) (cap : Nat) : CmdResult :=
  match dispatch d cap with
  | (.error e, sel) => { err := e, sel := sel, out := [], hl := 0#32, rl := 0#32 }
  | (.ok out, sel) => { err := .none, sel := sel, out := out, hl := 0#32, rl := 0#32 }

end Sys2Proof.Machine
end

