-- ==== Sys2Proof/Machine/Flags.lean ====
section
/-!
DEFINITION. The core's flags, all of them in `STATUS` (R23), and the interrupt line computed from them (R37, R271).
-/

namespace Sys2Proof.Machine

/-- `STATUS.BUSY`: 1 exactly when `ENG = BUSY` (R23, R35). -/
def State.busy (s : State) : Bool := s.eng == .busy

/-- The level interrupt `irq = STATUS.DONE AND IRQ_EN.IE` (R37, R271). -/
def State.irq (s : State) : Bool := s.done && s.ie

/-- One bit as a 32-bit value. -/
def bitWord (b : Bool) : Word := if b then 1#32 else 0#32

/-- The value a read of `STATUS` returns (R234). The reserved bits read 0 (R23). -/
def State.status (s : State) : Word :=
  ((selCode s.sel).setWidth 32 <<< 8) ||| ((errCode s.err).setWidth 32 <<< 4) ||| (bitWord s.done <<< 1) |||
    bitWord s.busy

/-- `DONE` after a host write of `v` to `STATUS`: write-1-to-clear (R24). -/
def doneAfterStatusWrite (done : Bool) (v : Word) : Bool := done && !v.getLsbD 1

/-- `IE` after a host write of `v` to `IRQ_EN` (R25, R235): bit 0 of the value. -/
def ieOfWrite (v : Word) : Bool := v.getLsbD 0

/-- Whether a fault kind is in the fault record (R38). -/
def FaultRecord.has (f : FaultRecord) : FaultKind → Bool
  | .hostHazard => f.hostHazard
  | .uninitRead => f.uninitRead

/-- The fault record with a kind added when the condition holds (R38): kinds are added and never removed. -/
def FaultRecord.addIf (f : FaultRecord) (k : FaultKind) (c : Bool) : FaultRecord :=
  { hostHazard := f.hostHazard || (k == .hostHazard && c)
    uninitRead := f.uninitRead || (k == .uninitRead && c) }

/-- The empty fault record: nothing the hardware's result is unspecified for has happened (R38). -/
def FaultRecord.empty (f : FaultRecord) : Bool := !f.hostHazard && !f.uninitRead

end Sys2Proof.Machine
end

