-- ==== Sys2Proof/Machine/Operands.lean ====
section
/-!
DEFINITION. Operands: reading and writing the bytes of a buffer, the implicit operands of a command (R94), and the
value operands of the host script (R109).
-/

namespace Sys2Proof.Machine

/-- The byte written at an address since the last reset, none where the written flag is 0 (R39). -/
def Memory.get? : Memory → Nat → Option Byte
  | [], _ => none
  | (b, v) :: m, a => if a = b then some v else Memory.get? m a

/-- Storing one byte and setting its written flag (R39, R237). -/
def Memory.set : Memory → Nat → Byte → Memory
  | [], a, v => [(a, v)]
  | (b, w) :: m, a, v =>
    if a < b then (a, v) :: (b, w) :: m
    else if a = b then (a, v) :: m
    else (b, w) :: Memory.set m a v

/-- The cells of a byte string laid out from an address on. -/
def cellsFrom : Nat → List Byte → Memory
  | _, [] => []
  | a, v :: bytes => (a, v) :: cellsFrom (a + 1) bytes

/-- Storing a byte string at addresses 0, 1, 2, ... (R240): the bytes above it are kept. -/
def Memory.setPrefix (m : Memory) (bytes : List Byte) : Memory :=
  cellsFrom 0 bytes ++ m.filter (fun c => bytes.length ≤ c.1)

/-- The `n` bytes at addresses `a`, `a + 1`, ..., read off a canonical list that begins there; none when one of
them is unwritten. -/
def takeCells : Nat → Nat → Memory → Option (List Byte)
  | _, 0, _ => some []
  | _, _ + 1, [] => none
  | a, n + 1, (b, v) :: m => if b = a then (takeCells (a + 1) n m).map (v :: ·) else none

/-- `SRC[0..n)` (R233): the first `n` bytes of a buffer, none when one of them was never written. -/
def Memory.firstBytes? (m : Memory) (n : Nat) : Option (List Byte) := takeCells 0 n m

/-- The buffer of a state. -/
def State.buf (s : State) : Buf → Memory
  | .src => s.src
  | .dst => s.dst

/-- The capacity operand `cap = L_CAP` of a command (R94, R229). -/
def State.cap (s : State) : Nat := s.lCap.toNat

/-- The length operand `n = L_SRC_LEN` of a command (R94, R233). -/
def State.inputLen (s : State) : Nat := s.lSrcLen.toNat

/-- The latched length exceeds the input buffer (R233, R267). -/
def State.inputTooLong (s : State) : Bool := s.params.srcMemSize < s.inputLen

/-- The engine reads a byte that was never written (R39): the input is not too long, and a byte of it is missing. -/
def State.readsUnwritten (s : State) : Bool := !s.inputTooLong && (s.src.firstBytes? s.inputLen).isNone

/-- The value bound to a name, the latest binding first. -/
def lookupName : List (HostName × Word) → HostName → Option Word
  | [], _ => none
  | (m, v) :: ns, n => if n = m then some v else lookupName ns n

/-- The bindings with a name bound to a value; an earlier binding of the name is replaced. -/
def bindName : List (HostName × Word) → HostName → Word → List (HostName × Word)
  | [], n, v => [(n, v)]
  | (m, w) :: ns, n, v => if n = m then (n, v) :: ns else (m, w) :: bindName ns n v

/-- The value of a host write's operand (R109): written out, or bound by an earlier read; a name that no read has bound
has no value. -/
def State.hostValue (s : State) : HostVal → Except Refusal Word
  | .lit v => .ok v
  | .var n =>
    match lookupName s.names n with
    | some v => .ok v
    | none => .error (.unboundName n)

end Sys2Proof.Machine
end

