-- ==== Sys2Proof/Machine/Ops.lean ====
section
/-!
DEFINITION. The shared operations on the state: command start (R225), the refusal of a reserved opcode (R228), the
engine's completion step with its commit and its abort (R233, R238 to R243), reset (R290 to R293), the host's register
and buffer accesses (R234 to R237), and the choice of the next agent (R70, R298).
-/

namespace Sys2Proof.Machine

/-- The outcome with a function applied to its next state. -/
def mapNext (f : State → State) : Host.Outcome State Fault Refusal → Host.Outcome State Fault Refusal
  | .next s => .next (f s)
  | .fault r => .fault r
  | .refused r => .refused r

/-! ## Command issue -/

/-- Command start (R225): the operands are latched, the engine becomes busy, the reports are cleared. -/
def startCommand (op : BitVec 4) (s : State) : State :=
  { s with
    lOp := op, lSrcLen := s.srcLen, lCap := s.dstCap, eng := .busy
    done := false, err := .none, sel := .none
    dstLen := 0#32, huffLen := 0#32, rleLen := 0#32
    tainted := false }

/-- The refusal of a reserved opcode while idle (R228, R266): the one error recorded at the write itself. -/
def recordIllegalCommand (s : State) : State :=
  { s with
    done := true, err := .illegalCommand, sel := .none
    dstLen := 0#32, huffLen := 0#32, rleLen := 0#32 }

/-- The three lengths cleared where the condition holds, and nothing else. -/
def clearLengthsIf (c : Bool) (s : State) : State :=
  { s with
    dstLen := if c then 0#32 else s.dstLen
    huffLen := if c then 0#32 else s.huffLen
    rleLen := if c then 0#32 else s.rleLen }

/-- A `CMD` write of `NOP`: ignored while busy (R226). When idle no state changes (R227), or, where the reading is that
of R28, R29 and R30, the three lengths are 0 after it (log entry 22). -/
def issueNop (s : State) : State := clearLengthsIf (!s.busy && s.params.readings.nopClearsLengths) s

/-- A `CMD` write of one of the four started commands: a start when idle (R225), ignored while busy (R226). -/
def issueCommand (op : BitVec 4) (s : State) : State :=
  match s.eng with
  | .idle => startCommand op s
  | .busy => s

/-- A `CMD` write of a reserved opcode: recorded when idle (R228), ignored while busy (R226). -/
def refuseReserved (s : State) : State :=
  match s.eng with
  | .idle => recordIllegalCommand s
  | .busy => s

/-! ## Completion -/

/-- A result that reports an error: no output (R264). -/
def CmdResult.failure (e : ErrKind) (sel : Sel) (hl rl : Word) : CmdResult :=
  { err := e, sel := sel, out := [], hl := hl, rl := rl }

/-- The result of a command whose result the spec does not define (R39, R75): every part a free value, within the
limits R238 and R239 set (an error has no output, and no output is longer than the capacity). -/
def undefinedResult (draw cap : Nat) : CmdResult :=
  { err := Config.undefinedErr draw
    sel := Config.undefinedSel draw
    out := if Config.undefinedErr draw = .none then (Config.undefinedOut draw).take cap else []
    hl := Config.undefinedHuffLen draw
    rl := Config.undefinedRleLen draw }

/-- The result of the command in flight is not defined by the spec: a host write met it (R75), or it reads an
unwritten byte (R39). -/
def State.resultUndefined (s : State) : Bool := s.tainted || s.readsUnwritten

/-- `EXEC` (R238): the input check of R233, then the command's own function of its input and its capacity; a free
value where the spec does not define the result. -/
def commandResult (f : List Byte → Nat → CmdResult) (s : State) : CmdResult :=
  if s.resultUndefined then undefinedResult s.draws s.cap
  else if s.inputTooLong then .failure .inputTooLong .none 0#32 0#32
  else f ((s.src.firstBytes? s.inputLen).getD []) s.cap

/-- Commit and report (R240 to R243): on success the output is written to `DST` and its length to `DST_LEN`; on an
error no byte is written and `DST_LEN` is 0; in every case the status and the two lengths are reported, and the engine
is idle with `DONE` set. The read of the input is recorded (R39, R270). -/
def finishCommand (r : CmdResult) (s : State) : State :=
  { s with
    dst := if r.err = .none then s.dst.setPrefix r.out else s.dst
    dstLen := if r.err = .none then BitVec.ofNat 32 r.out.length else 0#32
    err := r.err, sel := r.sel, huffLen := r.hl, rleLen := r.rl
    eng := .idle, done := true
    faults := s.faults.addIf .uninitRead s.readsUnwritten
    draws := if s.resultUndefined then s.draws + 1 else s.draws
    tainted := false }

/-- The engine step (R243) for a command with the given function: enabled exactly when `ENG = BUSY`. -/
def completeCommand (f : List Byte → Nat → CmdResult) (s : State) : State :=
  match s.eng with
  | .idle => s
  | .busy => finishCommand (commandResult f s) s

/-- The whole meaning of a started command: at the engine's turn its completion step (R243), at any other the host's
write of it to `CMD` (R225, R226). -/
def runCommand (op : BitVec 4) (f : List Byte → Nat → CmdResult) (s : State) : State :=
  match s.turn with
  | .engine => completeCommand f s
  | .host => issueCommand op s
  | .reset => issueCommand op s

/-! ## Reset -/

/-- Reset (R290 to R293): the state of R290, with the fault record kept (R293). The host agent is outside the core, so
its script, its names and the schedule are kept; unwritten bytes are free anew. -/
def resetMachine (s : State) : State :=
  { State.resetWith s.params with
    faults := s.faults
    epoch := s.epoch + 1
    draws := s.draws
    script := s.script, names := s.names, turn := s.turn, sched := s.sched }

/-! ## The host's accesses -/

/-- The accesses that have a step: aligned 32-bit register accesses at 0x00 to 0xFC (R61), byte accesses inside a
buffer (R62). -/
def accessLegal (p : Params) (a : Access) : Bool :=
  match a.space with
  | .reg => a.width == 32 && a.addr % 4 == 0 && a.addr ≤ 0xFC
  | .buf b => a.width == 8 && a.addr < p.size b

/-- The value a register read returns (R234). No read has a side effect (R68). -/
def regRead (offset : Nat) (s : State) : Word :=
  match regAt offset with
  | some .cmd => 0#32
  | some .status => s.status
  | some .irqEn => bitWord s.ie
  | some .srcLen => s.srcLen
  | some .dstCap => s.dstCap
  | some .dstLen => s.dstLen
  | some .huffLen => s.huffLen
  | some .rleLen => s.rleLen
  | some .id => idValue
  | none => 0#32

/-- `min(v, DST_MEM_SIZE)`, what a write of `v` to `DST_CAP` stores (R27). -/
def clampCap (p : Params) (v : Word) : Word := BitVec.ofNat 32 (min v.toNat p.dstMemSize)

/-- A write to a register other than `CMD` (R235). Writes to the read-only and reserved registers are ignored; a write
to `CMD` is an action of its own and not this operation's. -/
def regWrite (offset : Nat) (v : Word) (s : State) : State :=
  match regAt offset with
  | some .status => { s with done := doneAfterStatusWrite s.done v }
  | some .irqEn => { s with ie := ieOfWrite v }
  | some .srcLen => { s with srcLen := v }
  | some .dstCap => { s with dstCap := clampCap s.params v }
  | some .cmd => s
  | some .dstLen => s
  | some .huffLen => s
  | some .rleLen => s
  | some .id => s
  | none => s

/-- A host write of a byte to a buffer (R237): the byte is stored and its flag set; while busy `HostHazard` is recorded
and the result of the command in flight is no longer defined (R75). -/
def hostStore (b : Buf) (a : Nat) (v : Byte) (s : State) : State :=
  { s with
    src := if b = .src then s.src.set a v else s.src
    dst := if b = .dst then s.dst.set a v else s.dst
    faults := s.faults.addIf .hostHazard s.busy
    tainted := s.tainted || s.busy }

/-- A host read of a buffer byte is a fresh draw when it reads `DST` while the engine is busy (R75). -/
def drawsFresh (b : Buf) (s : State) : Bool := b == .dst && s.busy

/-- The value a host read of a buffer byte returns (R236): a fresh draw for `DST` while busy (R75); else the stored
byte; else, for a byte never written, the free value it holds (R39). -/
def hostLoadValue (b : Buf) (a : Nat) (s : State) : Byte :=
  if drawsFresh b s then Config.busyDstByte s.draws
  else (Memory.get? (s.buf b) a).getD (Config.unwrittenByte s.epoch b a)

/-- A host read of a buffer byte records `UninitRead`: the byte was never written (R39, R236). Of `DST` while busy,
where R75 records nothing, it is the reading that decides (log entry 5). -/
def recordsUninit (b : Buf) (a : Nat) (s : State) : Bool :=
  (Memory.get? (s.buf b) a).isNone && (!drawsFresh b s || s.params.readings.busyReadRecordsUninit)

/-- What a host read of a buffer byte records: `UninitRead`, and the use of a fresh draw. -/
def hostLoadRecord (b : Buf) (a : Nat) (s : State) : State :=
  { s with
    faults := s.faults.addIf .uninitRead (recordsUninit b a s)
    draws := if drawsFresh b s then s.draws + 1 else s.draws }

/-- Binding the value a host read returned to the script's name (R109). -/
def bindValue (n : HostName) (v : Word) (s : State) : State := { s with names := bindName s.names n v }

/-- The state with the given rest of the host's script. -/
def withScript (ops : List HostOp) (s : State) : State := { s with script := ops }

/-! ## The interleaving -/

/-- The agent that moves next (R70): the one the schedule names; when the schedule is used up the engine completes
what is in flight (R298), and otherwise the host moves. -/
def nextTurn (s : State) : Turn :=
  match s.sched with
  | t :: _ => t
  | [] => if s.busy then .engine else .host

/-- Passing the move to the next agent. -/
def advance (s : State) : State := { s with turn := nextTurn s, sched := s.sched.tail }

end Sys2Proof.Machine
end

