-- ==== Sys2Proof/Machine/Commands.lean ====
section
/-!
DEFINITION. The meaning of every command: one definition per row of the opcode table. A started command has two parts,
and the state says which is being run: at the host's turn its `CMD` write (R225, R226), at the engine's turn its
completion step (R243). `NOP` and the reserved opcodes have only the first.
-/

namespace Sys2Proof.Machine

/-- `NOP` (R227, R226). R28, R29 and R30 say otherwise of the three lengths: see `issueNop` and log entry 22. -/
def execNop (s : State) : Host.Outcome State Fault Refusal := .next (issueNop s)

/-- `ENC_BEST` (R229). -/
def execEncBest (s : State) : Host.Outcome State Fault Refusal := .next (runCommand 0x1#4 encBestResult s)

/-- `ENC_HUFF` (R230). -/
def execEncHuff (s : State) : Host.Outcome State Fault Refusal := .next (runCommand 0x2#4 encHuffResult s)

/-- `ENC_RLE` (R231). -/
def execEncRle (s : State) : Host.Outcome State Fault Refusal := .next (runCommand 0x3#4 encRleResult s)

/-- `DECODE` (R232). -/
def execDecode (s : State) : Host.Outcome State Fault Refusal := .next (runCommand 0x4#4 decodeResult s)

/-- Reserved `OP` 0x5 (R228). -/
def execReserved5 (s : State) : Host.Outcome State Fault Refusal := .next (refuseReserved s)

/-- Reserved `OP` 0x6 (R228). -/
def execReserved6 (s : State) : Host.Outcome State Fault Refusal := .next (refuseReserved s)

/-- Reserved `OP` 0x7 (R228). -/
def execReserved7 (s : State) : Host.Outcome State Fault Refusal := .next (refuseReserved s)

/-- Reserved `OP` 0x8 (R228). -/
def execReserved8 (s : State) : Host.Outcome State Fault Refusal := .next (refuseReserved s)

/-- Reserved `OP` 0x9 (R228). -/
def execReserved9 (s : State) : Host.Outcome State Fault Refusal := .next (refuseReserved s)

/-- Reserved `OP` 0xA (R228). -/
def execReservedA (s : State) : Host.Outcome State Fault Refusal := .next (refuseReserved s)

/-- Reserved `OP` 0xB (R228). -/
def execReservedB (s : State) : Host.Outcome State Fault Refusal := .next (refuseReserved s)

/-- Reserved `OP` 0xC (R228). -/
def execReservedC (s : State) : Host.Outcome State Fault Refusal := .next (refuseReserved s)

/-- Reserved `OP` 0xD (R228). -/
def execReservedD (s : State) : Host.Outcome State Fault Refusal := .next (refuseReserved s)

/-- Reserved `OP` 0xE (R228). -/
def execReservedE (s : State) : Host.Outcome State Fault Refusal := .next (refuseReserved s)

/-- Reserved `OP` 0xF (R228). -/
def execReservedF (s : State) : Host.Outcome State Fault Refusal := .next (refuseReserved s)

end Sys2Proof.Machine
end

