-- ==== Sys2Proof/Machine/Dispatch.lean ====
section
/-!
DEFINITION. The dispatch of a command to its meaning: one arm per constructor.
-/

namespace Sys2Proof.Machine

def exec (i : Instr) (s : State) : Host.Outcome State Fault Refusal :=
  match i with
  | .nop => Sys2Proof.Machine.execNop s
  | .encBest => Sys2Proof.Machine.execEncBest s
  | .encHuff => Sys2Proof.Machine.execEncHuff s
  | .encRle => Sys2Proof.Machine.execEncRle s
  | .decode => Sys2Proof.Machine.execDecode s
  | .reserved5 => Sys2Proof.Machine.execReserved5 s
  | .reserved6 => Sys2Proof.Machine.execReserved6 s
  | .reserved7 => Sys2Proof.Machine.execReserved7 s
  | .reserved8 => Sys2Proof.Machine.execReserved8 s
  | .reserved9 => Sys2Proof.Machine.execReserved9 s
  | .reservedA => Sys2Proof.Machine.execReservedA s
  | .reservedB => Sys2Proof.Machine.execReservedB s
  | .reservedC => Sys2Proof.Machine.execReservedC s
  | .reservedD => Sys2Proof.Machine.execReservedD s
  | .reservedE => Sys2Proof.Machine.execReservedE s
  | .reservedF => Sys2Proof.Machine.execReservedF s

end Sys2Proof.Machine
end

