-- ==== Sys2Proof/Machine/HostScript.lean ====
section
/-!
DEFINITION. The host script notation: the bus transactions of its mnemonics (R109) and the expansions of its
pseudo-instructions (R110).
-/

namespace Sys2Proof.Machine

/-- The 32-bit access of a register (R61). -/
def regAccess (r : Reg) : Access := { space := .reg, addr := regOffset r, width := 32 }

/-- The byte access of a buffer (R62). -/
def bufAccess (b : Buf) (a : Nat) : Access := { space := .buf b, addr := a, width := 8 }

/-- `STB SRC[a], b0`, `STB SRC[a+1], b1`, ... (R110's `FILL`). -/
def fillFrom : Nat → List Byte → List HostOp
  | _, [] => []
  | a, b :: bytes => .write (bufAccess .src a) (.lit (b.setWidth 32)) :: fillFrom (a + 1) bytes

/-- The bus transactions of a script line, in order (R109, R110). -/
def expandLine : ScriptLine → List HostOp
  | .wr r v => [.write (regAccess r) v]
  | .rd r n => [.read (regAccess r) n]
  | .stb b a v => [.write (bufAccess b a) v]
  | .ldb b a n => [.read (bufAccess b a) n]
  | .fillSrc bytes => fillFrom 0 bytes
  | .dumpDst count name => (List.range count).map (fun i => .read (bufAccess .dst i) (.named name i))
  | .copyDstToSrc count =>
    (List.range count).flatMap
      (fun i => [.read (bufAccess .dst i) .scratch, .write (bufAccess .src i) (.var .scratch)])
  | .poll => [.poll]
  | .run i => [.write (regAccess .cmd) (.lit (encode i)), .poll]
  | .clear => [.write (regAccess .status) (.lit 0x00000002#32)]

/-- The bus transactions of a whole host script. -/
def expandScript (lines : List ScriptLine) : List HostOp := lines.flatMap expandLine

end Sys2Proof.Machine
end

