-- ==== Sys2Proof/Machine/Events.lean ====
section
/-!
DEFINITION. The events of the machine (R70): a move of the host, the engine's completion step, the reset input.
-/

namespace Sys2Proof.Machine

/-- A legal host write (R235, R237). A write to `CMD` runs the command it decodes to. -/
def hostWrite (a : Access) (v : Word) (s : State) : Host.Outcome State Fault Refusal :=
  match a.space with
  | .reg => if regAt a.addr = some .cmd then exec (decode v) s else .next (regWrite a.addr v s)
  | .buf b => .next (hostStore b a.addr (v.setWidth 8) s)

/-- A legal host read (R234, R236): the value is bound to the script's name. -/
def hostRead (a : Access) (n : HostName) (s : State) : State :=
  match a.space with
  | .reg => bindValue n (regRead a.addr s) s
  | .buf b => bindValue n ((hostLoadValue b a.addr s).setWidth 32) (hostLoadRecord b a.addr s)

/-- One operation of the host, with the rest of its script. An illegal access has no step (R61, R62). `POLL` reads
`STATUS` and is repeated while the value read has `BUSY = 1` (R110); waiting for the interrupt is repeated until
`irq = 1` (R71, R294). -/
def hostOp (op : HostOp) (rest : List HostOp) (s : State) : Host.Outcome State Fault Refusal :=
  match op with
  | .write a v =>
    if accessLegal s.params a then
      match s.hostValue v with
      | .ok w => hostWrite a w (withScript rest s)
      | .error r => .refused r
    else .refused (.illegalAccess a)
  | .read a n =>
    if accessLegal s.params a then .next (hostRead a n (withScript rest s)) else .refused (.illegalAccess a)
  | .poll =>
    .next (withScript (if s.status.getLsbD 0 then .poll :: rest else rest)
      (bindValue .scratch (regRead (regOffset .status) s) s))
  | .waitIrq => .next (withScript (if s.irq then rest else .waitIrq :: rest) s)

/-- The host's move: its next operation; nothing when its script has ended (R299). -/
def hostTurn (s : State) : Host.Outcome State Fault Refusal :=
  match s.script with
  | [] => .next s
  | op :: rest => hostOp op rest s

/-- The engine's move (R243): enabled exactly when `ENG = BUSY`; it completes the latched command. -/
def engineTurn (s : State) : Host.Outcome State Fault Refusal :=
  match s.eng with
  | .idle => .next s
  | .busy =>
    if s.lOp = 0x1#4 ∨ s.lOp = 0x2#4 ∨ s.lOp = 0x3#4 ∨ s.lOp = 0x4#4 then exec (decodeOp s.lOp) s
    else .fault (.latchedOpHasNoCommand s.lOp)

/-- The event of the agent that moves. -/
def event (s : State) : Host.Outcome State Fault Refusal :=
  match s.turn with
  | .host => hostTurn s
  | .engine => engineTurn s
  | .reset => .next (resetMachine s)

/-- The host operation that writes a command word to `CMD` (R90). -/
def commandWrite (v : Word) : HostOp := .write (regAccess .cmd) (.lit v)

end Sys2Proof.Machine
end

