-- ==== Sys2Proof/Machine/Step.lean ====
section
/-!
DEFINITION. One step: the event of the agent that moves (R70), then the move passes on. And the placing of a command
word where the machine takes its next command from: the head of the host's script, with the host to move.
-/

namespace Sys2Proof.Machine

/-- One step of the machine. -/
def step (s : State) : Host.Outcome State Fault Refusal := mapNext advance (event s)

/-- The state whose next step is the host's write of the word `w` to `CMD` (log entry 10): the core fetches no
instructions (R73), a command is a register write. -/
def State.withFetchWord (s : State) (nbits w : Nat) : State :=
  { s with
    script := commandWrite (BitVec.ofNat 32 (w % 2 ^ nbits)) :: s.script
    turn := .host }

end Sys2Proof.Machine
end

