-- ==== Sys2Proof/Safety.lean ====
section
/-!
DEFINITION. The terms in which claims are stated: the invariant of the state, the end of a run and what is observed
there (R299), and a run without model faults (R38).
-/

namespace Sys2Proof.Machine

/-- The four commands that a `CMD` write starts (R225). -/
def isStarted : Instr → Bool
  | .encBest => true
  | .encHuff => true
  | .encRle => true
  | .decode => true
  | .nop => false
  | .reserved5 => false
  | .reserved6 => false
  | .reserved7 => false
  | .reserved8 => false
  | .reserved9 => false
  | .reservedA => false
  | .reservedB => false
  | .reservedC => false
  | .reservedD => false
  | .reservedE => false
  | .reservedF => false

/-- The reserved opcodes 0x5 to 0xF (R93). -/
def isReserved (i : Instr) : Bool := !isStarted i && i != .nop

/-- The `EXEC_` function of a started command (R229 to R232, R238). The other commands have none: they never run it. -/
def resultOf : Instr → List Byte → Nat → CmdResult
  | .encBest => encBestResult
  | .encHuff => encHuffResult
  | .encRle => encRleResult
  | .decode => decodeResult
  | _ => fun _ _ => .failure .none .none 0#32 0#32

/-- The invariant of the state: what the spec says holds of every state between events. -/
structure State.Inv (s : State) : Prop where
  /-- R7: the buffer sizes. -/
  params : s.params.wf = true
  /-- R60, R39: the input buffer is in canonical form. -/
  src : Memory.wf s.params.srcMemSize s.src
  /-- R60, R39: the output buffer is in canonical form. -/
  dst : Memory.wf s.params.dstMemSize s.dst
  /-- R27: the legal values of `DST_CAP`. -/
  cap : s.dstCap.toNat ≤ s.params.dstMemSize
  /-- R23: `BUSY` and `DONE` are never both 1. -/
  notBoth : s.eng = .busy → s.done = false
  /-- R225: the opcode in flight is one of the four that a start latches. -/
  op : s.eng = .busy → s.lOp = 0x1#4 ∨ s.lOp = 0x2#4 ∨ s.lOp = 0x3#4 ∨ s.lOp = 0x4#4
  /-- R239: the latched capacity never exceeds the output buffer. -/
  latchedCap : s.eng = .busy → s.lCap.toNat ≤ s.params.dstMemSize
  /-- R225: the reports of the command in flight are clear. -/
  clear : s.eng = .busy → s.err = .none ∧ s.sel = .none ∧ s.dstLen = 0#32 ∧ s.huffLen = 0#32 ∧ s.rleLen = 0#32
  /-- R28: every byte that `DST_LEN` counts has been written. -/
  written : ∀ a, a < s.dstLen.toNat → (s.dst.get? a).isSome = true
  /-- R28, R241: `DST_LEN` is 0 after any error. -/
  errLen : s.err ≠ .none → s.dstLen = 0#32
  /-- R75: a result in flight is undefined only with `HostHazard` on record. -/
  hazard : s.tainted = true → s.eng = .busy ∧ s.faults.hostHazard = true

/-- `SRC[0..n)` holds the input `I` of the command in flight, for `n` the latched length: every byte of it is written
and the latched length fits the buffer (R233, R294). -/
def inputIs (s : State) (I : List Byte) : Prop :=
  Memory.wf s.params.srcMemSize s.src ∧ s.inputLen = I.length ∧ I.length ≤ s.params.srcMemSize
    ∧ ∀ a, a < I.length → s.src.get? a = I[a]?

/-- The engine is about to complete a command that no host write has met (R243, R75). -/
def completing (s : State) : Prop := s.turn = .engine ∧ s.eng = .busy ∧ s.tainted = false

/-- The symbol a leaf owns, for the leaves of a tree from left to right (R152). -/
def Tree.symbols : Tree → List Symbol
  | .leaf s _ _ => [s]
  | .node l r _ _ => l.symbols ++ r.symbols

/-- The sequence numbers of the nodes of a tree (R155). -/
def Tree.seqs : Tree → List Nat
  | .leaf _ _ q => [q]
  | .node l r _ q => q :: (l.seqs ++ r.seqs)

/-- The number of internal nodes of a tree (R155). -/
def Tree.nodes : Tree → Nat
  | .leaf _ _ _ => 0
  | .node l r _ _ => l.nodes + r.nodes + 1

/-- The serialized length `T` of a code table (R107): the sum over its codes `c` of `3 + ceil8(len(c))`. -/
def tableLength (C : CodeTable) : Nat := (C.map (fun e => 3 + ceil8 e.2.length)).sum

/-- The number `B` of code bits of an input (R107): its bytes' codes, then the code of `EOS`. -/
def codeBitCount (C : CodeTable) (I : List Byte) : Nat :=
  (I.map (fun b => ((codeOf C (.byte b)).getD []).length)).sum + ((codeOf C .eos).getD []).length

/-- The number `U` of run-length units of an input (R107). -/
def unitCount (I : List Byte) : Nat := ((runs I).map (fun r => (r.2 + 65534) / 65535)).sum

/-- The end of a run (R299): the host has performed its last transaction and `ENG = IDLE`. -/
def State.runOver (s : State) : Bool := s.script.isEmpty && s.eng == .idle

/-- The observed result of a run (R299). -/
structure Observation where
  status  : Word
  dstLen  : Word
  huffLen : Word
  rleLen  : Word
  output  : Option (List Byte)
  faults  : FaultRecord
  deriving DecidableEq, Repr

/-- What is observed at the end of a run (R299): `STATUS`, the three lengths, `DST[0..DST_LEN)` and `FAULTS`. -/
def State.observe (s : State) : Observation where
  status  := s.status
  dstLen  := s.dstLen
  huffLen := s.huffLen
  rleLen  := s.rleLen
  output  := s.dst.firstBytes? s.dstLen.toNat
  faults  := s.faults

/-- A safe run (R38, R299): it ends in a next state that is over, with no model fault recorded. -/
def safeRun (k : Nat) (s t : State) : Prop :=
  Sys2Proof.core.run k s = .next t ∧ t.runOver = true ∧ t.faults.empty = true

end Sys2Proof.Machine
end

