-- ==== Sys2Proof/Certificates/Slice0/Obligations.lean ====
section
/-!
DEFINITION. The statements for the provers, family by family: the command word, the step, the host's accesses, the
commands, the codec units, the whole machine. `a` ranges over byte addresses, `I` over inputs, `d` over containers.
-/

open Sys2Proof Sys2Proof.Machine

/-! ## The command word -/

/-- R91, with V-CMD5 and V-CMD7: words written out from the opcode map decode to their rows. -/
def Obligations.CommandWordsDecodeToTheirRows : Prop :=
  decode 0x00000000#32 = .nop ∧ decode 0x00000001#32 = .encBest ∧ decode 0x00000002#32 = .encHuff
  ∧ decode 0x00000003#32 = .encRle ∧ decode 0x00000004#32 = .decode ∧ decode 0x00000005#32 = .reserved5
  ∧ decode 0x00000006#32 = .reserved6 ∧ decode 0x00000007#32 = .reserved7 ∧ decode 0x00000008#32 = .reserved8
  ∧ decode 0x00000009#32 = .reserved9 ∧ decode 0x0000000A#32 = .reservedA ∧ decode 0x0000000B#32 = .reservedB
  ∧ decode 0x0000000C#32 = .reservedC ∧ decode 0x0000000D#32 = .reservedD ∧ decode 0x0000000E#32 = .reservedE
  ∧ decode 0x0000000F#32 = .reservedF ∧ decode 0xFFFFFFF0#32 = .nop ∧ decode 0x00000014#32 = .decode

/-- R92: every 32-bit value is exactly one row of the opcode table, the one it decodes to, by bits 3 to 0 alone. -/
def Obligations.EveryWrittenValueIsExactlyOneRow : Prop :=
  ∀ v : Word,
    (∃ r ∈ opcodeTable, r.admits v = true ∧ r.instr = decode v
      ∧ ∀ r' ∈ opcodeTable, r'.admits v = true → r' = r)
    ∧ ∀ w : Word, v &&& 0x0000000F#32 = w &&& 0x0000000F#32 → decode v = decode w

/-- R90 to R93: decoding inverts encoding whatever stands in the ignored bits, and encoding gives back the `OP` bits of
any decoded value with the reserved bits 0. -/
def Obligations.DecodeInvertsEncode : Prop :=
  (∀ i : Instr, i.wf = true → decode (encode i) = i ∧ ∀ reserved : BitVec 28, decode (encodeWith reserved i) = i)
  ∧ ∀ v : Word, encode (decode v) = v &&& 0x0000000F#32

/-! ## The step -/

/-- R235, R225: a step in which the host writes `v` to `CMD` is the command that `v` decodes to, run on the state with
the write taken off the script, and then the move passes on. `withFetchWord` places exactly such a write. R243: a step
of the engine while busy is the latched command, run at the engine's turn. The turn, the schedule and the script are
the model's own (log entries 1, 10, 11). -/
def Obligations.StepRunsTheDecodedCommand : Prop :=
  (∀ (s : State) (v : Word) (rest : List HostOp), s.turn = .host → s.script = commandWrite v :: rest →
    step s = mapNext advance (exec (decode v) (withScript rest s)))
  ∧ (∀ (s : State) (w : Nat), w < 2 ^ 32 →
    step (s.withFetchWord 32 w) = mapNext advance (exec (decode (BitVec.ofNat 32 w)) { s with turn := .host }))
  ∧ ∀ (i : Instr) (s : State), isStarted i = true → s.turn = .engine → s.eng = .busy → s.lOp = i.op →
    step s = mapNext advance (exec i s)

/-! ## Reset -/

/-- R290, R291, R293: what a reset leaves, from every state: the registers of R290, `irq` 0, every written flag 0, the
fault record kept. The same at power-on (`State.resetWith`), with the fault record empty (R38). -/
def Obligations.ResetLeavesTheResetState : Prop :=
  (∀ s : State, s.params.wf = true → s.turn = .reset → ∃ t, step s = .next t
    ∧ t.eng = .idle ∧ t.status = 0x00000000#32 ∧ t.done = false ∧ t.err = .none ∧ t.sel = .none ∧ t.ie = false
    ∧ t.srcLen = 0#32 ∧ t.dstCap.toNat = s.params.dstMemSize ∧ t.dstLen = 0#32 ∧ t.huffLen = 0#32 ∧ t.rleLen = 0#32
    ∧ regRead 0x20 t = 0x48524C07#32 ∧ regRead 0x00 t = 0#32
    ∧ (∀ o, 0x24 ≤ o → o ≤ 0xFC → regRead o t = 0#32)
    ∧ t.irq = false ∧ (∀ b a, (t.buf b).get? a = none)
    ∧ t.faults = s.faults ∧ t.params = s.params)
  ∧ ∀ p : Params, p.wf = true →
    (State.resetWith p).eng = .idle ∧ (State.resetWith p).status = 0x00000000#32
    ∧ (State.resetWith p).ie = false ∧ (State.resetWith p).srcLen = 0#32
    ∧ (State.resetWith p).dstCap.toNat = p.dstMemSize ∧ (State.resetWith p).dstLen = 0#32
    ∧ (State.resetWith p).huffLen = 0#32 ∧ (State.resetWith p).rleLen = 0#32
    ∧ (State.resetWith p).irq = false ∧ (∀ b a, ((State.resetWith p).buf b).get? a = none)
    ∧ (State.resetWith p).faults.empty = true

/-- The invariant holds right after reset, for any buffer sizes of R7. -/
def Obligations.ResetMeetsTheInvariant : Prop :=
  State.reset.Inv ∧ ∀ p : Params, p.wf = true → (State.resetWith p).Inv

/-! ## The host's register accesses -/

/-- R234: a register read binds the value of the table to the script's name and changes nothing else. -/
def Obligations.RegisterReadReturnsItsValue : Prop :=
  ∀ (s : State) (o : Nat) (n : HostName) (rest : List HostOp), s.turn = .host →
    s.script = .read ⟨.reg, o, 32⟩ n :: rest → o % 4 = 0 → o ≤ 0xFC →
    step s = .next (advance (bindValue n
      (if o = 0x00 then 0x00000000#32
        else if o = 0x04 then ((selCode s.sel).setWidth 32 <<< 8) ||| ((errCode s.err).setWidth 32 <<< 4)
          ||| (bitWord s.done <<< 1) ||| bitWord (s.eng == .busy)
        else if o = 0x08 then bitWord s.ie
        else if o = 0x0C then s.srcLen
        else if o = 0x10 then s.dstCap
        else if o = 0x14 then s.dstLen
        else if o = 0x18 then s.huffLen
        else if o = 0x1C then s.rleLen
        else if o = 0x20 then 0x48524C07#32
        else 0x00000000#32)
      (withScript rest s)))

/-- R235: a register write, of a value written out or bound by an earlier read (R109), does what the table says, in every
state, busy or not: an action at `CMD`, a write-1-to-clear at `STATUS` (R24), a stored value at the three read/write
registers, nothing elsewhere. -/
def Obligations.RegisterWriteHasItsEffect : Prop :=
  ∀ (s : State) (o : Nat) (x : HostVal) (v : Word) (rest : List HostOp), s.turn = .host →
    s.script = .write ⟨.reg, o, 32⟩ x :: rest → s.hostValue x = .ok v → o % 4 = 0 → o ≤ 0xFC →
    step s = mapNext advance
      (if o = 0x00 then exec (decode v) (withScript rest s)
        else if o = 0x04 then
          .next { s with script := rest, done := if v.getLsbD 1 = true then false else s.done }
        else if o = 0x08 then .next { s with script := rest, ie := v.getLsbD 0 }
        else if o = 0x0C then .next { s with script := rest, srcLen := v }
        else if o = 0x10 then
          .next { s with script := rest, dstCap := BitVec.ofNat 32 (min v.toNat s.params.dstMemSize) }
        else .next { s with script := rest })

/-- R23, R260: the fields of a `STATUS` read, bit by bit, with the code of every error kind and of every codec. -/
def Obligations.StatusFieldsStandInTheirBits : Prop :=
  ∀ s : State,
    (regRead 0x04 s).getLsbD 0 = (s.eng == .busy) ∧ (regRead 0x04 s).getLsbD 1 = s.done
    ∧ (regRead 0x04 s).extractLsb' 2 2 = 0#2
    ∧ (regRead 0x04 s).extractLsb' 4 4 = (match s.err with
      | .none => 0#4
      | .unknownEncodingType => 1#4
      | .corruptCodeTable => 2#4
      | .truncatedInput => 3#4
      | .outputOverflow => 4#4
      | .illegalCommand => 5#4
      | .inputTooLong => 6#4
      | .codeTooLong => 7#4)
    ∧ (regRead 0x04 s).extractLsb' 8 2 = (match s.sel with
      | .none => 0#2
      | .huff => 1#2
      | .rle => 2#2)
    ∧ (regRead 0x04 s).extractLsb' 10 22 = 0#22

/-- R61, R62: an access of another width, alignment or address has no step. -/
def Obligations.IllegalAccessHasNoStep : Prop :=
  (∀ (s : State) (o w : Nat) (v : HostVal) (n : HostName) (rest : List HostOp), s.turn = .host →
    w ≠ 32 ∨ o % 4 ≠ 0 ∨ 0xFC < o →
    (s.script = .write ⟨.reg, o, w⟩ v :: rest → step s = .refused (.illegalAccess ⟨.reg, o, w⟩))
    ∧ (s.script = .read ⟨.reg, o, w⟩ n :: rest → step s = .refused (.illegalAccess ⟨.reg, o, w⟩)))
  ∧ ∀ (s : State) (b : Buf) (a w : Nat) (v : HostVal) (n : HostName) (rest : List HostOp), s.turn = .host →
    w ≠ 8 ∨ s.params.size b ≤ a →
    (s.script = .write ⟨.buf b, a, w⟩ v :: rest → step s = .refused (.illegalAccess ⟨.buf b, a, w⟩))
    ∧ (s.script = .read ⟨.buf b, a, w⟩ n :: rest → step s = .refused (.illegalAccess ⟨.buf b, a, w⟩))

/-! ## The host's buffer accesses -/

/-- R237, R75: a host byte write, of a value written out or bound by an earlier read (R110's `COPY`), stores the byte at
its address and nowhere else, sets its flag, and while busy records `HostHazard`; registers, engine and latches stay.
That a value above 255 stores its low 8 bits is the model's choice (log entry 12). -/
def Obligations.HostByteWriteStoresOneByte : Prop :=
  ∀ (s : State) (b : Buf) (a : Nat) (x : HostVal) (v : Word) (rest : List HostOp), s.turn = .host →
    s.script = .write ⟨.buf b, a, 8⟩ x :: rest → s.hostValue x = .ok v → a < s.params.size b → ∃ t, step s = .next t
      ∧ (t.buf b).get? a = some (v.setWidth 8)
      ∧ (∀ a', a' ≠ a → (t.buf b).get? a' = (s.buf b).get? a')
      ∧ (∀ b' a', b' ≠ b → (t.buf b').get? a' = (s.buf b').get? a')
      ∧ (t.faults.hostHazard = true ↔ s.faults.hostHazard = true ∨ s.eng = .busy)
      ∧ t.faults.uninitRead = s.faults.uninitRead
      ∧ t.status = s.status ∧ t.ie = s.ie ∧ t.srcLen = s.srcLen ∧ t.dstCap = s.dstCap ∧ t.dstLen = s.dstLen
      ∧ t.huffLen = s.huffLen ∧ t.rleLen = s.rleLen ∧ t.eng = s.eng ∧ t.lOp = s.lOp ∧ t.lSrcLen = s.lSrcLen
      ∧ t.lCap = s.lCap ∧ t.names = s.names

/-- R236, R75: a host read of a written byte, other than of `DST` while busy, returns the stored byte and records nothing.
Of `DST` while busy it returns some byte, of which nothing is said, and changes nothing but the script's name and the
counter of free values: it records nothing. -/
def Obligations.HostByteReadReturnsTheStoredByte : Prop :=
  ∀ (s : State) (b : Buf) (a : Nat) (x : Byte) (n : HostName) (rest : List HostOp), s.turn = .host →
    s.script = .read ⟨.buf b, a, 8⟩ n :: rest → a < s.params.size b → (s.buf b).get? a = some x →
    (b = .src ∨ s.eng = .idle → step s = .next (advance (bindValue n (x.setWidth 32) (withScript rest s))))
    ∧ (b = .dst → s.eng = .busy → ∃ (y : Byte) (k : Nat),
      step s = .next (advance (bindValue n (y.setWidth 32) { withScript rest s with draws := k })))

/-- R39, R236: a host read of a byte never written records `UninitRead`; of `DST` while busy it records it by the reading
of R39, R236 and R291 and records nothing by that of R75 and U5, the reading being an argument of the model, because no
ruling decides between the rules (log entry 5). The value is free: nothing is said of it. Nothing but the fault record,
the script's name and the counter of free values changes. -/
def Obligations.HostReadOfUnwrittenByteIsRecorded : Prop :=
  ∀ (s : State) (b : Buf) (a : Nat) (n : HostName) (rest : List HostOp), s.turn = .host →
    s.script = .read ⟨.buf b, a, 8⟩ n :: rest → a < s.params.size b → (s.buf b).get? a = none →
    ∃ (x : Byte) (k : Nat), step s = .next (advance (bindValue n (x.setWidth 32)
      { withScript rest s with
        faults :=
          if b = .dst ∧ s.eng = .busy ∧ s.params.readings.busyReadRecordsUninit = false then s.faults
          else { s.faults with uninitRead := true }
        draws := k }))

/-- R68: two host reads of a byte with no write between them return the same value, but for `DST` while busy (R75). For a
byte never written, of which R39 says only that the value is a free draw, that the two agree is the model's choice (log
entry 4). -/
def Obligations.HostReadsAreIdempotent : Prop :=
  ∀ (s : State) (b : Buf) (a : Nat) (n : HostName) (v : Word), b = .src ∨ s.eng = .idle →
    hostLoadValue b a (bindValue n v (hostLoadRecord b a s)) = hostLoadValue b a s

/-! ## Command issue -/

/-- R227, R94, R226: `NOP` changes nothing, idle or busy, whatever stands in the ignored bits. Where the reading is that
of R28, R29 and R30, a `NOP` while idle leaves the three lengths 0 and changes nothing else: the reading is an argument of
the model, because no ruling decides between the rules (log entry 22). -/
def Obligations.NopChangesNothing : Prop :=
  (∀ s : State, s.eng = .busy ∨ s.params.readings.nopClearsLengths = false → exec .nop s = .next s)
  ∧ (∀ s : State, s.eng = .idle → s.params.readings.nopClearsLengths = true →
    exec .nop s = .next { s with dstLen := 0#32, huffLen := 0#32, rleLen := 0#32 })
  ∧ ∀ (s : State) (v : Word), v &&& 0x0000000F#32 = 0#32 → exec (decode v) s = exec .nop s

/-- R225: a `CMD` write of a started command while idle latches the operands, makes the engine busy and clears the
reports; nothing else of the core changes. (`tainted` is the model's own mark of log entry 8, clear at a start.) -/
def Obligations.CommandStartLatchesTheOperands : Prop :=
  ∀ (i : Instr) (s : State), isStarted i = true → s.turn = .host → s.eng = .idle →
    exec i s = .next { s with
      lOp := i.op, lSrcLen := s.srcLen, lCap := s.dstCap, eng := .busy
      done := false, err := .none, sel := .none
      dstLen := 0#32, huffLen := 0#32, rleLen := 0#32
      tainted := false }

/-- R226: a `CMD` write of any value while busy changes nothing. -/
def Obligations.CommandWriteWhileBusyIsIgnored : Prop :=
  ∀ (v : Word) (s : State), s.turn = .host → s.eng = .busy → exec (decode v) s = .next s

/-- R228: a reserved opcode written while idle records `IllegalCommand` at the write itself; `STATUS` reads 0x52 and no
engine step follows. -/
def Obligations.ReservedOpcodeRecordsIllegalCommand : Prop :=
  ∀ (i : Instr) (s : State), isReserved i = true → s.eng = .idle →
    ∃ t, exec i s = .next t
      ∧ t = { s with
          done := true, err := .illegalCommand, sel := .none
          dstLen := 0#32, huffLen := 0#32, rleLen := 0#32 }
      ∧ t.status = 0x00000052#32 ∧ t.irq = s.ie

/-! ## Command completion -/

/-- R231, R239 to R242: the completion of `ENC_RLE`. -/
def Obligations.EncRleCompletes : Prop :=
  ∀ (s : State) (I : List Byte), completing s → inputIs s I →
    exec .encRle s = .next
      (if s.lCap.toNat < (rleEncode I).length then
        { s with
          err := .outputOverflow, sel := .rle, dstLen := 0#32
          huffLen := 0#32, rleLen := BitVec.ofNat 32 (min (rleEncode I).length (2 ^ 32 - 1))
          eng := .idle, done := true }
      else
        { s with
          err := .none, sel := .rle, dst := s.dst.setPrefix (rleEncode I)
          dstLen := BitVec.ofNat 32 (rleEncode I).length
          huffLen := 0#32, rleLen := BitVec.ofNat 32 (min (rleEncode I).length (2 ^ 32 - 1))
          eng := .idle, done := true })

/-- R230, R239 to R242: the completion of `ENC_HUFF`. -/
def Obligations.EncHuffCompletes : Prop :=
  ∀ (s : State) (I : List Byte), completing s → inputIs s I →
    exec .encHuff s = .next
      (match huffEncode I with
      | .error e =>
        { s with
          err := e, sel := .none, dstLen := 0#32, huffLen := 0#32, rleLen := 0#32, eng := .idle, done := true }
      | .ok h =>
        if s.lCap.toNat < h.length then
          { s with
            err := .outputOverflow, sel := .huff, dstLen := 0#32
            huffLen := BitVec.ofNat 32 (min h.length (2 ^ 32 - 1)), rleLen := 0#32
            eng := .idle, done := true }
        else
          { s with
            err := .none, sel := .huff, dst := s.dst.setPrefix h, dstLen := BitVec.ofNat 32 h.length
            huffLen := BitVec.ofNat 32 (min h.length (2 ^ 32 - 1)), rleLen := 0#32
            eng := .idle, done := true })

/-- R229, R220, R239 to R242: the completion of `ENC_BEST`: the run-length container when strictly shorter, else the
Huffman container. -/
def Obligations.EncBestCompletes : Prop :=
  ∀ (s : State) (I : List Byte), completing s → inputIs s I →
    exec .encBest s = .next
      (match huffEncode I with
      | .error e =>
        { s with
          err := e, sel := .none, dstLen := 0#32, huffLen := 0#32, rleLen := 0#32, eng := .idle, done := true }
      | .ok h =>
        let c := if (rleEncode I).length < h.length then rleEncode I else h
        let sel := if (rleEncode I).length < h.length then Sel.rle else Sel.huff
        if s.lCap.toNat < c.length then
          { s with
            err := .outputOverflow, sel := sel, dstLen := 0#32
            huffLen := BitVec.ofNat 32 (min h.length (2 ^ 32 - 1))
            rleLen := BitVec.ofNat 32 (min (rleEncode I).length (2 ^ 32 - 1))
            eng := .idle, done := true }
        else
          { s with
            err := .none, sel := sel, dst := s.dst.setPrefix c, dstLen := BitVec.ofNat 32 c.length
            huffLen := BitVec.ofNat 32 (min h.length (2 ^ 32 - 1))
            rleLen := BitVec.ofNat 32 (min (rleEncode I).length (2 ^ 32 - 1))
            eng := .idle, done := true })

/-- R232, R223, R240 to R242: the completion of `DECODE`: the marker byte chooses the decoder, the codec is reported
even when its decoder fails. -/
def Obligations.DecodeCompletes : Prop :=
  ∀ (s : State) (d : List Byte), completing s → inputIs s d →
    let res : Except ErrKind (List Byte) :=
      match d with
      | [] => .error .truncatedInput
      | m :: _ =>
        if m = 0x48#8 then huffDecode d s.lCap.toNat
        else if m = 0x52#8 then rleDecode d s.lCap.toNat
        else .error .unknownEncodingType
    let sel : Sel :=
      match d with
      | [] => .none
      | m :: _ => if m = 0x48#8 then .huff else if m = 0x52#8 then .rle else .none
    exec .decode s = .next
      (match res with
      | .error e =>
        { s with
          err := e, sel := sel, dstLen := 0#32, huffLen := 0#32, rleLen := 0#32, eng := .idle, done := true }
      | .ok out =>
        { s with
          err := .none, sel := sel, dst := s.dst.setPrefix out, dstLen := BitVec.ofNat 32 out.length
          huffLen := 0#32, rleLen := 0#32, eng := .idle, done := true })

/-- R233, R267: a latched length beyond the input buffer fails every started command with `InputTooLong`, before any
byte is read: no `SRC` byte need be written, and the fault record stays. -/
def Obligations.TooLongInputFailsBeforeAnyRead : Prop :=
  ∀ (i : Instr) (s : State), isStarted i = true → completing s → s.params.srcMemSize < s.lSrcLen.toNat →
    exec i s = .next { s with
      err := .inputTooLong, sel := .none, dstLen := 0#32, huffLen := 0#32, rleLen := 0#32
      eng := .idle, done := true }

/-- R39, R233: a completion that reads a byte never written records `UninitRead`, and the command still completes: the
engine is idle and `DONE` is set. Its result is free: nothing is said of it. -/
def Obligations.ReadingUnwrittenInputIsRecorded : Prop :=
  ∀ (i : Instr) (s : State), isStarted i = true → s.turn = .engine → s.eng = .busy →
    Memory.wf s.params.srcMemSize s.src → s.lSrcLen.toNat ≤ s.params.srcMemSize →
    (∃ a, a < s.lSrcLen.toNat ∧ s.src.get? a = none) →
    ∃ t, exec i s = .next t ∧ t.faults = { s.faults with uninitRead := true } ∧ t.eng = .idle ∧ t.done = true

/-- R69, R240, R241 (the frame of every completion, whether its result is defined or not): the engine never writes
`SRC`; `DST` bytes at and above the output length keep their values; on an error no `DST` byte is written and `DST_LEN`
is 0; the host's registers, the latches and the buffer sizes stay. That a result the spec does not define keeps the
limits of R238 and R239 too (no output on an error, none beyond the capacity) is the model's choice (log entry 6). -/
def Obligations.CompletionFrame : Prop :=
  ∀ (i : Instr) (s t : State), isStarted i = true → s.turn = .engine → s.eng = .busy → exec i s = .next t →
    (∀ a, t.src.get? a = s.src.get? a)
    ∧ (∀ a, t.dstLen.toNat ≤ a → t.dst.get? a = s.dst.get? a)
    ∧ (t.err ≠ .none → t.dstLen = 0#32 ∧ ∀ a, t.dst.get? a = s.dst.get? a)
    ∧ t.dstLen.toNat ≤ s.lCap.toNat
    ∧ t.ie = s.ie ∧ t.srcLen = s.srcLen ∧ t.dstCap = s.dstCap ∧ t.lOp = s.lOp ∧ t.lSrcLen = s.lSrcLen
    ∧ t.lCap = s.lCap ∧ t.params = s.params ∧ t.script = s.script ∧ t.names = s.names
    ∧ t.eng = .idle ∧ t.done = true ∧ (s.faults.hostHazard = t.faults.hostHazard)

/-- R29, R30: what `HUFF_LEN` and `RLE_LEN` hold after a completion: the saturated candidate length after the commands
that computed the candidate, on success or `OutputOverflow`, else 0. -/
def Obligations.CandidateLengthsAreReported : Prop :=
  ∀ (i : Instr) (s t : State) (I : List Byte), isStarted i = true → completing s → inputIs s I →
    exec i s = .next t →
    (∀ h, huffEncode I = .ok h →
      t.huffLen = if (i = .encBest ∨ i = .encHuff) ∧ (t.err = .none ∨ t.err = .outputOverflow)
        then BitVec.ofNat 32 (min h.length (2 ^ 32 - 1)) else 0#32)
    ∧ t.rleLen = if (i = .encBest ∨ i = .encRle) ∧ (t.err = .none ∨ t.err = .outputOverflow)
        then BitVec.ofNat 32 (min (rleEncode I).length (2 ^ 32 - 1)) else 0#32

/-- R235, D28: writes to `IRQ_EN`, `SRC_LEN` and `DST_CAP` while busy do not affect the command in flight: writing
before the completion and writing after it give the same state. -/
def Obligations.OperandWritesWhileBusyDoNotReachTheCommand : Prop :=
  ∀ (i : Instr) (o : Nat) (v : Word) (s : State), isStarted i = true → s.turn = .engine → s.eng = .busy →
    o = 0x08 ∨ o = 0x0C ∨ o = 0x10 →
    exec i (regWrite o v s) = mapNext (regWrite o v) (exec i s)

/-- R238: a command's result is a function of its opcode, its latched length, its latched capacity and the bytes
`SRC[0..n)` (and of whether the length exceeds the buffer). -/
def Obligations.ResultDependsOnlyOnTheOperands : Prop :=
  ∀ (i : Instr) (s s' t t' : State), isStarted i = true → completing s → completing s' →
    Memory.wf s.params.srcMemSize s.src → Memory.wf s'.params.srcMemSize s'.src →
    s.params.srcMemSize = s'.params.srcMemSize → s.lSrcLen = s'.lSrcLen → s.lCap = s'.lCap →
    (s.lSrcLen.toNat ≤ s.params.srcMemSize → ∀ a, a < s.lSrcLen.toNat →
      s.src.get? a = s'.src.get? a ∧ (s.src.get? a).isSome = true) →
    exec i s = .next t → exec i s' = .next t' →
    t.err = t'.err ∧ t.sel = t'.sel ∧ t.dstLen = t'.dstLen ∧ t.huffLen = t'.huffLen ∧ t.rleLen = t'.rleLen
    ∧ ∀ a, a < t.dstLen.toNat → t.dst.get? a = t'.dst.get? a

/-- R38, R39, R75: a completion that leaves the fault record empty has a defined result: `InputTooLong`, or the
command's own function of the bytes in `SRC`. -/
def Obligations.NoFaultMeansDefinedResult : Prop :=
  ∀ (i : Instr) (s t : State), isStarted i = true → s.Inv → s.turn = .engine → s.eng = .busy →
    exec i s = .next t → t.faults.empty = true →
    (s.params.srcMemSize < s.lSrcLen.toNat ∧ t.err = .inputTooLong ∧ t.dstLen = 0#32)
    ∨ ∃ I, inputIs s I ∧ t.err = (resultOf i I s.lCap.toNat).err ∧ t.sel = (resultOf i I s.lCap.toNat).sel
      ∧ t.dstLen.toNat = (resultOf i I s.lCap.toNat).out.length
      ∧ ∀ a, a < t.dstLen.toNat → t.dst.get? a = (resultOf i I s.lCap.toNat).out[a]?

/-! ## Errors -/

/-- R261, R260: `UnknownEncodingType` is raised only by the dispatcher, on a non-empty container whose byte 0 is no
marker, with `SEL` 0. -/
def Obligations.UnknownEncodingTypeExactlyForNoMarker : Prop :=
  (∀ (d : List Byte) (cap : Nat),
    ((decodeResult d cap).err = .unknownEncodingType ↔ ∃ m rest, d = m :: rest ∧ m ≠ 0x48#8 ∧ m ≠ 0x52#8)
    ∧ ((decodeResult d cap).err = .unknownEncodingType →
        (decodeResult d cap).sel = .none ∧ (decodeResult d cap).out = []))
  ∧ ∀ (I : List Byte) (cap : Nat), (encBestResult I cap).err ≠ .unknownEncodingType
    ∧ (encHuffResult I cap).err ≠ .unknownEncodingType ∧ (encRleResult I cap).err ≠ .unknownEncodingType

/-- R262, R193: `CorruptCodeTable` exactly for a Huffman container whose length field and table bytes are all present
and whose table does not parse; it hides every error of the bit data. `SEL` is 1. -/
def Obligations.CorruptCodeTableExactlyForBadTables : Prop :=
  ∀ (d : List Byte) (cap : Nat),
    ((decodeResult d cap).err = .corruptCodeTable ↔ ∃ hi lo rest, d = 0x48#8 :: hi :: lo :: rest
      ∧ 256 * hi.toNat + lo.toNat ≤ rest.length
      ∧ ∀ C, parseTable (rest.take (256 * hi.toNat + lo.toNat)) ≠ .ok C)
    ∧ ((decodeResult d cap).err = .corruptCodeTable → (decodeResult d cap).sel = .huff)

/-- R263: `TruncatedInput` has exactly four causes: an empty container; a Huffman container shorter than 3 bytes or than
`3 + T`; bit data that is some codes of bytes, no more than the capacity, and then bits that no code begins; a
run-length container that is some units, no more than the capacity, and then 1 or 2 bytes. `SEL` is 0, 1, 1, 2. No
encoder reports it. -/
def Obligations.TruncatedInputExactlyForItsFourCauses : Prop :=
  (∀ (d : List Byte) (cap : Nat),
    ((decodeResult d cap).err = .truncatedInput ↔
      d = []
      ∨ (∃ rest, d = 0x48#8 :: rest ∧ rest.length < 2)
      ∨ (∃ hi lo rest, d = 0x48#8 :: hi :: lo :: rest ∧ rest.length < 256 * hi.toNat + lo.toNat)
      ∨ (∃ hi lo rest C I tail, d = 0x48#8 :: hi :: lo :: rest ∧ 256 * hi.toNat + lo.toNat ≤ rest.length
        ∧ parseTable (rest.take (256 * hi.toNat + lo.toNat)) = .ok C
        ∧ bitsOf (rest.drop (256 * hi.toNat + lo.toNat)) = codeBits C I ++ tail
        ∧ (∀ b ∈ I, (codeOf C (.byte b)).isSome = true) ∧ I.length ≤ cap ∧ ∀ e ∈ C, ¬ e.2 <+: tail)
      ∨ ∃ (units : List (Byte × Byte × Byte)) (cut : List Byte),
        d = 0x52#8 :: (units.flatMap (fun u => [u.1, u.2.1, u.2.2]) ++ cut)
        ∧ (cut.length = 1 ∨ cut.length = 2)
        ∧ (units.map (fun u => 256 * u.2.1.toNat + u.2.2.toNat)).sum ≤ cap)
    ∧ ((decodeResult d cap).err = .truncatedInput →
      (decodeResult d cap).sel =
        (if d.head? = some 0x48#8 then Sel.huff else if d.head? = some 0x52#8 then Sel.rle else Sel.none)))
  ∧ ∀ (I : List Byte) (cap : Nat), (encBestResult I cap).err ≠ .truncatedInput
    ∧ (encHuffResult I cap).err ≠ .truncatedInput ∧ (encRleResult I cap).err ≠ .truncatedInput

/-- R181 to R187, R262: the table reconstructor accepts exactly the byte strings that are the entries of a code table,
in any order: legal symbols and lengths, zero padding, no symbol twice, an `EOS` entry, no code a prefix of another.
Every other byte string is `CorruptCodeTable`. -/
def Obligations.ParserAcceptsExactlyTheWellFormedTables : Prop :=
  (∀ (tb : List Byte) (C : CodeTable), parseTable tb = .ok C ↔
    tb = C.flatMap (fun e => serEntry e.1 e.2)
    ∧ (∀ e ∈ C, 1 ≤ e.2.length ∧ e.2.length ≤ 255)
    ∧ (C.map Prod.fst).Nodup ∧ Symbol.eos ∈ C.map Prod.fst
    ∧ ∀ e ∈ C, ∀ f ∈ C, e.1 ≠ f.1 → ¬ e.2 <+: f.2)
  ∧ ∀ (tb : List Byte) (e : ErrKind), parseTable tb = .error e → e = .corruptCodeTable

/-- R192, R207, R265: the capacity decides between the output and `OutputOverflow`, and nothing else: a container that
decodes to `out` under one capacity decodes to `out` under every capacity of at least its length, and overflows under
every smaller one. -/
def Obligations.DecodeCapacityDecidesOverflow : Prop :=
  ∀ (d : List Byte) (cap : Nat) (out : List Byte), (dispatch d cap).1 = .ok out →
    out.length ≤ cap
    ∧ ∀ cap', (dispatch d cap').1 = if out.length ≤ cap' then .ok out else .error .outputOverflow

/-! ## Bit writer and bit reader -/

/-- R133: `PACK`: `ceil8` bytes, bit `7 - i` of byte `k` is bit `8k + i` of the string, or 0 past its end. -/
def Obligations.PackPlacesEveryBit : Prop :=
  ∀ s : Bits, (pack s).length = (s.length + 7) / 8
    ∧ ∀ k i, k < (s.length + 7) / 8 → i < 8 →
      ((pack s).getD k 0#8).getLsbD (7 - i) = s.getD (8 * k + i) false

/-- R135: `BITS` inverts `PACK` up to the padding, which is zeros. -/
def Obligations.BitsInvertPack : Prop :=
  ∀ s : Bits, (bitsOf (pack s)).take s.length = s
    ∧ (bitsOf (pack s)).drop s.length = List.replicate (8 * ((s.length + 7) / 8) - s.length) false

/-- R134 to R136: the bit reader yields the bits of `BITS` one by one, then `Exhausted` every time without moving. -/
def Obligations.ReaderYieldsTheBitsInOrder : Prop :=
  (∀ D : List Byte, (brNew D).remaining = bitsOf D)
  ∧ ∀ r : BitReader, r.pos ≤ 8 * r.bytes.length →
    (r.pos = 8 * r.bytes.length → brBit r = (none, r))
    ∧ (r.pos < 8 * r.bytes.length → ∃ x, brBit r = (some x, { r with pos := r.pos + 1 })
      ∧ r.remaining = x :: ({ r with pos := r.pos + 1 } : BitReader).remaining)

/-! ## Huffman encoder -/

/-- R150, R151: the frequency table counts every byte value that occurs and `EOS` once; each symbol has one entry; the
counts sum to the input length and the one `EOS`. -/
def Obligations.FrequencyTableCountsTheInput : Prop :=
  ∀ I : List Byte,
    (∀ b c, (Symbol.byte b, c) ∈ freq I ↔ c = I.count b ∧ 1 ≤ c)
    ∧ (∀ c, (Symbol.eos, c) ∈ freq I ↔ c = 1)
    ∧ (freq I).Pairwise (fun e f => e.1.num < f.1.num)
    ∧ ((freq I).map Prod.snd).sum = I.length + 1
    ∧ 1 ≤ (freq I).length ∧ (freq I).length ≤ 257

/-- R153, R154: the node removed from the queue has the least key, and the other nodes stay, in their order. An iteration
removes the two nodes of least key, the lesser first, and puts at the end of the others, in their order, a node with the
first as its left child, the second as its right child, the sum of their counts and the next sequence number. -/
def Obligations.ExtractedNodeHasTheLeastKey : Prop :=
  (∀ (t : Tree) (q : List Tree), ((extractMin t q).1 :: (extractMin t q).2).Perm (t :: q)
    ∧ (extractMin t q).2.Sublist (t :: q)
    ∧ ∀ u ∈ t :: q, (extractMin t q).1.count < u.count
      ∨ ((extractMin t q).1.count = u.count ∧ (extractMin t q).1.seq ≤ u.seq))
  ∧ ∀ (t u : Tree) (q : List Tree) (next : Nat), ∃ (a b : Tree) (others : List Tree),
    combineLeast t u q next = others ++ [.node a b (a.count + b.count) next]
    ∧ (a :: b :: others).Perm (t :: u :: q) ∧ others.Sublist (t :: u :: q)
    ∧ (a.count < b.count ∨ (a.count = b.count ∧ a.seq ≤ b.seq))
    ∧ ∀ v ∈ others, b.count < v.count ∨ (b.count = v.count ∧ b.seq ≤ v.seq)

/-- R155: the tree of an input: every symbol of the frequency table at exactly one leaf, one internal node fewer than
leaves, the sequence numbers 0 to 2n - 2 once each, and the root's count the input length and one. -/
def Obligations.TreeSpansTheAlphabet : Prop :=
  ∀ I : List Byte,
    (buildTree (freq I)).symbols.Perm ((freq I).map Prod.fst)
    ∧ (buildTree (freq I)).nodes = (freq I).length - 1
    ∧ (buildTree (freq I)).seqs.Perm (List.range (2 * (freq I).length - 1))
    ∧ (buildTree (freq I)).count = I.length + 1

/-- R161: the code table of an input has exactly the symbols of its frequency table, `EOS` among them, one code each,
every code non-empty and none a prefix of another. -/
def Obligations.CodeTablesArePrefixFree : Prop :=
  ∀ I : List Byte,
    ((codeTable I).map Prod.fst).Perm ((freq I).map Prod.fst) ∧ ((codeTable I).map Prod.fst).Nodup
    ∧ Symbol.eos ∈ (codeTable I).map Prod.fst
    ∧ (∀ e ∈ codeTable I, e.2 ≠ [])
    ∧ ∀ e ∈ codeTable I, ∀ f ∈ codeTable I, e.1 ≠ f.1 → ¬ e.2 <+: f.2

/-- R160: for an input within the parameter bound every code has between 1 and 45 bits, so `CodeTooLong` is never
raised. -/
def Obligations.CodeLengthsAreBounded : Prop :=
  ∀ I : List Byte, I.length ≤ 2 ^ 32 - 1 →
    (∀ e ∈ codeTable I, 1 ≤ e.2.length ∧ e.2.length ≤ 45) ∧ ∃ h, huffEncode I = .ok h

/-- R159, R165: the code tables of the inputs with at most one byte value. -/
def Obligations.CodesOfOneByteValueInputs : Prop :=
  codeTable [] = [(.eos, [false])]
  ∧ (∀ I : List Byte, (codeTable I).length = 1 ↔ I = [])
  ∧ ∀ (b : Byte) (k : Nat), freq (List.replicate (k + 1) b) = [(.byte b, k + 1), (.eos, 1)]
    ∧ codeOf (codeTable (List.replicate (k + 1) b)) (.byte b) = some [decide (2 ≤ k + 1)]
    ∧ codeOf (codeTable (List.replicate (k + 1) b)) .eos = some [decide (k + 1 < 2)]
    ∧ (codeTable (List.replicate (k + 1) b)).length = 2

/-- R97 to R106: the bytes of a serialized table, of a Huffman container and of a run-length container, every two-byte
field with its more significant byte first. R107, R98: their lengths; a serialized table never has more than 8995 bytes,
so its length fits the 16-bit field. -/
def Obligations.ContainerLengths : Prop :=
  (∀ (I tb : List Byte), serTable (codeTable I) = .ok tb → ∃ E : CodeTable, E.Perm (codeTable I)
    ∧ E.Pairwise (fun e f => e.1.num < f.1.num)
    ∧ tb = E.flatMap (fun e => [BitVec.ofNat 8 (e.1.num / 256), BitVec.ofNat 8 (e.1.num % 256),
        BitVec.ofNat 8 e.2.length] ++ pack e.2))
  ∧ (Symbol.eos.num = 256 ∧ ∀ b : Byte, (Symbol.byte b).num = b.toNat)
  ∧ (∀ (I h : List Byte), huffEncode I = .ok h → ∃ tb, serTable (codeTable I) = .ok tb
    ∧ h = [0x48#8, BitVec.ofNat 8 (tb.length / 256), BitVec.ofNat 8 (tb.length % 256)] ++ tb
        ++ pack (codeBits (codeTable I) I ++ (codeOf (codeTable I) .eos).getD []))
  ∧ (∀ I : List Byte, rleEncode I = 0x52#8 :: (runs I).flatMap (fun r => (split r.1 r.2).flatMap
      (fun u => [u.1, BitVec.ofNat 8 (u.2 / 256), BitVec.ofNat 8 (u.2 % 256)])))
  ∧ (∀ (I tb : List Byte), serTable (codeTable I) = .ok tb →
    tb.length = tableLength (codeTable I) ∧ tb.length ≤ 8995)
  ∧ (∀ (I h : List Byte), huffEncode I = .ok h →
    h.length = 3 + tableLength (codeTable I) + (codeBitCount (codeTable I) I + 7) / 8)
  ∧ ∀ I : List Byte, (rleEncode I).length = 1 + 3 * unitCount I

/-! ## Run-length codec -/

/-- R200, R201: the runs spell the input, are not empty, and adjacent runs have different symbols. A run is split into
full-capacity units first, then a remainder between 1 and 65535. -/
def Obligations.RunsAreMaximalAndSplitFull : Prop :=
  (∀ I : List Byte,
    (runs I).flatMap (fun r => List.replicate r.2 r.1) = I
    ∧ (∀ r ∈ runs I, 1 ≤ r.2)
    ∧ (runs I).IsChain (fun r r' => r.1 ≠ r'.1))
  ∧ ∀ (x : Byte) (r : Nat), 1 ≤ r →
    split x r = List.replicate ((r - 1) / 65535) (x, 65535) ++ [(x, r - 65535 * ((r - 1) / 65535))]
    ∧ 1 ≤ r - 65535 * ((r - 1) / 65535) ∧ r - 65535 * ((r - 1) / 65535) ≤ 65535

/-- R203, R204 (source property S6): decoding a run-length container gives its input back, whatever its runs, under
every capacity of at least the input's length. -/
def Obligations.RunLengthRoundTrip : Prop :=
  ∀ (I : List Byte) (cap : Nat), I.length ≤ cap → rleDecode (rleEncode I) cap = .ok I

/-- R164, R180 to R192: decoding a Huffman container gives its input back under every capacity of at least the input's
length. -/
def Obligations.HuffmanRoundTrip : Prop :=
  ∀ (I h : List Byte) (cap : Nat), huffEncode I = .ok h → I.length ≤ cap → huffDecode h cap = .ok I

/-- R190: bits after the code of `EOS` are not read. With a code table in which no symbol occurs twice, every code is
non-empty and none begins another symbol's, the codes of some bytes, the code of `EOS` and any more bits at all decode to
those bytes, when there is room for them. Bytes added to a container that decodes do not change its decoding. -/
def Obligations.BitsAfterEndOfStreamAreIgnored : Prop :=
  (∀ (C : CodeTable) (I : List Byte) (c more : Bits) (room : Nat),
    (C.map Prod.fst).Nodup → (∀ e ∈ C, e.2 ≠ []) → (∀ e ∈ C, ∀ f ∈ C, e.1 ≠ f.1 → ¬ e.2 <+: f.2) →
    (∀ b ∈ I, (codeOf C (.byte b)).isSome = true) → codeOf C .eos = some c → I.length ≤ room →
    mapBits C (codeBits C I ++ c ++ more) [] room = .ok I)
  ∧ ∀ (d extra : List Byte) (cap : Nat) (out : List Byte),
    huffDecode d cap = .ok out → huffDecode (d ++ extra) cap = .ok out

/-- R220, R221, R222 (source property S2): a successful `ENC_BEST` emits one candidate unchanged; its marker is the
codec reported, its length is at most the other's, and a tie goes to Huffman. -/
def Obligations.SelectionIsCorrect : Prop :=
  ∀ (I h : List Byte) (cap : Nat), huffEncode I = .ok h → (encBestResult I cap).err = .none →
    ((encBestResult I cap).sel = .rle ∧ (encBestResult I cap).out = rleEncode I
        ∧ (encBestResult I cap).out.head? = some 0x52#8 ∧ (rleEncode I).length < h.length)
    ∨ ((encBestResult I cap).sel = .huff ∧ (encBestResult I cap).out = h
        ∧ (encBestResult I cap).out.head? = some 0x48#8 ∧ h.length ≤ (rleEncode I).length)

/-- R15 (source property S1), at the level of commands: `ENC_BEST` completes without error when its capacity holds the
smaller container, and `DECODE` of the bytes it left in `DST`, copied to `SRC`, gives back exactly the input when its
capacity holds the input. -/
def Obligations.RoundTripLaw : Prop :=
  ∀ (s : State) (I : List Byte), s.params.wf = true → completing s → inputIs s I →
    (∀ h, huffEncode I = .ok h → min h.length (rleEncode I).length ≤ s.lCap.toNat) →
    ∃ t, exec .encBest s = .next t ∧ t.err = .none
      ∧ ∀ (s' : State) (d : List Byte), completing s' → inputIs s' d → d.length = t.dstLen.toNat →
        (∀ a, a < t.dstLen.toNat → d[a]? = t.dst.get? a) → I.length ≤ s'.lCap.toNat →
        ∃ t', exec .decode s' = .next t' ∧ t'.err = .none ∧ t'.dstLen.toNat = I.length
          ∧ ∀ a, a < I.length → t'.dst.get? a = I[a]?

/-! ## The whole machine -/

/-- Every step keeps the invariant: the buffers' canonical form (R39, R60), the legal `DST_CAP` (R27), `BUSY` and `DONE`
never both 1 (R23), a started opcode in flight (R225), `DST_LEN` counting written bytes only (R28), 0 after an error
(R241); and no step changes the buffer sizes (R8). -/
def Obligations.StepKeepsTheInvariant : Prop :=
  ∀ s t : State, s.Inv → step s = .next t → t.Inv ∧ t.params = s.params

/-- R274: from a state that meets the invariant no step faults, and a step is refused only for an illegal host access
or an unbound script name. -/
def Obligations.StepNeverFaults : Prop :=
  ∀ s : State, s.Inv →
    (∃ t, step s = .next t) ∨ (∃ a, step s = .refused (.illegalAccess a) ∧ accessLegal s.params a = false)
    ∨ ∃ n, step s = .refused (.unboundName n) ∧ lookupName s.names n = none

/-- R38, R293: a fault once recorded stays: no step removes one, not even a reset. -/
def Obligations.FaultsAreNeverRemoved : Prop :=
  ∀ (s t : State) (k : FaultKind), step s = .next t → s.faults.has k = true → t.faults.has k = true

/-- R33, R68, R69: a `SRC` byte changes only at a reset or by a host write to that byte; in particular the engine
never writes `SRC`. -/
def Obligations.SrcChangesOnlyByHostOrReset : Prop :=
  ∀ (s t : State) (a : Nat), step s = .next t → t.src.get? a ≠ s.src.get? a →
    s.turn = .reset
    ∨ (s.turn = .host ∧ ∃ v rest, s.script = .write ⟨.buf .src, a, 8⟩ v :: rest)

/-- R77, R226, R297: a move of the host never cancels or changes the command in flight: the engine stays busy with the
same latches. -/
def Obligations.HostCannotCancelACommand : Prop :=
  ∀ s t : State, s.eng = .busy → s.turn = .host → step s = .next t →
    t.eng = .busy ∧ t.lOp = s.lOp ∧ t.lSrcLen = s.lSrcLen ∧ t.lCap = s.lCap

/-- R271: `DONE` is set only by a completion or by the refusal of a reserved opcode. -/
def Obligations.DoneRisesOnlyAtCompletionOrRefusal : Prop :=
  ∀ s t : State, step s = .next t → s.done = false → t.done = true →
    (s.turn = .engine ∧ s.eng = .busy ∧ t.eng = .idle)
    ∨ (s.turn = .host ∧ s.eng = .idle ∧ t.err = .illegalCommand
      ∧ ∃ a v w rest, s.script = .write a v :: rest ∧ a.space = .reg ∧ a.addr = 0x00
        ∧ s.hostValue v = .ok w ∧ isReserved (decode w) = true)

/-- R271, R272: `irq` is `DONE AND IE`, and it falls only by writing 1 to `STATUS.DONE`, by clearing `IE`, by the start
of a command, or at a reset. -/
def Obligations.InterruptFallsOnlyInThreeWays : Prop :=
  (∀ s : State, s.irq = true ↔ s.done = true ∧ s.ie = true)
  ∧ ∀ s t : State, step s = .next t → s.irq = true → t.irq = false →
    s.turn = .reset
    ∨ (s.turn = .host ∧ ∃ a v w rest, s.script = .write a v :: rest ∧ a.space = .reg ∧ s.hostValue v = .ok w
      ∧ ((a.addr = 0x04 ∧ w.getLsbD 1 = true) ∨ (a.addr = 0x08 ∧ w.getLsbD 0 = false)
        ∨ (a.addr = 0x00 ∧ s.eng = .idle ∧ isStarted (decode w) = true)))

/-- R298: the engine is fair: a command in flight completes, or is abandoned by a reset, within as many steps as the
schedule is long and two more, unless the host's own access is refused. That a schedule which is used up lets the engine
move first is the model's choice (log entry 1). -/
def Obligations.CommandInFlightCompletes : Prop :=
  ∀ s : State, s.Inv → s.eng = .busy → ∃ k, k ≤ s.sched.length + 2
    ∧ ((∃ t : State, Sys2Proof.core.run k s = .next t ∧ t.eng = .idle)
      ∨ ∃ r, Sys2Proof.core.run k s = .refused r)

/-! ## The host script -/

/-- R109, R110: every bus transaction of a well-formed script line is legal. -/
def Obligations.ScriptLinesAreLegalAccesses : Prop :=
  ∀ (p : Params) (line : ScriptLine), line.wf p = true → ∀ op ∈ expandLine line,
    match op with
    | .write a _ => accessLegal p a = true
    | .read a _ => accessLegal p a = true
    | .poll => True
    | .waitIrq => True

/-- R110: `POLL` reads `STATUS` into `t` and is repeated while the value read has bit 0 set; it changes nothing else, and
every other name keeps its value. -/
def Obligations.PollRepeatsWhileBusy : Prop :=
  ∀ (s : State) (rest : List HostOp), s.turn = .host → s.script = .poll :: rest →
    step s = .next (advance { s with
      script := if s.eng = .busy then .poll :: rest else rest
      names := bindName s.names .scratch s.status })
    ∧ lookupName (bindName s.names .scratch s.status) .scratch = some s.status
    ∧ ∀ n, n ≠ .scratch → lookupName (bindName s.names .scratch s.status) n = lookupName s.names n
end

