-- ==== Sys2Proof/Laws/Decode.lean ====
section
/-!
SUPPORT. The small laws of the command word: its `OP` field under the mask of R92, and the opcode map both ways.
-/

namespace Sys2Proof.Machine

/-- The bits that the mask of the opcode table keeps are the `OP` field (R92). -/
theorem and_mask_eq_opField (v : Word) : v &&& 0x0000000F#32 = (opField v).setWidth 32 := by
  unfold opField
  ext i hi
  simp only [BitVec.getElem_and, BitVec.getElem_setWidth, BitVec.getLsbD_extractLsb']
  interval_cases i <;> simp

/-- Two values with the same bits under the mask have the same `OP` field. -/
theorem opField_congr (v w : Word) (h : v &&& 0x0000000F#32 = w &&& 0x0000000F#32) : opField v = opField w := by
  rw [and_mask_eq_opField, and_mask_eq_opField] at h
  simpa using congrArg (BitVec.setWidth 4) h

theorem op_decodeOp (o : BitVec 4) : (decodeOp o).op = o := by revert o; decide

theorem decodeOp_op (i : Instr) : decodeOp i.op = i := by cases i <;> rfl

end Sys2Proof.Machine
end

