-- ==== Sys2Proof/Laws/Memory.lean ====
section
/-!
SUPPORT. The laws of the buffers: a read after a write, a write leaves every other byte alone, and every operation
keeps the canonical form.
-/

namespace Sys2Proof.Machine

/-! ## Reading after writing -/

@[simp] theorem get?_nil (a : Nat) : Memory.get? [] a = none := rfl

/-- Storing a byte changes the byte at its own address and no other. -/
theorem get?_set (m : Memory) (a a' : Nat) (v : Byte) :
    (m.set a v).get? a' = if a' = a then some v else m.get? a' := by
  induction m with
  | nil => simp [Memory.set, Memory.get?]
  | cons c m ih =>
    obtain ⟨b, w⟩ := c
    simp only [Memory.set]
    split
    · simp [Memory.get?]
    · split
      · subst_vars; by_cases h : a' = b <;> simp [Memory.get?, h]
      · by_cases h : a' = b
        · subst h; simp [Memory.get?]; omega
        · simp [Memory.get?, h, ih]

@[simp] theorem get?_set_self (m : Memory) (a : Nat) (v : Byte) : (m.set a v).get? a = some v := by simp [get?_set]

theorem get?_set_of_ne (m : Memory) {a a' : Nat} (v : Byte) (h : a' ≠ a) : (m.set a v).get? a' = m.get? a' := by
  simp [get?_set, h]

theorem get?_append (m m' : Memory) (a : Nat) : Memory.get? (m ++ m') a = (m.get? a).or (m'.get? a) := by
  induction m with
  | nil => simp [Memory.get?]
  | cons c m ih =>
    obtain ⟨b, w⟩ := c
    by_cases h : a = b <;> simp [Memory.get?, h, ih]

theorem get?_cellsFrom (bytes : List Byte) (base a : Nat) :
    (cellsFrom base bytes).get? a = if base ≤ a then bytes[a - base]? else none := by
  induction bytes generalizing base with
  | nil => simp [cellsFrom]
  | cons v bytes ih =>
    by_cases h : a = base
    · simp [cellsFrom, Memory.get?, h]
    · rw [cellsFrom, Memory.get?, if_neg h, ih]
      by_cases hb : base ≤ a
      · rw [if_pos (by omega), if_pos hb, show a - base = (a - (base + 1)) + 1 by omega]; rfl
      · rw [if_neg (by omega), if_neg hb]

theorem get?_filter_ge (m : Memory) (n a : Nat) (h : n ≤ a) :
    Memory.get? (m.filter (fun c => decide (n ≤ c.1))) a = m.get? a := by
  induction m with
  | nil => rfl
  | cons c m ih =>
    obtain ⟨b, w⟩ := c
    by_cases hb : n ≤ b
    · by_cases hab : a = b <;> simp [hb, Memory.get?, hab, ih]
    · have : a ≠ b := by omega
      simp [hb, Memory.get?, this, ih]

/-- Storing a byte string at the bottom of a buffer: its bytes below its length, the old bytes above (R240). -/
theorem get?_setPrefix (m : Memory) (bytes : List Byte) (a : Nat) :
    (m.setPrefix bytes).get? a = if a < bytes.length then bytes[a]? else m.get? a := by
  rw [Memory.setPrefix, get?_append, get?_cellsFrom]
  by_cases h : a < bytes.length
  · simp [h]
  · rw [if_neg h, get?_filter_ge m _ a (by omega)]; simp [List.getElem?_eq_none (by omega : bytes.length ≤ a)]

/-- Storing no byte changes nothing (R241: an error has no output). -/
@[simp] theorem setPrefix_nil (m : Memory) : m.setPrefix [] = m := by
  simp [Memory.setPrefix, cellsFrom]

/-! ## The canonical form -/

theorem mem_set (m : Memory) (a : Nat) (v : Byte) (c : Host.Cell) (h : c ∈ m.set a v) : c = (a, v) ∨ c ∈ m := by
  induction m with
  | nil => simp only [Memory.set, List.mem_singleton] at h; exact .inl h
  | cons d m ih =>
    obtain ⟨b, w⟩ := d
    simp only [Memory.set] at h
    split at h
    · simpa using h
    · split at h
      · rcases List.mem_cons.1 h with h | h
        · exact .inl h
        · exact .inr (List.mem_cons_of_mem _ h)
      · rcases List.mem_cons.1 h with h | h
        · exact .inr (by simp [h])
        · exact (ih h).imp_right (List.mem_cons_of_mem _)

theorem set_pairwise (m : Memory) (a : Nat) (v : Byte) (h : m.Pairwise (fun x y => x.1 < y.1)) :
    (m.set a v).Pairwise (fun x y => x.1 < y.1) := by
  induction m with
  | nil => simp [Memory.set]
  | cons d m ih =>
    obtain ⟨b, w⟩ := d
    obtain ⟨hb, hm⟩ := List.pairwise_cons.1 h
    simp only [Memory.set]
    split
    · refine List.pairwise_cons.2 ⟨fun c hc => ?_, h⟩
      rcases List.mem_cons.1 hc with rfl | hc
      · assumption
      · have := hb c hc; simp only at this ⊢; omega
    · split
      · subst_vars; exact List.pairwise_cons.2 ⟨hb, hm⟩
      · refine List.pairwise_cons.2 ⟨fun c hc => ?_, ih hm⟩
        rcases mem_set m a v c hc with rfl | hc
        · simp only; omega
        · exact hb c hc

/-- A host byte write inside the buffer keeps the canonical form. -/
theorem wf_set (size : Nat) (m : Memory) (a : Nat) (v : Byte) (h : m.wf size) (ha : a < size) :
    (m.set a v).wf size :=
  ⟨set_pairwise m a v h.1, fun c hc => by
    rcases mem_set m a v c hc with rfl | hc
    · exact ha
    · exact h.2 c hc⟩

theorem mem_cellsFrom (bytes : List Byte) (base : Nat) (c : Host.Cell) (h : c ∈ cellsFrom base bytes) :
    base ≤ c.1 ∧ c.1 < base + bytes.length := by
  induction bytes generalizing base with
  | nil => simp [cellsFrom] at h
  | cons v bytes ih =>
    rcases List.mem_cons.1 h with rfl | h
    · simp
    · have := ih _ h; simp only [List.length_cons]; omega

theorem cellsFrom_pairwise (bytes : List Byte) (base : Nat) :
    (cellsFrom base bytes).Pairwise (fun x y => x.1 < y.1) := by
  induction bytes generalizing base with
  | nil => simp [cellsFrom]
  | cons v bytes ih =>
    exact List.pairwise_cons.2 ⟨fun c hc => (mem_cellsFrom bytes _ c hc).1, ih _⟩

/-- The engine's commit of an output that fits the buffer keeps the canonical form. -/
theorem wf_setPrefix (size : Nat) (m : Memory) (bytes : List Byte) (h : m.wf size) (hb : bytes.length ≤ size) :
    (m.setPrefix bytes).wf size := by
  refine ⟨List.pairwise_append.2 ⟨cellsFrom_pairwise bytes 0, h.1.filter _, fun c hc d hd => ?_⟩, fun c hc => ?_⟩
  · have h1 := (mem_cellsFrom bytes 0 c hc).2
    have h2 := (List.mem_filter.1 hd).2
    simp only [decide_eq_true_eq] at h2
    omega
  · rcases List.mem_append.1 hc with hc | hc
    · have := (mem_cellsFrom bytes 0 c hc).2; omega
    · exact h.2 c (List.mem_filter.1 hc).1

theorem wf_nil (size : Nat) : Memory.wf size [] := by simp [Memory.wf]

/-! ## Reading a prefix -/

theorem get?_of_lt_all (m : Memory) (a : Nat) (h : ∀ c ∈ m, a < c.1) : m.get? a = none := by
  induction m with
  | nil => rfl
  | cons d m ih =>
    have h1 := h d (by simp)
    rw [Memory.get?, if_neg (by omega)]
    exact ih fun c hc => h c (List.mem_cons_of_mem _ hc)

/-- Reading `n` bytes off a canonical list that has nothing below `a` is reading them one by one. -/
theorem takeCells_eq_some (m : Memory) (a n : Nat) (l : List Byte) (hs : m.Pairwise (fun x y => x.1 < y.1))
    (hlow : ∀ c ∈ m, a ≤ c.1) :
    takeCells a n m = some l ↔ l.length = n ∧ ∀ i, i < n → m.get? (a + i) = l[i]? := by
  induction n generalizing a m l with
  | zero => cases l <;> simp [takeCells]
  | succ n ih =>
    cases m with
    | nil =>
      simp only [takeCells, get?_nil, reduceCtorEq, false_iff, not_and, not_forall]
      intro hl
      refine ⟨0, by omega, ?_⟩
      cases l with
      | nil => simp at hl
      | cons x l => simp
    | cons d m =>
      obtain ⟨b, v⟩ := d
      obtain ⟨hb, hm⟩ := List.pairwise_cons.1 hs
      by_cases hba : b = a
      · subst hba
        have hlow' : ∀ c ∈ m, b + 1 ≤ c.1 := fun c hc => hb c hc
        rw [takeCells, if_pos rfl, Option.map_eq_some_iff]
        constructor
        · rintro ⟨l', hl', rfl⟩
          obtain ⟨hlen, hget⟩ := (ih m (b + 1) l' hm hlow').1 hl'
          refine ⟨by simp [hlen], fun i hi => ?_⟩
          cases i with
          | zero => simp [Memory.get?]
          | succ i =>
            rw [Memory.get?, if_neg (by omega), show b + (i + 1) = b + 1 + i by omega, hget i (by omega)]
            simp
        · rintro ⟨hlen, hget⟩
          cases l with
          | nil => simp at hlen
          | cons x l' =>
            have h0 := hget 0 (by omega)
            simp only [Nat.add_zero, Memory.get?, if_true, List.getElem?_cons_zero, Option.some.injEq] at h0
            refine ⟨l', (ih m (b + 1) l' hm hlow').2 ⟨by simpa using hlen, fun i hi => ?_⟩, by rw [h0]⟩
            have := hget (i + 1) (by omega)
            rw [Memory.get?, if_neg (by omega)] at this
            rw [show b + 1 + i = b + (i + 1) by omega, this]; simp
      · rw [takeCells, if_neg hba]
        simp only [reduceCtorEq, false_iff, not_and, not_forall]
        intro hl
        refine ⟨0, by omega, ?_⟩
        have hlt : a < b := lt_of_le_of_ne (hlow (b, v) (by simp)) (Ne.symm hba)
        rw [Nat.add_zero, get?_of_lt_all _ a ?_]
        · cases l with
          | nil => simp at hl
          | cons x l => simp
        · intro c hc
          rcases List.mem_cons.1 hc with rfl | hc
          · exact hlt
          · exact hlt.trans (hb c hc)

/-- The first `n` bytes of a canonical buffer, as the byte-by-byte reads of R233 give them. -/
theorem firstBytes?_eq_some (size : Nat) (m : Memory) (n : Nat) (l : List Byte) (h : m.wf size) :
    m.firstBytes? n = some l ↔ l.length = n ∧ ∀ i, i < n → m.get? i = l[i]? := by
  have := takeCells_eq_some m 0 n l h.1 (fun c _ => Nat.zero_le _)
  simpa [Memory.firstBytes?] using this

end Sys2Proof.Machine
end

