-- ==== Sys2Proof/Laws/Results.lean ====
section
/-!
SUPPORT. What a command's result can be: no output longer than the capacity, no output with an error (R238, R239,
R264).
-/

namespace Sys2Proof.Machine

/-- The symbol mapper emits at most as many bytes as it has room for (R192). -/
theorem mapBits_length (C : CodeTable) (bits acc : Bits) (room : Nat) (out : List Byte)
    (h : mapBits C bits acc room = .ok out) : out.length ≤ room := by
  induction bits generalizing acc room out with
  | nil => simp [mapBits] at h
  | cons x bits ih =>
    simp only [mapBits] at h
    split at h
    · exact ih _ _ _ h
    · cases h; simp
    · cases room with
      | zero => simp at h
      | succ room =>
        cases hm : mapBits C bits [] room with
        | error e => simp [hm, Except.map] at h
        | ok out' =>
          simp only [hm, Except.map, Except.ok.injEq] at h
          subst h
          simpa using ih _ _ _ hm

/-- The run unpacker emits at most as many bytes as it has room for (R207). -/
theorem rleUnits_length (d : List Byte) (room : Nat) (out : List Byte) (h : rleUnits d room = .ok out) :
    out.length ≤ room := by
  induction d, room using rleUnits.induct generalizing out with
  | case1 room => simp only [rleUnits, Except.ok.injEq] at h; subst h; simp
  | case2 s hi lo rest room hlt => simp [rleUnits, hlt] at h
  | case3 s hi lo rest room hlt ih =>
    rw [rleUnits, if_neg hlt] at h
    cases hr : rleUnits rest (room - be16 hi lo) with
    | error e => simp [hr, Except.map] at h
    | ok out' =>
      simp only [hr, Except.map, Except.ok.injEq] at h
      subst h
      have := ih _ hr
      simp only [List.length_append, List.length_replicate]
      omega
  | case4 d room h1 h2 => simp [rleUnits] at h

theorem huffDecode_length (d : List Byte) (cap : Nat) (out : List Byte) (h : huffDecode d cap = .ok out) :
    out.length ≤ cap := by
  unfold huffDecode at h
  split at h
  · split at h
    · cases h
    · split at h
      · cases h
      · exact mapBits_length _ _ _ _ _ h
  · cases h

theorem dispatch_length (d : List Byte) (cap : Nat) (out : List Byte) (sel : Sel)
    (h : dispatch d cap = (.ok out, sel)) : out.length ≤ cap := by
  unfold dispatch at h
  split at h
  · simp at h
  · split at h
    · exact huffDecode_length _ _ _ (Prod.mk.inj h).1
    · split at h
      · exact rleUnits_length _ _ _ (Prod.mk.inj h).1
      · simp at h

/-- A result within its limits (R238, R239): output no longer than the capacity, none with an error. -/
def CmdResult.within (cap : Nat) (r : CmdResult) : Prop := r.out.length ≤ cap ∧ (r.err ≠ .none → r.out = [])

theorem encodeResult_within (c : List Byte) (sel : Sel) (hl rl : Word) (cap : Nat) :
    (encodeResult c sel hl rl cap).within cap := by
  unfold encodeResult CmdResult.within
  split
  · simp
  · simp; omega

theorem resultOf_within (i : Instr) (input : List Byte) (cap : Nat) : (resultOf i input cap).within cap := by
  have fail : ∀ e sel hl rl, CmdResult.within cap { err := e, sel := sel, out := [], hl := hl, rl := rl } := by
    simp [CmdResult.within]
  cases i with
  | encBest => change CmdResult.within cap (encBestResult input cap); unfold encBestResult; split <;> first | apply fail | apply encodeResult_within
  | encHuff => change CmdResult.within cap (encHuffResult input cap); unfold encHuffResult; split <;> first | apply fail | apply encodeResult_within
  | encRle => exact encodeResult_within _ _ _ _ _
  | decode =>
    change CmdResult.within cap (decodeResult input cap)
    unfold decodeResult
    split
    · apply fail
    · rename_i out sel h
      exact ⟨dispatch_length _ _ _ _ h, by simp⟩
  | _ => apply fail

theorem undefinedResult_within (draw cap : Nat) : (undefinedResult draw cap).within cap := by
  unfold undefinedResult CmdResult.within
  refine ⟨?_, fun h => if_neg h⟩
  split
  · simp [List.length_take]
  · simp

/-- Every command's result is within its limits, whether the spec defines it or not. -/
theorem commandResult_within (i : Instr) (s : State) : (commandResult (resultOf i) s).within s.cap := by
  unfold commandResult
  split
  · exact undefinedResult_within _ _
  · split
    · simp [CmdResult.within, CmdResult.failure]
    · exact resultOf_within _ _ _

end Sys2Proof.Machine
end

