-- ==== Sys2Proof/Laws/State.lean ====
section
/-!
SUPPORT. What each shared update of the state leaves in each field: one lemma per field per update, each true by
unfolding the update once, so that no later proof unfolds a record update.
-/

namespace Sys2Proof.Machine

/-! ### `startCommand`: command start (R225) -/

@[simp] theorem startCommand_params (op : BitVec 4) (s : State) : (startCommand op s).params = s.params := rfl
@[simp] theorem startCommand_done (op : BitVec 4) (s : State) : (startCommand op s).done = false := rfl
@[simp] theorem startCommand_err (op : BitVec 4) (s : State) : (startCommand op s).err = .none := rfl
@[simp] theorem startCommand_sel (op : BitVec 4) (s : State) : (startCommand op s).sel = .none := rfl
@[simp] theorem startCommand_ie (op : BitVec 4) (s : State) : (startCommand op s).ie = s.ie := rfl
@[simp] theorem startCommand_srcLen (op : BitVec 4) (s : State) : (startCommand op s).srcLen = s.srcLen := rfl
@[simp] theorem startCommand_dstCap (op : BitVec 4) (s : State) : (startCommand op s).dstCap = s.dstCap := rfl
@[simp] theorem startCommand_dstLen (op : BitVec 4) (s : State) : (startCommand op s).dstLen = 0#32 := rfl
@[simp] theorem startCommand_huffLen (op : BitVec 4) (s : State) : (startCommand op s).huffLen = 0#32 := rfl
@[simp] theorem startCommand_rleLen (op : BitVec 4) (s : State) : (startCommand op s).rleLen = 0#32 := rfl
@[simp] theorem startCommand_src (op : BitVec 4) (s : State) : (startCommand op s).src = s.src := rfl
@[simp] theorem startCommand_dst (op : BitVec 4) (s : State) : (startCommand op s).dst = s.dst := rfl
@[simp] theorem startCommand_eng (op : BitVec 4) (s : State) : (startCommand op s).eng = .busy := rfl
@[simp] theorem startCommand_lOp (op : BitVec 4) (s : State) : (startCommand op s).lOp = op := rfl
@[simp] theorem startCommand_lSrcLen (op : BitVec 4) (s : State) : (startCommand op s).lSrcLen = s.srcLen := rfl
@[simp] theorem startCommand_lCap (op : BitVec 4) (s : State) : (startCommand op s).lCap = s.dstCap := rfl
@[simp] theorem startCommand_faults (op : BitVec 4) (s : State) : (startCommand op s).faults = s.faults := rfl
@[simp] theorem startCommand_tainted (op : BitVec 4) (s : State) : (startCommand op s).tainted = false := rfl
@[simp] theorem startCommand_epoch (op : BitVec 4) (s : State) : (startCommand op s).epoch = s.epoch := rfl
@[simp] theorem startCommand_draws (op : BitVec 4) (s : State) : (startCommand op s).draws = s.draws := rfl
@[simp] theorem startCommand_script (op : BitVec 4) (s : State) : (startCommand op s).script = s.script := rfl
@[simp] theorem startCommand_names (op : BitVec 4) (s : State) : (startCommand op s).names = s.names := rfl
@[simp] theorem startCommand_turn (op : BitVec 4) (s : State) : (startCommand op s).turn = s.turn := rfl
@[simp] theorem startCommand_sched (op : BitVec 4) (s : State) : (startCommand op s).sched = s.sched := rfl

/-! ### `clearLengthsIf`: the lengths after a `NOP` (R28 to R30) -/

@[simp] theorem clearLengthsIf_params (c : Bool) (s : State) : (clearLengthsIf c s).params = s.params := rfl
@[simp] theorem clearLengthsIf_done (c : Bool) (s : State) : (clearLengthsIf c s).done = s.done := rfl
@[simp] theorem clearLengthsIf_err (c : Bool) (s : State) : (clearLengthsIf c s).err = s.err := rfl
@[simp] theorem clearLengthsIf_sel (c : Bool) (s : State) : (clearLengthsIf c s).sel = s.sel := rfl
@[simp] theorem clearLengthsIf_ie (c : Bool) (s : State) : (clearLengthsIf c s).ie = s.ie := rfl
@[simp] theorem clearLengthsIf_srcLen (c : Bool) (s : State) : (clearLengthsIf c s).srcLen = s.srcLen := rfl
@[simp] theorem clearLengthsIf_dstCap (c : Bool) (s : State) : (clearLengthsIf c s).dstCap = s.dstCap := rfl
@[simp] theorem clearLengthsIf_dstLen (c : Bool) (s : State) : (clearLengthsIf c s).dstLen = (if c then 0#32 else s.dstLen) := rfl
@[simp] theorem clearLengthsIf_huffLen (c : Bool) (s : State) : (clearLengthsIf c s).huffLen = (if c then 0#32 else s.huffLen) := rfl
@[simp] theorem clearLengthsIf_rleLen (c : Bool) (s : State) : (clearLengthsIf c s).rleLen = (if c then 0#32 else s.rleLen) := rfl
@[simp] theorem clearLengthsIf_src (c : Bool) (s : State) : (clearLengthsIf c s).src = s.src := rfl
@[simp] theorem clearLengthsIf_dst (c : Bool) (s : State) : (clearLengthsIf c s).dst = s.dst := rfl
@[simp] theorem clearLengthsIf_eng (c : Bool) (s : State) : (clearLengthsIf c s).eng = s.eng := rfl
@[simp] theorem clearLengthsIf_lOp (c : Bool) (s : State) : (clearLengthsIf c s).lOp = s.lOp := rfl
@[simp] theorem clearLengthsIf_lSrcLen (c : Bool) (s : State) : (clearLengthsIf c s).lSrcLen = s.lSrcLen := rfl
@[simp] theorem clearLengthsIf_lCap (c : Bool) (s : State) : (clearLengthsIf c s).lCap = s.lCap := rfl
@[simp] theorem clearLengthsIf_faults (c : Bool) (s : State) : (clearLengthsIf c s).faults = s.faults := rfl
@[simp] theorem clearLengthsIf_tainted (c : Bool) (s : State) : (clearLengthsIf c s).tainted = s.tainted := rfl
@[simp] theorem clearLengthsIf_epoch (c : Bool) (s : State) : (clearLengthsIf c s).epoch = s.epoch := rfl
@[simp] theorem clearLengthsIf_draws (c : Bool) (s : State) : (clearLengthsIf c s).draws = s.draws := rfl
@[simp] theorem clearLengthsIf_script (c : Bool) (s : State) : (clearLengthsIf c s).script = s.script := rfl
@[simp] theorem clearLengthsIf_names (c : Bool) (s : State) : (clearLengthsIf c s).names = s.names := rfl
@[simp] theorem clearLengthsIf_turn (c : Bool) (s : State) : (clearLengthsIf c s).turn = s.turn := rfl
@[simp] theorem clearLengthsIf_sched (c : Bool) (s : State) : (clearLengthsIf c s).sched = s.sched := rfl
@[simp] theorem clearLengthsIf_false (s : State) : clearLengthsIf false s = s := rfl

/-! ### `recordIllegalCommand`: the refusal of a reserved opcode (R228) -/

@[simp] theorem recordIllegalCommand_params (s : State) : (recordIllegalCommand s).params = s.params := rfl
@[simp] theorem recordIllegalCommand_done (s : State) : (recordIllegalCommand s).done = true := rfl
@[simp] theorem recordIllegalCommand_err (s : State) : (recordIllegalCommand s).err = .illegalCommand := rfl
@[simp] theorem recordIllegalCommand_sel (s : State) : (recordIllegalCommand s).sel = .none := rfl
@[simp] theorem recordIllegalCommand_ie (s : State) : (recordIllegalCommand s).ie = s.ie := rfl
@[simp] theorem recordIllegalCommand_srcLen (s : State) : (recordIllegalCommand s).srcLen = s.srcLen := rfl
@[simp] theorem recordIllegalCommand_dstCap (s : State) : (recordIllegalCommand s).dstCap = s.dstCap := rfl
@[simp] theorem recordIllegalCommand_dstLen (s : State) : (recordIllegalCommand s).dstLen = 0#32 := rfl
@[simp] theorem recordIllegalCommand_huffLen (s : State) : (recordIllegalCommand s).huffLen = 0#32 := rfl
@[simp] theorem recordIllegalCommand_rleLen (s : State) : (recordIllegalCommand s).rleLen = 0#32 := rfl
@[simp] theorem recordIllegalCommand_src (s : State) : (recordIllegalCommand s).src = s.src := rfl
@[simp] theorem recordIllegalCommand_dst (s : State) : (recordIllegalCommand s).dst = s.dst := rfl
@[simp] theorem recordIllegalCommand_eng (s : State) : (recordIllegalCommand s).eng = s.eng := rfl
@[simp] theorem recordIllegalCommand_lOp (s : State) : (recordIllegalCommand s).lOp = s.lOp := rfl
@[simp] theorem recordIllegalCommand_lSrcLen (s : State) : (recordIllegalCommand s).lSrcLen = s.lSrcLen := rfl
@[simp] theorem recordIllegalCommand_lCap (s : State) : (recordIllegalCommand s).lCap = s.lCap := rfl
@[simp] theorem recordIllegalCommand_faults (s : State) : (recordIllegalCommand s).faults = s.faults := rfl
@[simp] theorem recordIllegalCommand_tainted (s : State) : (recordIllegalCommand s).tainted = s.tainted := rfl
@[simp] theorem recordIllegalCommand_epoch (s : State) : (recordIllegalCommand s).epoch = s.epoch := rfl
@[simp] theorem recordIllegalCommand_draws (s : State) : (recordIllegalCommand s).draws = s.draws := rfl
@[simp] theorem recordIllegalCommand_script (s : State) : (recordIllegalCommand s).script = s.script := rfl
@[simp] theorem recordIllegalCommand_names (s : State) : (recordIllegalCommand s).names = s.names := rfl
@[simp] theorem recordIllegalCommand_turn (s : State) : (recordIllegalCommand s).turn = s.turn := rfl
@[simp] theorem recordIllegalCommand_sched (s : State) : (recordIllegalCommand s).sched = s.sched := rfl

/-! ### `finishCommand`: commit and report (R240 to R243) -/

@[simp] theorem finishCommand_params (r : CmdResult) (s : State) : (finishCommand r s).params = s.params := rfl
@[simp] theorem finishCommand_done (r : CmdResult) (s : State) : (finishCommand r s).done = true := rfl
@[simp] theorem finishCommand_err (r : CmdResult) (s : State) : (finishCommand r s).err = r.err := rfl
@[simp] theorem finishCommand_sel (r : CmdResult) (s : State) : (finishCommand r s).sel = r.sel := rfl
@[simp] theorem finishCommand_ie (r : CmdResult) (s : State) : (finishCommand r s).ie = s.ie := rfl
@[simp] theorem finishCommand_srcLen (r : CmdResult) (s : State) : (finishCommand r s).srcLen = s.srcLen := rfl
@[simp] theorem finishCommand_dstCap (r : CmdResult) (s : State) : (finishCommand r s).dstCap = s.dstCap := rfl
@[simp] theorem finishCommand_dstLen (r : CmdResult) (s : State) : (finishCommand r s).dstLen = (if r.err = .none then BitVec.ofNat 32 r.out.length else 0#32) := rfl
@[simp] theorem finishCommand_huffLen (r : CmdResult) (s : State) : (finishCommand r s).huffLen = r.hl := rfl
@[simp] theorem finishCommand_rleLen (r : CmdResult) (s : State) : (finishCommand r s).rleLen = r.rl := rfl
@[simp] theorem finishCommand_src (r : CmdResult) (s : State) : (finishCommand r s).src = s.src := rfl
@[simp] theorem finishCommand_dst (r : CmdResult) (s : State) : (finishCommand r s).dst = (if r.err = .none then s.dst.setPrefix r.out else s.dst) := rfl
@[simp] theorem finishCommand_eng (r : CmdResult) (s : State) : (finishCommand r s).eng = .idle := rfl
@[simp] theorem finishCommand_lOp (r : CmdResult) (s : State) : (finishCommand r s).lOp = s.lOp := rfl
@[simp] theorem finishCommand_lSrcLen (r : CmdResult) (s : State) : (finishCommand r s).lSrcLen = s.lSrcLen := rfl
@[simp] theorem finishCommand_lCap (r : CmdResult) (s : State) : (finishCommand r s).lCap = s.lCap := rfl
@[simp] theorem finishCommand_faults (r : CmdResult) (s : State) : (finishCommand r s).faults = s.faults.addIf .uninitRead s.readsUnwritten := rfl
@[simp] theorem finishCommand_tainted (r : CmdResult) (s : State) : (finishCommand r s).tainted = false := rfl
@[simp] theorem finishCommand_epoch (r : CmdResult) (s : State) : (finishCommand r s).epoch = s.epoch := rfl
@[simp] theorem finishCommand_draws (r : CmdResult) (s : State) : (finishCommand r s).draws = (if s.resultUndefined then s.draws + 1 else s.draws) := rfl
@[simp] theorem finishCommand_script (r : CmdResult) (s : State) : (finishCommand r s).script = s.script := rfl
@[simp] theorem finishCommand_names (r : CmdResult) (s : State) : (finishCommand r s).names = s.names := rfl
@[simp] theorem finishCommand_turn (r : CmdResult) (s : State) : (finishCommand r s).turn = s.turn := rfl
@[simp] theorem finishCommand_sched (r : CmdResult) (s : State) : (finishCommand r s).sched = s.sched := rfl

/-! ### `resetMachine`: reset (R290 to R293) -/

@[simp] theorem resetMachine_params (s : State) : (resetMachine s).params = s.params := rfl
@[simp] theorem resetMachine_done (s : State) : (resetMachine s).done = false := rfl
@[simp] theorem resetMachine_err (s : State) : (resetMachine s).err = .none := rfl
@[simp] theorem resetMachine_sel (s : State) : (resetMachine s).sel = .none := rfl
@[simp] theorem resetMachine_ie (s : State) : (resetMachine s).ie = false := rfl
@[simp] theorem resetMachine_srcLen (s : State) : (resetMachine s).srcLen = 0#32 := rfl
@[simp] theorem resetMachine_dstCap (s : State) : (resetMachine s).dstCap = BitVec.ofNat 32 s.params.dstMemSize := rfl
@[simp] theorem resetMachine_dstLen (s : State) : (resetMachine s).dstLen = 0#32 := rfl
@[simp] theorem resetMachine_huffLen (s : State) : (resetMachine s).huffLen = 0#32 := rfl
@[simp] theorem resetMachine_rleLen (s : State) : (resetMachine s).rleLen = 0#32 := rfl
@[simp] theorem resetMachine_src (s : State) : (resetMachine s).src = [] := rfl
@[simp] theorem resetMachine_dst (s : State) : (resetMachine s).dst = [] := rfl
@[simp] theorem resetMachine_eng (s : State) : (resetMachine s).eng = .idle := rfl
@[simp] theorem resetMachine_lOp (s : State) : (resetMachine s).lOp = 0#4 := rfl
@[simp] theorem resetMachine_lSrcLen (s : State) : (resetMachine s).lSrcLen = 0#32 := rfl
@[simp] theorem resetMachine_lCap (s : State) : (resetMachine s).lCap = 0#32 := rfl
@[simp] theorem resetMachine_faults (s : State) : (resetMachine s).faults = s.faults := rfl
@[simp] theorem resetMachine_tainted (s : State) : (resetMachine s).tainted = false := rfl
@[simp] theorem resetMachine_epoch (s : State) : (resetMachine s).epoch = s.epoch + 1 := rfl
@[simp] theorem resetMachine_draws (s : State) : (resetMachine s).draws = s.draws := rfl
@[simp] theorem resetMachine_script (s : State) : (resetMachine s).script = s.script := rfl
@[simp] theorem resetMachine_names (s : State) : (resetMachine s).names = s.names := rfl
@[simp] theorem resetMachine_turn (s : State) : (resetMachine s).turn = s.turn := rfl
@[simp] theorem resetMachine_sched (s : State) : (resetMachine s).sched = s.sched := rfl

/-! ### `hostStore`: a host buffer write (R237) -/

@[simp] theorem hostStore_params (b : Buf) (a : Nat) (v : Byte) (s : State) : (hostStore b a v s).params = s.params := rfl
@[simp] theorem hostStore_done (b : Buf) (a : Nat) (v : Byte) (s : State) : (hostStore b a v s).done = s.done := rfl
@[simp] theorem hostStore_err (b : Buf) (a : Nat) (v : Byte) (s : State) : (hostStore b a v s).err = s.err := rfl
@[simp] theorem hostStore_sel (b : Buf) (a : Nat) (v : Byte) (s : State) : (hostStore b a v s).sel = s.sel := rfl
@[simp] theorem hostStore_ie (b : Buf) (a : Nat) (v : Byte) (s : State) : (hostStore b a v s).ie = s.ie := rfl
@[simp] theorem hostStore_srcLen (b : Buf) (a : Nat) (v : Byte) (s : State) : (hostStore b a v s).srcLen = s.srcLen := rfl
@[simp] theorem hostStore_dstCap (b : Buf) (a : Nat) (v : Byte) (s : State) : (hostStore b a v s).dstCap = s.dstCap := rfl
@[simp] theorem hostStore_dstLen (b : Buf) (a : Nat) (v : Byte) (s : State) : (hostStore b a v s).dstLen = s.dstLen := rfl
@[simp] theorem hostStore_huffLen (b : Buf) (a : Nat) (v : Byte) (s : State) : (hostStore b a v s).huffLen = s.huffLen := rfl
@[simp] theorem hostStore_rleLen (b : Buf) (a : Nat) (v : Byte) (s : State) : (hostStore b a v s).rleLen = s.rleLen := rfl
@[simp] theorem hostStore_src (b : Buf) (a : Nat) (v : Byte) (s : State) : (hostStore b a v s).src = (if b = .src then s.src.set a v else s.src) := rfl
@[simp] theorem hostStore_dst (b : Buf) (a : Nat) (v : Byte) (s : State) : (hostStore b a v s).dst = (if b = .dst then s.dst.set a v else s.dst) := rfl
@[simp] theorem hostStore_eng (b : Buf) (a : Nat) (v : Byte) (s : State) : (hostStore b a v s).eng = s.eng := rfl
@[simp] theorem hostStore_lOp (b : Buf) (a : Nat) (v : Byte) (s : State) : (hostStore b a v s).lOp = s.lOp := rfl
@[simp] theorem hostStore_lSrcLen (b : Buf) (a : Nat) (v : Byte) (s : State) : (hostStore b a v s).lSrcLen = s.lSrcLen := rfl
@[simp] theorem hostStore_lCap (b : Buf) (a : Nat) (v : Byte) (s : State) : (hostStore b a v s).lCap = s.lCap := rfl
@[simp] theorem hostStore_faults (b : Buf) (a : Nat) (v : Byte) (s : State) : (hostStore b a v s).faults = s.faults.addIf .hostHazard s.busy := rfl
@[simp] theorem hostStore_tainted (b : Buf) (a : Nat) (v : Byte) (s : State) : (hostStore b a v s).tainted = (s.tainted || s.busy) := rfl
@[simp] theorem hostStore_epoch (b : Buf) (a : Nat) (v : Byte) (s : State) : (hostStore b a v s).epoch = s.epoch := rfl
@[simp] theorem hostStore_draws (b : Buf) (a : Nat) (v : Byte) (s : State) : (hostStore b a v s).draws = s.draws := rfl
@[simp] theorem hostStore_script (b : Buf) (a : Nat) (v : Byte) (s : State) : (hostStore b a v s).script = s.script := rfl
@[simp] theorem hostStore_names (b : Buf) (a : Nat) (v : Byte) (s : State) : (hostStore b a v s).names = s.names := rfl
@[simp] theorem hostStore_turn (b : Buf) (a : Nat) (v : Byte) (s : State) : (hostStore b a v s).turn = s.turn := rfl
@[simp] theorem hostStore_sched (b : Buf) (a : Nat) (v : Byte) (s : State) : (hostStore b a v s).sched = s.sched := rfl

/-! ### `hostLoadRecord`: the record of a host buffer read (R236) -/

@[simp] theorem hostLoadRecord_params (b : Buf) (a : Nat) (s : State) : (hostLoadRecord b a s).params = s.params := rfl
@[simp] theorem hostLoadRecord_done (b : Buf) (a : Nat) (s : State) : (hostLoadRecord b a s).done = s.done := rfl
@[simp] theorem hostLoadRecord_err (b : Buf) (a : Nat) (s : State) : (hostLoadRecord b a s).err = s.err := rfl
@[simp] theorem hostLoadRecord_sel (b : Buf) (a : Nat) (s : State) : (hostLoadRecord b a s).sel = s.sel := rfl
@[simp] theorem hostLoadRecord_ie (b : Buf) (a : Nat) (s : State) : (hostLoadRecord b a s).ie = s.ie := rfl
@[simp] theorem hostLoadRecord_srcLen (b : Buf) (a : Nat) (s : State) : (hostLoadRecord b a s).srcLen = s.srcLen := rfl
@[simp] theorem hostLoadRecord_dstCap (b : Buf) (a : Nat) (s : State) : (hostLoadRecord b a s).dstCap = s.dstCap := rfl
@[simp] theorem hostLoadRecord_dstLen (b : Buf) (a : Nat) (s : State) : (hostLoadRecord b a s).dstLen = s.dstLen := rfl
@[simp] theorem hostLoadRecord_huffLen (b : Buf) (a : Nat) (s : State) : (hostLoadRecord b a s).huffLen = s.huffLen := rfl
@[simp] theorem hostLoadRecord_rleLen (b : Buf) (a : Nat) (s : State) : (hostLoadRecord b a s).rleLen = s.rleLen := rfl
@[simp] theorem hostLoadRecord_src (b : Buf) (a : Nat) (s : State) : (hostLoadRecord b a s).src = s.src := rfl
@[simp] theorem hostLoadRecord_dst (b : Buf) (a : Nat) (s : State) : (hostLoadRecord b a s).dst = s.dst := rfl
@[simp] theorem hostLoadRecord_eng (b : Buf) (a : Nat) (s : State) : (hostLoadRecord b a s).eng = s.eng := rfl
@[simp] theorem hostLoadRecord_lOp (b : Buf) (a : Nat) (s : State) : (hostLoadRecord b a s).lOp = s.lOp := rfl
@[simp] theorem hostLoadRecord_lSrcLen (b : Buf) (a : Nat) (s : State) : (hostLoadRecord b a s).lSrcLen = s.lSrcLen := rfl
@[simp] theorem hostLoadRecord_lCap (b : Buf) (a : Nat) (s : State) : (hostLoadRecord b a s).lCap = s.lCap := rfl
@[simp] theorem hostLoadRecord_faults (b : Buf) (a : Nat) (s : State) : (hostLoadRecord b a s).faults = s.faults.addIf .uninitRead (recordsUninit b a s) := rfl
@[simp] theorem hostLoadRecord_tainted (b : Buf) (a : Nat) (s : State) : (hostLoadRecord b a s).tainted = s.tainted := rfl
@[simp] theorem hostLoadRecord_epoch (b : Buf) (a : Nat) (s : State) : (hostLoadRecord b a s).epoch = s.epoch := rfl
@[simp] theorem hostLoadRecord_draws (b : Buf) (a : Nat) (s : State) : (hostLoadRecord b a s).draws = (if drawsFresh b s then s.draws + 1 else s.draws) := rfl
@[simp] theorem hostLoadRecord_script (b : Buf) (a : Nat) (s : State) : (hostLoadRecord b a s).script = s.script := rfl
@[simp] theorem hostLoadRecord_names (b : Buf) (a : Nat) (s : State) : (hostLoadRecord b a s).names = s.names := rfl
@[simp] theorem hostLoadRecord_turn (b : Buf) (a : Nat) (s : State) : (hostLoadRecord b a s).turn = s.turn := rfl
@[simp] theorem hostLoadRecord_sched (b : Buf) (a : Nat) (s : State) : (hostLoadRecord b a s).sched = s.sched := rfl

/-! ### `bindValue`: binding a value read (R109) -/

@[simp] theorem bindValue_params (n : HostName) (v : Word) (s : State) : (bindValue n v s).params = s.params := rfl
@[simp] theorem bindValue_done (n : HostName) (v : Word) (s : State) : (bindValue n v s).done = s.done := rfl
@[simp] theorem bindValue_err (n : HostName) (v : Word) (s : State) : (bindValue n v s).err = s.err := rfl
@[simp] theorem bindValue_sel (n : HostName) (v : Word) (s : State) : (bindValue n v s).sel = s.sel := rfl
@[simp] theorem bindValue_ie (n : HostName) (v : Word) (s : State) : (bindValue n v s).ie = s.ie := rfl
@[simp] theorem bindValue_srcLen (n : HostName) (v : Word) (s : State) : (bindValue n v s).srcLen = s.srcLen := rfl
@[simp] theorem bindValue_dstCap (n : HostName) (v : Word) (s : State) : (bindValue n v s).dstCap = s.dstCap := rfl
@[simp] theorem bindValue_dstLen (n : HostName) (v : Word) (s : State) : (bindValue n v s).dstLen = s.dstLen := rfl
@[simp] theorem bindValue_huffLen (n : HostName) (v : Word) (s : State) : (bindValue n v s).huffLen = s.huffLen := rfl
@[simp] theorem bindValue_rleLen (n : HostName) (v : Word) (s : State) : (bindValue n v s).rleLen = s.rleLen := rfl
@[simp] theorem bindValue_src (n : HostName) (v : Word) (s : State) : (bindValue n v s).src = s.src := rfl
@[simp] theorem bindValue_dst (n : HostName) (v : Word) (s : State) : (bindValue n v s).dst = s.dst := rfl
@[simp] theorem bindValue_eng (n : HostName) (v : Word) (s : State) : (bindValue n v s).eng = s.eng := rfl
@[simp] theorem bindValue_lOp (n : HostName) (v : Word) (s : State) : (bindValue n v s).lOp = s.lOp := rfl
@[simp] theorem bindValue_lSrcLen (n : HostName) (v : Word) (s : State) : (bindValue n v s).lSrcLen = s.lSrcLen := rfl
@[simp] theorem bindValue_lCap (n : HostName) (v : Word) (s : State) : (bindValue n v s).lCap = s.lCap := rfl
@[simp] theorem bindValue_faults (n : HostName) (v : Word) (s : State) : (bindValue n v s).faults = s.faults := rfl
@[simp] theorem bindValue_tainted (n : HostName) (v : Word) (s : State) : (bindValue n v s).tainted = s.tainted := rfl
@[simp] theorem bindValue_epoch (n : HostName) (v : Word) (s : State) : (bindValue n v s).epoch = s.epoch := rfl
@[simp] theorem bindValue_draws (n : HostName) (v : Word) (s : State) : (bindValue n v s).draws = s.draws := rfl
@[simp] theorem bindValue_script (n : HostName) (v : Word) (s : State) : (bindValue n v s).script = s.script := rfl
@[simp] theorem bindValue_names (n : HostName) (v : Word) (s : State) : (bindValue n v s).names = bindName s.names n v := rfl
@[simp] theorem bindValue_turn (n : HostName) (v : Word) (s : State) : (bindValue n v s).turn = s.turn := rfl
@[simp] theorem bindValue_sched (n : HostName) (v : Word) (s : State) : (bindValue n v s).sched = s.sched := rfl

/-! ### `withScript`: the rest of the host's script -/

@[simp] theorem withScript_params (ops : List HostOp) (s : State) : (withScript ops s).params = s.params := rfl
@[simp] theorem withScript_done (ops : List HostOp) (s : State) : (withScript ops s).done = s.done := rfl
@[simp] theorem withScript_err (ops : List HostOp) (s : State) : (withScript ops s).err = s.err := rfl
@[simp] theorem withScript_sel (ops : List HostOp) (s : State) : (withScript ops s).sel = s.sel := rfl
@[simp] theorem withScript_ie (ops : List HostOp) (s : State) : (withScript ops s).ie = s.ie := rfl
@[simp] theorem withScript_srcLen (ops : List HostOp) (s : State) : (withScript ops s).srcLen = s.srcLen := rfl
@[simp] theorem withScript_dstCap (ops : List HostOp) (s : State) : (withScript ops s).dstCap = s.dstCap := rfl
@[simp] theorem withScript_dstLen (ops : List HostOp) (s : State) : (withScript ops s).dstLen = s.dstLen := rfl
@[simp] theorem withScript_huffLen (ops : List HostOp) (s : State) : (withScript ops s).huffLen = s.huffLen := rfl
@[simp] theorem withScript_rleLen (ops : List HostOp) (s : State) : (withScript ops s).rleLen = s.rleLen := rfl
@[simp] theorem withScript_src (ops : List HostOp) (s : State) : (withScript ops s).src = s.src := rfl
@[simp] theorem withScript_dst (ops : List HostOp) (s : State) : (withScript ops s).dst = s.dst := rfl
@[simp] theorem withScript_eng (ops : List HostOp) (s : State) : (withScript ops s).eng = s.eng := rfl
@[simp] theorem withScript_lOp (ops : List HostOp) (s : State) : (withScript ops s).lOp = s.lOp := rfl
@[simp] theorem withScript_lSrcLen (ops : List HostOp) (s : State) : (withScript ops s).lSrcLen = s.lSrcLen := rfl
@[simp] theorem withScript_lCap (ops : List HostOp) (s : State) : (withScript ops s).lCap = s.lCap := rfl
@[simp] theorem withScript_faults (ops : List HostOp) (s : State) : (withScript ops s).faults = s.faults := rfl
@[simp] theorem withScript_tainted (ops : List HostOp) (s : State) : (withScript ops s).tainted = s.tainted := rfl
@[simp] theorem withScript_epoch (ops : List HostOp) (s : State) : (withScript ops s).epoch = s.epoch := rfl
@[simp] theorem withScript_draws (ops : List HostOp) (s : State) : (withScript ops s).draws = s.draws := rfl
@[simp] theorem withScript_script (ops : List HostOp) (s : State) : (withScript ops s).script = ops := rfl
@[simp] theorem withScript_names (ops : List HostOp) (s : State) : (withScript ops s).names = s.names := rfl
@[simp] theorem withScript_turn (ops : List HostOp) (s : State) : (withScript ops s).turn = s.turn := rfl
@[simp] theorem withScript_sched (ops : List HostOp) (s : State) : (withScript ops s).sched = s.sched := rfl

/-! ### `advance`: passing the move (R70) -/

@[simp] theorem advance_params (s : State) : (advance s).params = s.params := rfl
@[simp] theorem advance_done (s : State) : (advance s).done = s.done := rfl
@[simp] theorem advance_err (s : State) : (advance s).err = s.err := rfl
@[simp] theorem advance_sel (s : State) : (advance s).sel = s.sel := rfl
@[simp] theorem advance_ie (s : State) : (advance s).ie = s.ie := rfl
@[simp] theorem advance_srcLen (s : State) : (advance s).srcLen = s.srcLen := rfl
@[simp] theorem advance_dstCap (s : State) : (advance s).dstCap = s.dstCap := rfl
@[simp] theorem advance_dstLen (s : State) : (advance s).dstLen = s.dstLen := rfl
@[simp] theorem advance_huffLen (s : State) : (advance s).huffLen = s.huffLen := rfl
@[simp] theorem advance_rleLen (s : State) : (advance s).rleLen = s.rleLen := rfl
@[simp] theorem advance_src (s : State) : (advance s).src = s.src := rfl
@[simp] theorem advance_dst (s : State) : (advance s).dst = s.dst := rfl
@[simp] theorem advance_eng (s : State) : (advance s).eng = s.eng := rfl
@[simp] theorem advance_lOp (s : State) : (advance s).lOp = s.lOp := rfl
@[simp] theorem advance_lSrcLen (s : State) : (advance s).lSrcLen = s.lSrcLen := rfl
@[simp] theorem advance_lCap (s : State) : (advance s).lCap = s.lCap := rfl
@[simp] theorem advance_faults (s : State) : (advance s).faults = s.faults := rfl
@[simp] theorem advance_tainted (s : State) : (advance s).tainted = s.tainted := rfl
@[simp] theorem advance_epoch (s : State) : (advance s).epoch = s.epoch := rfl
@[simp] theorem advance_draws (s : State) : (advance s).draws = s.draws := rfl
@[simp] theorem advance_script (s : State) : (advance s).script = s.script := rfl
@[simp] theorem advance_names (s : State) : (advance s).names = s.names := rfl
@[simp] theorem advance_turn (s : State) : (advance s).turn = nextTurn s := rfl
@[simp] theorem advance_sched (s : State) : (advance s).sched = s.sched.tail := rfl

/-! ### Functions of a state that an update leaves alone -/

@[simp] theorem withScript_busy (ops : List HostOp) (s : State) : (withScript ops s).busy = s.busy := rfl
@[simp] theorem withScript_status (ops : List HostOp) (s : State) : (withScript ops s).status = s.status := rfl
@[simp] theorem withScript_irq (ops : List HostOp) (s : State) : (withScript ops s).irq = s.irq := rfl
@[simp] theorem advance_busy (s : State) : (advance s).busy = s.busy := rfl
@[simp] theorem advance_status (s : State) : (advance s).status = s.status := rfl
@[simp] theorem advance_irq (s : State) : (advance s).irq = s.irq := rfl
@[simp] theorem bindValue_busy (n : HostName) (v : Word) (s : State) : (bindValue n v s).busy = s.busy := rfl

@[simp] theorem addIf_false (f : FaultRecord) (k : FaultKind) : f.addIf k false = f := by
  cases f; cases k <;> simp [FaultRecord.addIf]

@[simp] theorem addIf_hostHazard_true (f : FaultRecord) :
    f.addIf .hostHazard true = { f with hostHazard := true } := by
  cases f; simp [FaultRecord.addIf]

@[simp] theorem addIf_uninitRead_true (f : FaultRecord) :
    f.addIf .uninitRead true = { f with uninitRead := true } := by
  cases f; simp [FaultRecord.addIf]

/-- Adding a kind removes none (R38). -/
theorem has_addIf (f : FaultRecord) (k k' : FaultKind) (c : Bool) (h : f.has k' = true) :
    (f.addIf k c).has k' = true := by
  cases k' <;> simp_all [FaultRecord.has, FaultRecord.addIf]

theorem busy_eq_true (s : State) : s.busy = true ↔ s.eng = .busy := by cases h : s.eng <;> simp [State.busy, h]

theorem busy_eq_false (s : State) : s.busy = false ↔ s.eng = .idle := by cases h : s.eng <;> simp [State.busy, h]

end Sys2Proof.Machine
end

