-- ==== Sys2Proof/Laws/Ops.lean ====
section
/-!
SUPPORT. What each shared operation, each event and the step can do, said once: later proofs cite these and do not
unfold the operations.
-/

namespace Sys2Proof.Machine

/-- A started command runs its own function (R229 to R232). -/
theorem exec_started (i : Instr) (s : State) (h : isStarted i = true) :
    exec i s = .next (runCommand i.op (resultOf i) s) := by
  cases i <;> first | rfl | exact absurd h (by decide)

theorem exec_nop (s : State) : exec .nop s = .next (issueNop s) := rfl

/-- Everything a `NOP` can do: nothing, or, idle and by the reading of R28 to R30, clearing the three lengths. -/
theorem issueNop_cases (s : State) :
    issueNop s = s
    ∨ (s.eng = .idle ∧ s.params.readings.nopClearsLengths = true ∧ issueNop s = clearLengthsIf true s) := by
  unfold issueNop
  cases hb : s.busy <;> cases hr : s.params.readings.nopClearsLengths
  · exact .inl rfl
  · exact .inr ⟨(busy_eq_false s).mp hb, rfl, rfl⟩
  · exact .inl rfl
  · exact .inl rfl

theorem exec_reserved (i : Instr) (s : State) (h : isReserved i = true) : exec i s = .next (refuseReserved s) := by
  cases i <;> first | rfl | exact absurd h (by decide)

theorem instr_kinds (i : Instr) : i = .nop ∨ isStarted i = true ∨ isReserved i = true := by
  cases i <;> decide

/-- Everything a command can do: nothing, the clearing of the lengths by a `NOP`, a start, the record of an illegal
command, or its completion. -/
theorem exec_cases (i : Instr) (s : State) :
    exec i s = .next s
    ∨ (s.eng = .idle ∧ i = .nop ∧ s.params.readings.nopClearsLengths = true ∧ exec i s = .next (clearLengthsIf true s))
    ∨ (s.eng = .idle ∧ s.turn ≠ .engine ∧ isStarted i = true ∧ exec i s = .next (startCommand i.op s))
    ∨ (s.eng = .idle ∧ isReserved i = true ∧ exec i s = .next (recordIllegalCommand s))
    ∨ (s.eng = .busy ∧ s.turn = .engine ∧ isStarted i = true
        ∧ exec i s = .next (finishCommand (commandResult (resultOf i) s) s)) := by
  rcases instr_kinds i with rfl | hi | hi
  · rw [exec_nop]
    rcases issueNop_cases s with h | ⟨he, hr, h⟩ <;> rw [h]
    · exact .inl rfl
    · exact .inr (.inl ⟨he, rfl, hr, rfl⟩)
  · rw [exec_started i s hi]
    cases ht : s.turn <;> cases he : s.eng <;>
      simp [runCommand, issueCommand, completeCommand, ht, he, hi]
  · rw [exec_reserved i s hi]
    cases he : s.eng <;> simp [refuseReserved, he, hi]

/-- A command never stops the machine. -/
theorem exec_next (i : Instr) (s : State) : ∃ t, exec i s = .next t := by
  rcases exec_cases i s with h | ⟨_, _, _, h⟩ | ⟨_, _, _, h⟩ | ⟨_, _, h⟩ | ⟨_, _, _, h⟩ <;>
    exact ⟨_, h⟩

/-- Everything a register write other than to `CMD` can do (R235). -/
theorem regWrite_cases (o : Nat) (v : Word) (s : State) :
    regWrite o v s = s
    ∨ (o = 0x04 ∧ regWrite o v s = { s with done := doneAfterStatusWrite s.done v })
    ∨ (o = 0x08 ∧ regWrite o v s = { s with ie := ieOfWrite v })
    ∨ (o = 0x0C ∧ regWrite o v s = { s with srcLen := v })
    ∨ (o = 0x10 ∧ regWrite o v s = { s with dstCap := clampCap s.params v }) := by
  unfold regWrite regAt
  split <;> rename_i h <;> split at h <;> simp_all

/-- The reserved offsets name no register (R32). -/
theorem regAt_reserved (o : Nat) (h : 0x24 ≤ o) : regAt o = none := by
  unfold regAt
  split <;> first | omega | rfl

theorem regWrite_status (v : Word) (s : State) :
    regWrite 0x04 v s = { s with done := doneAfterStatusWrite s.done v } := rfl

theorem regWrite_irqEn (v : Word) (s : State) : regWrite 0x08 v s = { s with ie := ieOfWrite v } := rfl

theorem regWrite_srcLen (v : Word) (s : State) : regWrite 0x0C v s = { s with srcLen := v } := rfl

theorem regWrite_dstCap (v : Word) (s : State) :
    regWrite 0x10 v s = { s with dstCap := clampCap s.params v } := rfl

/-- A write to a reserved offset has no effect (R32). -/
theorem regWrite_reserved (o : Nat) (v : Word) (s : State) (h : 0x24 ≤ o) : regWrite o v s = s := by
  simp only [regWrite, regAt_reserved o h]

/-- A reserved offset reads 0 (R32). -/
theorem regRead_reserved (o : Nat) (s : State) (h : 0x24 ≤ o) : regRead o s = 0#32 := by
  simp only [regRead, regAt_reserved o h]

/-- The stored capacity is `min(v, DST_MEM_SIZE)`, which is legal (R27). -/
theorem toNat_clampCap (p : Params) (v : Word) : (clampCap p v).toNat = min v.toNat p.dstMemSize := by
  have := v.isLt
  simp only [clampCap, BitVec.toNat_ofNat]
  exact Nat.mod_eq_of_lt (by omega)

/-- Looking up a name after binding one (R109). -/
theorem lookupName_bindName (ns : List (HostName × Word)) (n m : HostName) (v : Word) :
    lookupName (bindName ns n v) m = if m = n then some v else lookupName ns m := by
  induction ns with
  | nil => simp [bindName, lookupName]
  | cons p ns ih =>
    obtain ⟨k, w⟩ := p
    by_cases hk : n = k
    · subst hk; by_cases hm : m = n <;> simp [bindName, lookupName, hm]
    · by_cases hm : m = k
      · subst hm; simp [bindName, lookupName, hk, Ne.symm hk]
      · simp [bindName, lookupName, hk, hm, ih]

/-- The bounds of R7. -/
theorem wf_bounds (p : Params) (h : p.wf = true) :
    1 ≤ p.srcMemSize ∧ p.srcMemSize ≤ 2 ^ 32 - 1 ∧ 1 ≤ p.dstMemSize ∧ p.dstMemSize ≤ 2 ^ 32 - 1 := by
  simp only [Params.wf, Bool.and_eq_true, decide_eq_true_eq] at h
  omega

/-- Everything a host write can do: a command, a register write, a buffer store. -/
theorem hostWrite_cases (a : Access) (v : Word) (s : State) :
    (a.space = .reg ∧ a.addr = 0 ∧ hostWrite a v s = exec (decode v) s)
    ∨ (a.space = .reg ∧ hostWrite a v s = .next (regWrite a.addr v s))
    ∨ (∃ b, a.space = .buf b ∧ hostWrite a v s = .next (hostStore b a.addr (v.setWidth 8) s)) := by
  unfold hostWrite
  cases hs : a.space with
  | reg =>
    by_cases h : regAt a.addr = some .cmd
    · refine .inl ⟨rfl, ?_, by simp [h]⟩
      unfold regAt at h
      split at h <;> simp_all
    · exact .inr (.inl ⟨rfl, by simp [h]⟩)
  | buf b => exact .inr (.inr ⟨b, rfl, rfl⟩)

/-- Everything a host read can do. -/
theorem hostRead_cases (a : Access) (n : HostName) (s : State) :
    (a.space = .reg ∧ hostRead a n s = bindValue n (regRead a.addr s) s)
    ∨ (∃ b, a.space = .buf b ∧ hostRead a n s
        = bindValue n ((hostLoadValue b a.addr s).setWidth 32) (hostLoadRecord b a.addr s)) := by
  unfold hostRead
  cases a.space with
  | reg => exact .inl ⟨rfl, rfl⟩
  | buf b => exact .inr ⟨b, rfl, rfl⟩

/-- A host operation that answers a next state is one of these. -/
theorem hostOp_cases (op : HostOp) (rest : List HostOp) (s t : State) (h : hostOp op rest s = .next t) :
    (∃ a v w, op = .write a v ∧ accessLegal s.params a = true ∧ s.hostValue v = .ok w
      ∧ hostWrite a w (withScript rest s) = .next t)
    ∨ (∃ a n, op = .read a n ∧ accessLegal s.params a = true ∧ t = hostRead a n (withScript rest s))
    ∨ (∃ ops, t = withScript ops (bindValue .scratch s.status s))
    ∨ (∃ ops, t = withScript ops s) := by
  cases op with
  | write a v =>
    refine .inl ⟨a, v, ?_⟩
    simp only [hostOp] at h
    split at h
    · rename_i hl
      split at h
      · rename_i w hw; exact ⟨w, rfl, hl, hw, h⟩
      · cases h
    · cases h
  | read a n =>
    refine .inr (.inl ⟨a, n, rfl, ?_⟩)
    simp only [hostOp] at h
    split at h
    · rename_i hl; exact ⟨hl, (Host.Outcome.next.inj h).symm⟩
    · cases h
  | poll => exact .inr (.inr (.inl ⟨_, (Host.Outcome.next.inj h).symm⟩))
  | waitIrq => exact .inr (.inr (.inr ⟨_, (Host.Outcome.next.inj h).symm⟩))

/-- A step that answers a next state is an event that does, followed by the move passing on. -/
theorem step_eq_next (s t : State) (h : step s = .next t) : ∃ u, event s = .next u ∧ t = advance u := by
  unfold step mapNext at h
  split at h
  · rename_i u hu; exact ⟨u, hu, (Host.Outcome.next.inj h).symm⟩
  · cases h
  · cases h

/-- A step in which the host performs a legal write of a value written out or bound by an earlier read. -/
theorem step_host_write (s : State) (a : Access) (x : HostVal) (w : Word) (rest : List HostOp) (ht : s.turn = .host)
    (hs : s.script = .write a x :: rest) (hv : s.hostValue x = .ok w) (hl : accessLegal s.params a = true) :
    step s = mapNext advance (hostWrite a w (withScript rest s)) := by
  simp [step, event, ht, hostTurn, hs, hostOp, hl, hv]

/-- A step in which the host performs a legal read. -/
theorem step_host_read (s : State) (a : Access) (n : HostName) (rest : List HostOp) (ht : s.turn = .host)
    (hs : s.script = .read a n :: rest) (hl : accessLegal s.params a = true) :
    step s = .next (advance (hostRead a n (withScript rest s))) := by
  simp [step, event, ht, hostTurn, hs, hostOp, hl, mapNext]

/-- The engine's turn with the opcode of a started command latched runs that command. -/
theorem engineTurn_busy (s : State) (i : Instr) (hi : isStarted i = true) (he : s.eng = .busy) (ho : s.lOp = i.op) :
    engineTurn s = exec i s := by
  unfold engineTurn
  cases i <;> first | exact absurd hi (by decide) | simp [he, ho, Instr.op, decodeOp]

/-- Everything the engine's turn can do (R243). -/
theorem engineTurn_cases (s t : State) (h : engineTurn s = .next t) :
    (s.eng = .idle ∧ t = s) ∨ (s.eng = .busy ∧ ∃ i, isStarted i = true ∧ s.lOp = i.op ∧ exec i s = .next t) := by
  cases he : s.eng with
  | idle =>
    simp only [engineTurn, he] at h
    exact .inl ⟨rfl, (Host.Outcome.next.inj h).symm⟩
  | busy =>
    refine .inr ⟨rfl, ?_⟩
    by_cases ho : s.lOp = 0x1#4 ∨ s.lOp = 0x2#4 ∨ s.lOp = 0x3#4 ∨ s.lOp = 0x4#4
    · have key : ∀ i, isStarted i = true → s.lOp = i.op → ∃ i, isStarted i = true ∧ s.lOp = i.op ∧ exec i s = .next t :=
        fun i hi hop => ⟨i, hi, hop, by rw [← engineTurn_busy s i hi he hop]; exact h⟩
      rcases ho with ho | ho | ho | ho
      · exact key .encBest rfl ho
      · exact key .encHuff rfl ho
      · exact key .encRle rfl ho
      · exact key .decode rfl ho
    · simp [engineTurn, he, if_neg ho] at h

/-- Everything an event that answers a next state can be. -/
theorem event_cases (s t : State) (h : event s = .next t) :
    (s.turn = .host ∧ hostTurn s = .next t) ∨ (s.turn = .engine ∧ engineTurn s = .next t)
    ∨ (s.turn = .reset ∧ t = resetMachine s) := by
  unfold event at h
  cases ht : s.turn <;> simp only [ht] at h
  · exact .inl ⟨rfl, h⟩
  · exact .inr (.inl ⟨rfl, h⟩)
  · exact .inr (.inr ⟨rfl, (Host.Outcome.next.inj h).symm⟩)

/-- A run of no steps. -/
theorem core_run_zero (s : State) : Sys2Proof.core.run 0 s = .next s := rfl

/-- A run whose first step answers a next state. -/
theorem core_run_next (k : Nat) (s t : State) (h : step s = .next t) :
    Sys2Proof.core.run (k + 1) s = Sys2Proof.core.run k t := by
  have h' : Sys2Proof.core.step s = .next t := h
  simp only [Host.Core.run, h']

/-- A run whose first step is refused. -/
theorem core_run_refused (k : Nat) (s : State) (r : Refusal) (h : step s = .refused r) :
    Sys2Proof.core.run (k + 1) s = .refused r := by
  have h' : Sys2Proof.core.step s = .refused r := h
  simp only [Host.Core.run, h']

/-- What makes an access legal (R61, R62). -/
theorem accessLegal_iff (p : Params) (a : Access) :
    accessLegal p a = true ↔ match a.space with
      | .reg => a.width = 32 ∧ a.addr % 4 = 0 ∧ a.addr ≤ 0xFC
      | .buf b => a.width = 8 ∧ a.addr < p.size b := by
  unfold accessLegal
  cases a.space <;> simp [and_assoc]

end Sys2Proof.Machine
end

