-- ==== Sys2Proof/Laws/PerInstr.lean ====
section
/-!
SUPPORT. Facts about every command, one lemma per constructor of `Instr`. The family `OpcodeRow`: the command has a row
of the opcode table of its own, with the mask of R92 and its encoding as the pattern.
-/

namespace Sys2Proof.Laws.OpcodeRow

/-- The row of the command stands in the opcode table. -/
def Statement (i : Instr) : Prop := (⟨0x0000000F#32, encode i, i⟩ : OpcodeRow) ∈ opcodeTable

theorem nop : Statement .nop := by unfold Statement; decide
theorem encBest : Statement .encBest := by unfold Statement; decide
theorem encHuff : Statement .encHuff := by unfold Statement; decide
theorem encRle : Statement .encRle := by unfold Statement; decide
theorem decode : Statement .decode := by unfold Statement; decide
theorem reserved5 : Statement .reserved5 := by unfold Statement; decide
theorem reserved6 : Statement .reserved6 := by unfold Statement; decide
theorem reserved7 : Statement .reserved7 := by unfold Statement; decide
theorem reserved8 : Statement .reserved8 := by unfold Statement; decide
theorem reserved9 : Statement .reserved9 := by unfold Statement; decide
theorem reservedA : Statement .reservedA := by unfold Statement; decide
theorem reservedB : Statement .reservedB := by unfold Statement; decide
theorem reservedC : Statement .reservedC := by unfold Statement; decide
theorem reservedD : Statement .reservedD := by unfold Statement; decide
theorem reservedE : Statement .reservedE := by unfold Statement; decide
theorem reservedF : Statement .reservedF := by unfold Statement; decide

end Sys2Proof.Laws.OpcodeRow
end

