-- ==== Sys2Proof/Tests/Slice0.lean ====
section
/-!
SUPPORT. The model's own tests: ill-formed terms the checks refuse, words of the opcode map, the spec's test vectors
(expected values from `95_test_vectors.md`, whose numbers the comments name), and for every statement with hypotheses a
theorem that shows a state and operands meeting all of them together.
-/

namespace Sys2Proof.Tests

open Sys2Proof Sys2Proof.Machine

/-! ## Helpers -/

/-- Small buffers of 64 bytes, so that the tests are small. -/
def small : Params := { srcMemSize := 64, dstMemSize := 64, readings := Readings.reference }

/-- Buffers of the given sizes. -/
def sizes (src dst : Nat) : Params := { srcMemSize := src, dstMemSize := dst, readings := Readings.reference }

/-- Right after reset, with small buffers. -/
def fresh : State := State.resetWith small

/-- Right after reset, with small buffers and a host script. -/
def hostWith (ops : List HostOp) : State := { fresh with script := ops }

/-- The input written, its length in `SRC_LEN`, a command of the given code in flight, the engine to move. -/
def busyWith (op : BitVec 4) (input : List Byte) (cap : Nat) : State :=
  { fresh with
    src := cellsFrom 0 input, srcLen := BitVec.ofNat 32 input.length
    eng := .busy, lOp := op, lSrcLen := BitVec.ofNat 32 input.length, lCap := BitVec.ofNat 32 cap, turn := .engine }

/-- The same command in flight, with the host to move. -/
def busyHost (ops : List HostOp) : State := { busyWith 0x3#4 [0x41#8] 64 with turn := .host, script := ops }

/-- Whether an outcome is a next state with a property. -/
def nextHas (p : State → Bool) : Host.Outcome State Fault Refusal → Bool
  | .next t => p t
  | .fault _ => false
  | .refused _ => false

/-- Whether an outcome is the given refusal. -/
def refusedWith (r : Refusal) : Host.Outcome State Fault Refusal → Bool
  | .next _ => false
  | .fault _ => false
  | .refused q => q == r

theorem exists_of_nextHas {p : State → Bool} {o : Host.Outcome State Fault Refusal} (h : nextHas p o = true) :
    ∃ t, o = .next t ∧ p t = true := by
  cases o with
  | next t => exact ⟨t, rfl, h⟩
  | fault r => cases h
  | refused r => cases h

/-- "ABC". -/
def abc : List Byte := [0x41#8, 0x42#8, 0x43#8]

/-- "ABRACADABRA". -/
def abra : List Byte :=
  [0x41#8, 0x42#8, 0x52#8, 0x41#8, 0x43#8, 0x41#8, 0x44#8, 0x41#8, 0x42#8, 0x52#8, 0x41#8]

/-- "AABABCAC", whose two containers have the same length. -/
def tie : List Byte := [0x41#8, 0x41#8, 0x42#8, 0x41#8, 0x42#8, 0x43#8, 0x41#8, 0x43#8]

/-- E1's Huffman container, of the empty input. -/
def huffEmpty : List Byte := [0x48#8, 0x00#8, 0x04#8, 0x01#8, 0x00#8, 0x01#8, 0x00#8, 0x00#8]

/-- E5's Huffman container, of "ABC". -/
def huffAbc : List Byte :=
  [0x48#8, 0x00#8, 0x10#8, 0x00#8, 0x41#8, 0x02#8, 0x00#8, 0x00#8, 0x42#8, 0x02#8, 0x40#8, 0x00#8, 0x43#8, 0x02#8,
    0x80#8, 0x01#8, 0x00#8, 0x02#8, 0xC0#8, 0x1B#8]

/-- The table bytes and the data of a Huffman container with a one-byte length field. -/
def huffBytes (table data : List Byte) : List Byte :=
  [0x48#8, 0x00#8, BitVec.ofNat 8 table.length] ++ table ++ data

/-- What a `DECODE` of a container reports and gives. -/
def decodes (d : List Byte) (cap : Nat) : ErrKind × Sel × List Byte :=
  ((decodeResult d cap).err, (decodeResult d cap).sel, (decodeResult d cap).out)

/-! ## Ill-formed terms are refused -/

theorem test_params_bounds :
    (sizes 1 (2 ^ 32 - 1)).wf = true ∧ (sizes 0 1).wf = false ∧ (sizes 1 0).wf = false
    ∧ (sizes (2 ^ 32) 1).wf = false ∧ (sizes 1 (2 ^ 32)).wf = false := by decide

theorem test_script_stb_refused :
    ScriptLine.wf small (.stb .src 63 (.lit 255#32)) = true ∧ ScriptLine.wf small (.stb .src 64 (.lit 0#32)) = false
    ∧ ScriptLine.wf small (.stb .dst 0 (.lit 256#32)) = false := by decide

theorem test_script_ldb_refused :
    ScriptLine.wf small (.ldb .dst 63 .scratch) = true ∧ ScriptLine.wf small (.ldb .dst 64 .scratch) = false := by
  decide

theorem test_script_fill_refused :
    ScriptLine.wf small (.fillSrc (List.replicate 64 0#8)) = true
    ∧ ScriptLine.wf small (.fillSrc (List.replicate 65 0#8)) = false := by decide

theorem test_script_dump_refused :
    ScriptLine.wf small (.dumpDst 64 0) = true ∧ ScriptLine.wf small (.dumpDst 65 0) = false := by decide

theorem test_script_copy_refused :
    ScriptLine.wf small (.copyDstToSrc 64) = true ∧ ScriptLine.wf small (.copyDstToSrc 65) = false
    ∧ ScriptLine.wf (sizes 64 8) (.copyDstToSrc 9) = false := by decide

theorem test_stored_value_refused :
    HostVal.fitsByte (.lit 255#32) = true ∧ HostVal.fitsByte (.lit 256#32) = false := by decide

theorem test_every_command_is_well_formed (i : Instr) : i.wf = true := rfl

/-! ## Decoding: words written out from the opcode map (R91) -/

theorem test_decode_commands :
    decode 0b00000000000000000000000000000000#32 = .nop ∧ decode 0b00000000000000000000000000000001#32 = .encBest
    ∧ decode 0b00000000000000000000000000000010#32 = .encHuff
    ∧ decode 0b00000000000000000000000000000011#32 = .encRle
    ∧ decode 0b00000000000000000000000000000100#32 = .decode := by decide

theorem test_decode_reserved :
    decode 0x5#32 = .reserved5 ∧ decode 0x6#32 = .reserved6 ∧ decode 0x7#32 = .reserved7 ∧ decode 0x8#32 = .reserved8
    ∧ decode 0x9#32 = .reserved9 ∧ decode 0xA#32 = .reservedA ∧ decode 0xB#32 = .reservedB
    ∧ decode 0xC#32 = .reservedC ∧ decode 0xD#32 = .reservedD ∧ decode 0xE#32 = .reservedE
    ∧ decode 0xF#32 = .reservedF := by decide

/-- V-CMD5, V-CMD7: the ignored bits. -/
theorem test_decode_ignored_bits : decode 0xFFFFFFF0#32 = .nop ∧ decode 0x00000014#32 = .decode := by decide

theorem test_decode_table_word :
    decodeTableWord 8 0x03 = some .encRle ∧ decodeTableWord 32 0x00000004 = some .decode
    ∧ decodeTableWord 32 0xFFFFFFFF = some .reservedF := by decide

theorem test_encode : encode .encHuff = 0x00000002#32 ∧ encodeWith 0xFFFFFFF#28 .encHuff = 0xFFFFFFF2#32 := by decide

/-! ## Bit writer and bit reader -/

/-- V-BS1 to V-BS7. -/
theorem test_pack :
    pack [] = [] ∧ pack [true] = [0x80#8] ∧ pack [false, true, false, false, true, true, true] = [0x4E#8]
    ∧ pack (List.replicate 8 false) = [0x00#8] ∧ pack (List.replicate 9 true) = [0xFF#8, 0x80#8] := by decide

/-- V-BS8, V-BS10, V-BS11. -/
theorem test_bit_reader :
    bitsOf [0xA0#8] = [true, false, true, false, false, false, false, false]
    ∧ (brBit (brNew [0xA0#8])).1 = some true ∧ (brBit { bytes := [0xA0#8], pos := 2 }).1 = some true
    ∧ (brBit { bytes := [0xA0#8], pos := 7 }).1 = some false ∧ (brBit { bytes := [0xA0#8], pos := 8 }).1 = none
    ∧ (brBit (brNew [])).1 = none := by decide

/-! ## Huffman encoder -/

/-- V-FQ1, V-FQ2. -/
theorem test_freq :
    freq [] = [(.eos, 1)]
    ∧ freq [0x41#8, 0x41#8, 0x42#8] = [(.byte 0x41#8, 2), (.byte 0x42#8, 1), (.eos, 1)] := by decide

/-- V-TR2: the codes of "ABRACADABRA". -/
theorem test_codes_abra :
    codeOf (codeTable abra) (.byte 0x41#8) = some [false] ∧ codeOf (codeTable abra) .eos = some [true, false, false]
    ∧ codeOf (codeTable abra) (.byte 0x42#8) = some [true, false, true]
    ∧ codeOf (codeTable abra) (.byte 0x52#8) = some [true, true, false]
    ∧ codeOf (codeTable abra) (.byte 0x43#8) = some [true, true, true, false]
    ∧ codeOf (codeTable abra) (.byte 0x44#8) = some [true, true, true, true] := by decide

/-- V-TR5, V-TR6. -/
theorem test_codes_corners :
    codeTable [] = [(.eos, [false])] ∧ codeTable [0x41#8] = [(.byte 0x41#8, [false]), (.eos, [true])]
    ∧ codeTable [0x41#8, 0x41#8] = [(.eos, [false]), (.byte 0x41#8, [true])] := by decide

/-- E1, E5: Huffman containers. -/
theorem test_huff_containers :
    (encHuffResult [] 64).out = huffEmpty ∧ (encHuffResult abc 64).out = huffAbc := by decide

/-! ## Run-length codec -/

/-- V-RL1, V-RL3b and the empty input. -/
theorem test_runs_and_split :
    runs [0x61#8, 0x61#8, 0x62#8] = [(0x61#8, 2), (0x62#8, 1)] ∧ runs [] = []
    ∧ split 0x41#8 131070 = [(0x41#8, 65535), (0x41#8, 65535)]
    ∧ split 0x41#8 131071 = [(0x41#8, 65535), (0x41#8, 65535), (0x41#8, 1)] := by decide

/-- E1, E6: run-length containers. -/
theorem test_rle_containers :
    rleEncode [] = [0x52#8]
    ∧ rleEncode [0x41#8, 0x41#8, 0x42#8] = [0x52#8, 0x41#8, 0x00#8, 0x02#8, 0x42#8, 0x00#8, 0x01#8] := by decide

/-! ## Decoders and their errors -/

/-- D1, D2, D5, D7, D8, D9: the marker and the header. -/
theorem test_decode_header :
    decodes [] 64 = (.truncatedInput, .none, []) ∧ decodes [0x00#8] 64 = (.unknownEncodingType, .none, [])
    ∧ decodes [0x48#8, 0x00#8] 64 = (.truncatedInput, .huff, [])
    ∧ decodes [0x48#8, 0x00#8, 0x00#8] 64 = (.corruptCodeTable, .huff, [])
    ∧ decodes (huffEmpty.take 6) 64 = (.truncatedInput, .huff, [])
    ∧ decodes (huffEmpty.take 7) 64 = (.truncatedInput, .huff, []) := by decide

/-- D14 to D18, D22, D23: bad tables. -/
theorem test_decode_bad_tables :
    decodes [0x48#8, 0x00#8, 0x03#8, 0x01#8, 0x00#8, 0x00#8] 64 = (.corruptCodeTable, .huff, [])
    ∧ decodes (huffBytes [0x01#8, 0x00#8, 0x01#8, 0x40#8] [0x00#8]) 64 = (.corruptCodeTable, .huff, [])
    ∧ decodes (huffBytes [0x02#8, 0x00#8, 0x01#8, 0x00#8] [0x00#8]) 64 = (.corruptCodeTable, .huff, [])
    ∧ decodes (huffBytes [0x01#8, 0x01#8, 0x01#8, 0x00#8] [0x00#8]) 64 = (.corruptCodeTable, .huff, [])
    ∧ decodes (huffBytes [0x00#8, 0x41#8, 0x01#8, 0x00#8] [0x00#8]) 64 = (.corruptCodeTable, .huff, [])
    ∧ decodes (huffBytes [0x01#8, 0x00#8, 0x01#8, 0x00#8, 0x01#8, 0x00#8] [0x00#8]) 64
      = (.corruptCodeTable, .huff, [])
    ∧ decodes (huffBytes [0x01#8, 0x00#8, 0x09#8, 0x00#8] [0x00#8]) 64 = (.corruptCodeTable, .huff, []) := by
  decide

/-- D25, D27, D28, D29: entries in any order, trailing bytes, an incomplete table. -/
theorem test_decode_huffman :
    decodes (huffBytes [0x01#8, 0x00#8, 0x01#8, 0x80#8, 0x00#8, 0x41#8, 0x01#8, 0x00#8] [0x40#8]) 64
      = (.none, .huff, [0x41#8])
    ∧ decodes (huffBytes [0x00#8, 0x41#8, 0x01#8, 0x00#8, 0x01#8, 0x00#8, 0x01#8, 0x80#8] [0x40#8, 0xFF#8, 0xFF#8]) 64
      = (.none, .huff, [0x41#8])
    ∧ decodes (huffBytes [0x00#8, 0x41#8, 0x02#8, 0x00#8, 0x01#8, 0x00#8, 0x02#8, 0x40#8] [0xC0#8]) 64
      = (.truncatedInput, .huff, [])
    ∧ decodes (huffBytes [0x00#8, 0x41#8, 0x02#8, 0x00#8, 0x01#8, 0x00#8, 0x02#8, 0x40#8] [0x10#8]) 64
      = (.none, .huff, [0x41#8]) := by decide

/-- D31, D33, D35, D36, D39: run-length containers. -/
theorem test_decode_run_length :
    decodes [0x52#8] 64 = (.none, .rle, [])
    ∧ decodes [0x52#8, 0x41#8, 0x00#8, 0x00#8, 0x42#8, 0x00#8, 0x01#8] 64 = (.none, .rle, [0x42#8])
    ∧ decodes [0x52#8, 0x41#8, 0x00#8] 64 = (.truncatedInput, .rle, [])
    ∧ decodes [0x52#8, 0x41#8, 0x00#8, 0x01#8, 0x42#8, 0x00#8] 64 = (.truncatedInput, .rle, [])
    ∧ decodes [0x52#8, 0x48#8, 0x00#8, 0x01#8] 64 = (.none, .rle, [0x48#8]) := by decide

/-- V-OV1, V-OV2, V-OV4, V-OV5, V-OV6: the capacity of a decode. -/
theorem test_decode_capacity :
    decodes [0x52#8, 0x41#8, 0x00#8, 0x05#8] 4 = (.outputOverflow, .rle, [])
    ∧ decodes [0x52#8, 0x41#8, 0x00#8, 0x04#8] 4 = (.none, .rle, List.replicate 4 0x41#8)
    ∧ decodes [0x52#8, 0x41#8, 0x00#8, 0x00#8] 0 = (.none, .rle, [])
    ∧ decodes huffAbc 2 = (.outputOverflow, .huff, []) ∧ decodes huffAbc 3 = (.none, .huff, abc) := by decide

/-! ## Commands -/

/-- V-CMD4: nothing changes. -/
theorem test_nop : ∀ s ∈ [{ fresh with done := true, sel := .rle, dstLen := 1#32, huffLen := 8#32, rleLen := 1#32 }],
    s.status = 0x00000202#32 ∧ nextHas (fun t => t == s) (exec .nop s) = true := by decide

/-- R28, R29, R30: by their reading the lengths are 0 after `NOP`, and `STATUS` stays. -/
theorem test_nop_clears_lengths : ∀ s ∈ [{ fresh with
      params := { small with readings := { Readings.reference with nopClearsLengths := true } }
      done := true, sel := .rle, dstLen := 1#32, huffLen := 8#32, rleLen := 1#32 }],
    nextHas (fun t => t.status == 0x00000202#32 && t.dstLen == 0#32 && t.huffLen == 0#32 && t.rleLen == 0#32)
      (exec .nop s) = true := by decide

/-- V-CMD8: a start clears the report at once. -/
theorem test_start : nextHas (fun t => t.status == 0x00000001#32 && t.dstLen == 0#32 && t.lOp == 0x3#4)
    (exec .encRle { fresh with done := true, sel := .huff, dstLen := 31#32 }) = true := by decide

/-- V-CMD3: `ENC_BEST` of the empty input. -/
theorem test_enc_best_empty : nextHas (fun t => t.status == 0x00000202#32 && t.dstLen == 1#32 && t.huffLen == 8#32
      && t.rleLen == 1#32 && t.dst == [(0, 0x52#8)])
    (exec .encBest (busyWith 0x1#4 [] 64)) = true := by decide

/-- V-OV13: `ENC_BEST` of "ABRACADABRA" with a capacity one byte short. -/
theorem test_enc_best_overflow : nextHas (fun t => t.status == 0x00000142#32 && t.dstLen == 0#32
      && t.huffLen == 31#32 && t.rleLen == 34#32 && t.dst == [])
    (exec .encBest (busyWith 0x1#4 abra 30)) = true := by decide

/-- V-OV10, V-OV11: `ENC_HUFF` of the empty input at both sides of its capacity. -/
theorem test_enc_huff_capacity :
    nextHas (fun t => t.status == 0x00000142#32 && t.huffLen == 8#32) (exec .encHuff (busyWith 0x2#4 [] 7)) = true
    ∧ nextHas (fun t => t.status == 0x00000102#32 && t.dst == cellsFrom 0 huffEmpty)
      (exec .encHuff (busyWith 0x2#4 [] 8)) = true := by decide

/-- V-OV12: `ENC_RLE` with no capacity. -/
theorem test_enc_rle_overflow : nextHas (fun t => t.status == 0x00000242#32 && t.rleLen == 1#32)
    (exec .encRle (busyWith 0x3#4 [] 0)) = true := by decide

/-- V-CMD11: `InputTooLong`, with nothing read. -/
theorem test_input_too_long : nextHas (fun t => t.status == 0x00000062#32 && t.faults.empty)
    (exec .encRle { busyWith 0x3#4 [] 64 with lSrcLen := 65#32 }) = true := by decide

/-- R232's example, and a byte of `DST` above the output that stays. -/
theorem test_decode_command : nextHas (fun t => t.status == 0x00000202#32 && t.dstLen == 3#32
      && t.dst == [(0, 0x41#8), (1, 0x41#8), (2, 0x41#8), (3, 0x77#8)])
    (exec .decode { busyWith 0x4#4 [0x52#8, 0x41#8, 0x00#8, 0x03#8] 64 with dst := [(1, 0x11#8), (3, 0x77#8)] })
      = true := by decide

/-- V-CMD6: a reserved opcode while idle. -/
theorem test_reserved : nextHas (fun t => t.status == 0x00000052#32 && t.eng == .idle)
    (exec .reserved7 fresh) = true := by decide

/-- V-CMD9: a command written while busy is ignored. -/
theorem test_command_while_busy : nextHas (fun t => t == busyHost []) (exec .encHuff (busyHost [])) = true := by
  decide

/-! ## Host accesses and reset -/

/-- V-CMD1: the registers after reset, in the reference configuration. -/
theorem test_reset_registers :
    regRead 0x00 State.reset = 0#32 ∧ regRead 0x04 State.reset = 0#32 ∧ regRead 0x08 State.reset = 0#32
    ∧ regRead 0x0C State.reset = 0#32 ∧ regRead 0x10 State.reset = 0x00100000#32 ∧ regRead 0x14 State.reset = 0#32
    ∧ regRead 0x18 State.reset = 0#32 ∧ regRead 0x1C State.reset = 0#32
    ∧ regRead 0x20 State.reset = 0x48524C07#32 ∧ regRead 0x24 State.reset = 0#32
    ∧ regRead 0xFC State.reset = 0#32 := by decide

/-- V-CMD2: `DST_CAP` clamps. -/
theorem test_dst_cap_clamps :
    regRead 0x10 (regWrite 0x10 0xFFFFFFFF#32 State.reset) = 0x00100000#32 := by decide

/-- V-CMD12, V-CMD13: `STATUS` is write-1-to-clear at bit 1 alone. -/
theorem test_status_write :
    (regWrite 0x04 0x00000002#32 { fresh with done := true, err := .outputOverflow, sel := .huff }).status
      = 0x00000140#32
    ∧ (regWrite 0x04 0xFFFFFFFD#32 { fresh with done := true, err := .outputOverflow, sel := .huff }).status
      = 0x00000142#32 := by decide

/-- V-CMD15: `irq` falls with `IE`. -/
theorem test_irq : ({ fresh with done := true, ie := true } : State).irq = true
    ∧ (regWrite 0x08 0#32 { fresh with done := true, ie := true }).irq = false
    ∧ (regWrite 0x08 0#32 { fresh with done := true, ie := true }).done = true := by decide

/-- V-CMD16: a read of a byte never written. -/
theorem test_uninit_read : nextHas (fun t => t.faults == { hostHazard := false, uninitRead := true })
    (step { hostWith [.read (bufAccess .src 1) .scratch] with src := [(0, 0x41#8)] }) = true := by decide

/-- V-CMD17: a buffer write while busy. -/
theorem test_host_hazard : nextHas (fun t => t.faults == { hostHazard := true, uninitRead := false }
      && t.dst == [(0, 0x00#8)])
    (step (busyHost [.write (bufAccess .dst 0) (.lit 0#32)])) = true := by decide

/-- V-RST2, V-RST3: reset while busy, with a fault on record. -/
theorem test_reset_event : nextHas (fun t => t.status == 0#32 && t.src == [] && t.dst == [] && t.eng == .idle
      && t.faults == { hostHazard := true, uninitRead := false })
    (step { busyWith 0x1#4 abc 64 with
      turn := .reset, faults := { hostHazard := true, uninitRead := false } }) = true := by decide

/-- The command that `withFetchWord` places is the first thing the machine runs after reset. -/
theorem test_with_fetch_word :
    nextHas (fun t => t.status == 0x00000001#32 && t.lOp == 0x3#4) (step (State.reset.withFetchWord 32 3)) = true
    ∧ nextHas (fun t => t.status == 0x00000052#32) (step (State.reset.withFetchWord 32 9)) = true := by decide

/-- A `NOP` is run too. -/
theorem test_with_fetch_word_nop :
    nextHas (fun t => t == State.reset) (step (State.reset.withFetchWord 32 0)) = true := by decide

/-- R109, R110: the transactions of a script. -/
theorem test_script : expandScript [.fillSrc [0x41#8, 0x42#8], .run .encRle, .clear]
    = [.write ⟨.buf .src, 0, 8⟩ (.lit 0x41#32), .write ⟨.buf .src, 1, 8⟩ (.lit 0x42#32),
      .write ⟨.reg, 0x00, 32⟩ (.lit 3#32), .poll, .write ⟨.reg, 0x04, 32⟩ (.lit 2#32)] := by decide

/-! ## Witnesses: every statement's hypotheses can be met together -/

/-- A command in flight, with its reports clear: the invariant holds. -/
theorem busyWith_inv (op : BitVec 4) (hop : op = 0x1#4 ∨ op = 0x2#4 ∨ op = 0x3#4 ∨ op = 0x4#4) :
    (busyWith op abc 64).Inv := by
  rcases hop with rfl | rfl | rfl | rfl <;>
    exact ⟨by decide, by decide, by decide, by decide, fun _ => rfl, fun _ => by decide, fun _ => by decide,
      fun _ => ⟨rfl, rfl, rfl, rfl, rfl⟩, fun _ h => absurd h (Nat.not_lt_zero _), fun h => absurd rfl h,
      fun h => by cases h⟩

theorem witness_StepRunsTheDecodedCommand_host :
    (hostWith [commandWrite 0xFFFFFFF3#32]).turn = .host
    ∧ (hostWith [commandWrite 0xFFFFFFF3#32]).script = commandWrite 0xFFFFFFF3#32 :: [] := by decide

theorem witness_StepRunsTheDecodedCommand_word : (2 ^ 32 - 1 : Nat) < 2 ^ 32 := by decide

theorem witness_StepRunsTheDecodedCommand_engine : isStarted .decode = true ∧ (busyWith 0x4#4 abc 64).turn = .engine
    ∧ (busyWith 0x4#4 abc 64).eng = .busy ∧ (busyWith 0x4#4 abc 64).lOp = Instr.decode.op := by decide

theorem witness_ResetLeavesTheResetState :
    ({ busyWith 0x4#4 abc 64 with turn := .reset } : State).params.wf = true
    ∧ ({ busyWith 0x4#4 abc 64 with turn := .reset } : State).turn = .reset
    ∧ (0x24 ≤ 0x24 ∧ 0x24 ≤ 0xFC) ∧ (0x24 ≤ 0xFC ∧ 0xFC ≤ 0xFC) := by decide

theorem witness_ResetMeetsTheInvariant :
    (sizes 1 1).wf = true ∧ (sizes (2 ^ 32 - 1) (2 ^ 32 - 1)).wf = true := by decide

/-- One offset for each clause, and both ends of the reserved range. -/
theorem witness_RegisterReadReturnsItsValue :
    ∀ o ∈ [0x00, 0x04, 0x08, 0x0C, 0x10, 0x14, 0x18, 0x1C, 0x20, 0x24, 0xFC],
      (hostWith [.read ⟨.reg, o, 32⟩ .scratch]).turn = .host
      ∧ (hostWith [.read ⟨.reg, o, 32⟩ .scratch]).script = .read ⟨.reg, o, 32⟩ .scratch :: [] ∧ o % 4 = 0
      ∧ o ≤ 0xFC := by decide

/-- One offset for each clause, idle and busy, the value written out or bound. -/
theorem witness_RegisterWriteHasItsEffect :
    ∀ o ∈ [0x00, 0x04, 0x08, 0x0C, 0x10, 0x14, 0x20, 0x24, 0xFC], ∀ x ∈ [HostVal.lit 2#32, .var .scratch],
      ∀ s ∈ [{ hostWith [.write ⟨.reg, o, 32⟩ x] with names := [(.scratch, 2#32)] },
        { busyHost [.write ⟨.reg, o, 32⟩ x] with names := [(.scratch, 2#32)] }],
        s.turn = .host ∧ s.script = .write ⟨.reg, o, 32⟩ x :: [] ∧ s.hostValue x = .ok 2#32 ∧ o % 4 = 0
        ∧ o ≤ 0xFC := by decide

/-- Register accesses: too narrow, misaligned, beyond the window. -/
theorem witness_IllegalAccessHasNoStep_register :
    ∀ x ∈ [(0x04, 8), (0x02, 32), (0x100, 32)],
      (x.2 ≠ 32 ∨ x.1 % 4 ≠ 0 ∨ 0xFC < x.1)
      ∧ refusedWith (.illegalAccess ⟨.reg, x.1, x.2⟩) (step (hostWith [.write ⟨.reg, x.1, x.2⟩ (.lit 0#32)])) = true
      ∧ refusedWith (.illegalAccess ⟨.reg, x.1, x.2⟩) (step (hostWith [.read ⟨.reg, x.1, x.2⟩ .scratch])) = true := by
  decide

/-- Buffer accesses: too wide, and at the size of the buffer. -/
theorem witness_IllegalAccessHasNoStep_buffer :
    ∀ b ∈ [Buf.src, Buf.dst], ∀ x ∈ [(0, 32), (64, 8)], (x.2 ≠ 8 ∨ small.size b ≤ x.1)
      ∧ refusedWith (.illegalAccess ⟨.buf b, x.1, x.2⟩) (step
        (hostWith [.write ⟨.buf b, x.1, x.2⟩ (.lit 0#32)])) = true
      ∧ refusedWith (.illegalAccess ⟨.buf b, x.1, x.2⟩) (step (hostWith [.read ⟨.buf b, x.1, x.2⟩ .scratch])) = true := by
  decide

/-- A value written out, while busy, at both ends of both buffers. -/
theorem witness_HostByteWriteStoresOneByte :
    ∀ b ∈ [Buf.src, Buf.dst], ∀ a ∈ [0, 63], (busyHost [.write ⟨.buf b, a, 8⟩ (.lit 0x41#32)]).turn = .host
      ∧ (busyHost [.write ⟨.buf b, a, 8⟩ (.lit 0x41#32)]).script = .write ⟨.buf b, a, 8⟩ (.lit 0x41#32) :: []
      ∧ (busyHost [.write ⟨.buf b, a, 8⟩ (.lit 0x41#32)]).hostValue (.lit 0x41#32) = .ok 0x41#32
      ∧ a < (busyHost [.write ⟨.buf b, a, 8⟩ (.lit 0x41#32)]).params.size b := by decide

/-- An idle state whose script stores the value bound to `t`, as `COPY` does. -/
def storesBound (v : Word) : State :=
  { hostWith [.write ⟨.buf .src, 63, 8⟩ (.var .scratch)] with names := [(.scratch, v)] }

/-- A bound value, of any width. -/
theorem witness_HostByteWriteStoresOneByte_bound (v : Word) :
    (storesBound v).turn = .host ∧ (storesBound v).script = .write ⟨.buf .src, 63, 8⟩ (.var .scratch) :: []
    ∧ (storesBound v).hostValue (.var .scratch) = .ok v ∧ 63 < (storesBound v).params.size .src :=
  ⟨rfl, rfl, rfl, Nat.le_refl 64⟩

theorem witness_HostByteReadReturnsTheStoredByte_src :
    (busyHost [.read ⟨.buf .src, 0, 8⟩ .scratch]).turn = .host
    ∧ (busyHost [.read ⟨.buf .src, 0, 8⟩ .scratch]).script = .read ⟨.buf .src, 0, 8⟩ .scratch :: []
    ∧ 0 < (busyHost [.read ⟨.buf .src, 0, 8⟩ .scratch]).params.size .src
    ∧ (busyHost [.read ⟨.buf .src, 0, 8⟩ .scratch]).src.get? 0 = some 0x41#8 ∧ (Buf.src = .src) := by decide

theorem witness_HostByteReadReturnsTheStoredByte_dst :
    ∀ s ∈ [{ hostWith [.read ⟨.buf .dst, 63, 8⟩ .scratch] with dst := [(63, 0x41#8)] }],
      s.turn = .host ∧ s.script = .read ⟨.buf .dst, 63, 8⟩ .scratch :: [] ∧ 63 < s.params.size .dst
      ∧ s.dst.get? 63 = some 0x41#8 ∧ s.eng = .idle := by decide

/-- The clause of `DST` while busy. -/
theorem witness_HostByteReadReturnsTheStoredByte_busy :
    ∀ s ∈ [{ busyHost [.read ⟨.buf .dst, 63, 8⟩ .scratch] with dst := [(63, 0x41#8)] }],
      s.turn = .host ∧ s.script = .read ⟨.buf .dst, 63, 8⟩ .scratch :: [] ∧ 63 < s.params.size .dst
      ∧ s.dst.get? 63 = some 0x41#8 ∧ s.eng = .busy
      ∧ nextHas (fun t => t.faults.empty && t.names.length == 1) (step s) = true := by decide

theorem witness_HostReadOfUnwrittenByteIsRecorded :
    ∀ b ∈ [Buf.src, Buf.dst], (hostWith [.read ⟨.buf b, 63, 8⟩ .scratch]).turn = .host
      ∧ (hostWith [.read ⟨.buf b, 63, 8⟩ .scratch]).script = .read ⟨.buf b, 63, 8⟩ .scratch :: []
      ∧ 63 < (hostWith [.read ⟨.buf b, 63, 8⟩ .scratch]).params.size b
      ∧ ((hostWith [.read ⟨.buf b, 63, 8⟩ .scratch]).buf b).get? 63 = none := by decide

/-- `DST` while busy, by either reading. -/
theorem witness_HostReadOfUnwrittenByteIsRecorded_busy :
    ∀ r ∈ [true, false],
      ∀ s ∈ [{ busyHost [.read ⟨.buf .dst, 63, 8⟩ .scratch] with
          params := { small with readings := { Readings.reference with busyReadRecordsUninit := r } } }],
        s.turn = .host ∧ s.script = .read ⟨.buf .dst, 63, 8⟩ .scratch :: [] ∧ 63 < s.params.size .dst
        ∧ s.dst.get? 63 = none ∧ s.eng = .busy
        ∧ nextHas (fun t => t.faults.uninitRead == r) (step s) = true := by decide

theorem witness_HostReadsAreIdempotent : (Buf.src = .src ∨ (busyHost []).eng = .idle)
    ∧ (Buf.dst = .src ∨ fresh.eng = .idle) := by decide

/-- An idle core whose last command left lengths, with the reading of R28 to R30. -/
def clearingNop : State :=
  { fresh with
    params := { small with readings := { Readings.reference with nopClearsLengths := true } }
    done := true, sel := .rle, dstLen := 1#32, huffLen := 8#32, rleLen := 1#32 }

/-- Each clause: busy, either reading while idle, ignored bits. -/
theorem witness_NopChangesNothing :
    (busyHost []).eng = .busy ∧ fresh.params.readings.nopClearsLengths = false
    ∧ (clearingNop.eng = .idle ∧ clearingNop.params.readings.nopClearsLengths = true)
    ∧ 0xFFFFFFF0#32 &&& 0x0000000F#32 = 0#32 := by decide

theorem witness_CommandStartLatchesTheOperands :
    (∀ i ∈ [Instr.encBest, .encHuff, .encRle, .decode], isStarted i = true) ∧ fresh.turn = .host
    ∧ fresh.eng = .idle := by decide

theorem witness_CommandWriteWhileBusyIsIgnored : (busyHost []).turn = .host ∧ (busyHost []).eng = .busy := by decide

theorem witness_ReservedOpcodeRecordsIllegalCommand :
    (∀ i ∈ [Instr.reserved5, .reserved6, .reserved7, .reserved8, .reserved9, .reservedA, .reservedB, .reservedC,
      .reservedD, .reservedE, .reservedF], isReserved i = true) ∧ fresh.eng = .idle := by decide

theorem completing_busyWith (op : BitVec 4) (input : List Byte) (cap : Nat) : completing (busyWith op input cap) :=
  ⟨rfl, rfl, rfl⟩

/-- `ENC_RLE` within its capacity and beyond it. -/
theorem witness_EncRleCompletes :
    (completing (busyWith 0x3#4 abc 10) ∧ inputIs (busyWith 0x3#4 abc 10) abc ∧ ¬ 10 < (rleEncode abc).length)
    ∧ (completing (busyWith 0x3#4 abc 9) ∧ inputIs (busyWith 0x3#4 abc 9) abc ∧ 9 < (rleEncode abc).length) := by
  refine ⟨⟨⟨rfl, rfl, rfl⟩, ?_, ?_⟩, ⟨rfl, rfl, rfl⟩, ?_, ?_⟩ <;> (try unfold inputIs) <;> decide

/-- `ENC_HUFF` within its capacity and beyond it. -/
theorem witness_EncHuffCompletes :
    (completing (busyWith 0x2#4 abc 20) ∧ inputIs (busyWith 0x2#4 abc 20) abc ∧ (encHuffResult abc 20).err = .none)
    ∧ (completing (busyWith 0x2#4 abc 19) ∧ inputIs (busyWith 0x2#4 abc 19) abc
      ∧ (encHuffResult abc 19).err = .outputOverflow) := by
  refine ⟨⟨⟨rfl, rfl, rfl⟩, ?_, ?_⟩, ⟨rfl, rfl, rfl⟩, ?_, ?_⟩ <;> (try unfold inputIs) <;> decide

/-- `ENC_BEST` that keeps the run-length container, that keeps the Huffman container on a tie, and that overflows. -/
theorem witness_EncBestCompletes :
    (completing (busyWith 0x1#4 abc 10) ∧ inputIs (busyWith 0x1#4 abc 10) abc ∧ (encBestResult abc 10).sel = .rle)
    ∧ (completing (busyWith 0x1#4 tie 22) ∧ inputIs (busyWith 0x1#4 tie 22) tie ∧ (encBestResult tie 22).sel = .huff)
    ∧ (completing (busyWith 0x1#4 tie 21) ∧ inputIs (busyWith 0x1#4 tie 21) tie
      ∧ (encBestResult tie 21).err = .outputOverflow) := by
  refine ⟨⟨⟨rfl, rfl, rfl⟩, ?_, ?_⟩, ⟨⟨rfl, rfl, rfl⟩, ?_, ?_⟩, ⟨rfl, rfl, rfl⟩, ?_, ?_⟩ <;> (try unfold inputIs)
    <;> decide

/-- `DECODE` of no byte, of each marker, and of no marker. -/
theorem witness_DecodeCompletes :
    ∀ d ∈ [[], huffAbc, [0x52#8, 0x41#8, 0x00#8, 0x03#8], [0x00#8]],
      completing (busyWith 0x4#4 d 64) ∧ inputIs (busyWith 0x4#4 d 64) d := by
  intro d hd
  refine ⟨⟨rfl, rfl, rfl⟩, ?_⟩
  unfold inputIs
  revert d
  decide

theorem witness_TooLongInputFailsBeforeAnyRead :
    ∀ s ∈ [{ busyWith 0x3#4 [] 64 with lSrcLen := 65#32 }],
      s.turn = .engine ∧ s.eng = .busy ∧ s.tainted = false ∧ s.params.srcMemSize < s.lSrcLen.toNat := by decide

/-- The last byte of the input was never written. -/
theorem witness_ReadingUnwrittenInputIsRecorded :
    ∀ s ∈ [{ busyWith 0x3#4 abc 64 with lSrcLen := 4#32 }],
      s.turn = .engine ∧ s.eng = .busy ∧ Memory.wf s.params.srcMemSize s.src ∧ s.lSrcLen.toNat ≤ s.params.srcMemSize
      ∧ 3 < s.lSrcLen.toNat ∧ s.src.get? 3 = none := by decide

/-- A completion with an output, one with an error, one whose result is not defined. -/
theorem witness_CompletionFrame :
    isStarted .encRle = true ∧ (busyWith 0x3#4 abc 64).turn = .engine ∧ (busyWith 0x3#4 abc 64).eng = .busy
    ∧ (∃ t, exec .encRle (busyWith 0x3#4 abc 64) = .next t ∧ (t.err == .none && t.dstLen == 10#32) = true)
    ∧ (∃ t, exec .encRle (busyWith 0x3#4 abc 9) = .next t ∧ (t.err == .outputOverflow) = true)
    ∧ ∃ t, exec .encRle { busyWith 0x3#4 abc 64 with tainted := true } = .next t ∧ t.done = true :=
  ⟨rfl, rfl, rfl, exists_of_nextHas (by decide), exists_of_nextHas (by decide),
    exists_of_nextHas (p := fun t => t.done) (by decide)⟩

/-- Each encoder on success, an overflow, and a decode. -/
theorem witness_CandidateLengthsAreReported :
    (∃ t, exec .encBest (busyWith 0x1#4 abc 64) = .next t ∧ (t.err == .none && t.huffLen == 20#32) = true)
    ∧ (∃ t, exec .encHuff (busyWith 0x2#4 abc 64) = .next t ∧ (t.err == .none && t.rleLen == 0#32) = true)
    ∧ (∃ t, exec .encRle (busyWith 0x3#4 abc 9) = .next t
      ∧ (t.err == .outputOverflow && t.rleLen == 10#32) = true)
    ∧ (∃ t, exec .decode (busyWith 0x4#4 abc 64) = .next t ∧ (t.err == .unknownEncodingType) = true)
    ∧ (∃ h, huffEncode abc = .ok h) ∧ completing (busyWith 0x1#4 abc 64)
    ∧ inputIs (busyWith 0x1#4 abc 64) abc := by
  refine ⟨exists_of_nextHas (by decide), exists_of_nextHas (by decide),
    exists_of_nextHas (by decide), exists_of_nextHas (by decide), ⟨huffAbc, by decide⟩,
    ⟨rfl, rfl, rfl⟩, ?_⟩
  unfold inputIs
  decide

theorem witness_OperandWritesWhileBusyDoNotReachTheCommand :
    ∀ o ∈ [0x08, 0x0C, 0x10], isStarted .encRle = true ∧ (busyWith 0x3#4 abc 64).turn = .engine
      ∧ (busyWith 0x3#4 abc 64).eng = .busy ∧ (o = 0x08 ∨ o = 0x0C ∨ o = 0x10) := by decide

/-- Two states that agree on the operands and differ elsewhere. -/
theorem witness_ResultDependsOnlyOnTheOperands :
    ∀ s ∈ [busyWith 0x3#4 abc 64], ∀ s' ∈ [{ busyWith 0x3#4 (abc ++ abc) 64 with lSrcLen := 3#32, ie := true }],
      (s.turn = .engine ∧ s.eng = .busy ∧ s.tainted = false) ∧ (s'.turn = .engine ∧ s'.eng = .busy ∧ s'.tainted = false)
      ∧ Memory.wf s.params.srcMemSize s.src ∧ Memory.wf s'.params.srcMemSize s'.src
      ∧ s.params.srcMemSize = s'.params.srcMemSize ∧ s.lSrcLen = s'.lSrcLen ∧ s.lCap = s'.lCap
      ∧ s.lSrcLen.toNat ≤ s.params.srcMemSize
      ∧ (∀ a, a < s.lSrcLen.toNat → s.src.get? a = s'.src.get? a ∧ (s.src.get? a).isSome = true)
      ∧ nextHas (fun _ => true) (exec .encRle s) = true ∧ nextHas (fun _ => true) (exec .encRle s') = true := by
  decide

/-- The clause of a defined input. -/
theorem witness_NoFaultMeansDefinedResult_input : (busyWith 0x3#4 abc 64).Inv
    ∧ ∃ t, exec .encRle (busyWith 0x3#4 abc 64) = .next t ∧ t.faults.empty = true :=
  ⟨busyWith_inv _ (by decide), exists_of_nextHas (p := fun t => t.faults.empty) (by decide)⟩

/-- The clause of an input that is too long. -/
theorem witness_NoFaultMeansDefinedResult_tooLong :
    ({ busyWith 0x3#4 abc 64 with lSrcLen := 65#32 } : State).Inv
    ∧ ∃ t, exec .encRle { busyWith 0x3#4 abc 64 with lSrcLen := 65#32 } = .next t
      ∧ (t.faults.empty && t.err == .inputTooLong) = true :=
  ⟨⟨by decide, by decide, by decide, by decide, fun _ => rfl, fun _ => by decide, fun _ => by decide,
    fun _ => ⟨rfl, rfl, rfl, rfl, rfl⟩, fun _ h => absurd h (Nat.not_lt_zero _), fun h => absurd rfl h,
    fun h => by cases h⟩, exists_of_nextHas (by decide)⟩

theorem witness_UnknownEncodingTypeExactlyForNoMarker :
    ∀ m ∈ [0x00#8, 0x47#8, 0x49#8, 0x51#8, 0x53#8, 0xFF#8],
      (decodeResult [m] 64).err = .unknownEncodingType ∧ m ≠ 0x48#8 ∧ m ≠ 0x52#8 := by decide

theorem witness_CorruptCodeTableExactlyForBadTables :
    (decodeResult [0x48#8, 0x00#8, 0x00#8] 64).err = .corruptCodeTable ∧ 256 * (0x00#8).toNat + (0x00#8).toNat ≤ 0 := by
  decide

/-- The four causes at their boundaries: no byte; a short header; a short table; bit data that ends before `EOS` at the
capacity; a unit with no or one count byte, at the capacity. -/
theorem witness_TruncatedInputExactlyForItsFourCauses :
    (∀ d ∈ [[], [0x48#8], [0x48#8, 0x00#8], huffEmpty.take 6, huffEmpty.take 7,
        huffBytes [0x00#8, 0x41#8, 0x01#8, 0x00#8, 0x01#8, 0x00#8, 0x02#8, 0x80#8] [0x03#8],
        [0x52#8, 0x41#8, 0x00#8, 0x06#8, 0x42#8], [0x52#8, 0x42#8, 0x00#8]],
      (decodeResult d 6).err = .truncatedInput)
    ∧ parseTable [0x00#8, 0x41#8, 0x01#8, 0x00#8, 0x01#8, 0x00#8, 0x02#8, 0x80#8]
      = .ok [(.byte 0x41#8, [false]), (.eos, [true, false])]
    ∧ bitsOf [0x03#8] = codeBits [(.byte 0x41#8, [false]), (.eos, [true, false])] (List.replicate 6 0x41#8)
      ++ [true, true] := by decide

theorem witness_ParserAcceptsExactlyTheWellFormedTables :
    parseTable [0x01#8, 0x00#8, 0x01#8, 0x00#8] = .ok [(.eos, [false])]
    ∧ parseTable [] = .error .corruptCodeTable := ⟨rfl, rfl⟩

theorem witness_DecodeCapacityDecidesOverflow :
    (dispatch [0x52#8, 0x41#8, 0x00#8, 0x01#8] 1).1 = .ok [0x41#8] ∧ (dispatch [0x52#8] 0).1 = .ok [] := ⟨rfl, rfl⟩

/-- The last bit of the last byte of nine bits: a padding bit. -/
theorem witness_PackPlacesEveryBit :
    1 < ((List.replicate 9 true).length + 7) / 8 ∧ 7 < 8
    ∧ (List.replicate 9 true).getD (8 * 1 + 7) false = false := by decide

/-- At the end, and one bit before it. -/
theorem witness_ReaderYieldsTheBitsInOrder :
    (8 : Nat) ≤ 8 * [0xA0#8].length ∧ (8 : Nat) = 8 * [0xA0#8].length ∧ (7 : Nat) < 8 * [0xA0#8].length := by decide

theorem witness_ExtractedNodeHasTheLeastKey :
    ∀ u ∈ [Tree.leaf .eos 1 1], u ∈ Tree.leaf (.byte 0x41#8) 2 0 :: [Tree.leaf .eos 1 1] := by
  decide

/-- Two entries of one table, with different symbols. -/
theorem witness_CodeTablesArePrefixFree :
    (Symbol.byte 0x41#8, [false]) ∈ codeTable [0x41#8] ∧ (Symbol.eos, [true]) ∈ codeTable [0x41#8]
    ∧ Symbol.byte 0x41#8 ≠ .eos := by decide

theorem witness_CodeLengthsAreBounded : abra.length ≤ 2 ^ 32 - 1 ∧ ([] : List Byte).length ≤ 2 ^ 32 - 1 := by decide

theorem witness_ContainerLengths :
    serTable (codeTable []) = .ok [0x01#8, 0x00#8, 0x01#8, 0x00#8] ∧ huffEncode [] = .ok huffEmpty := ⟨rfl, rfl⟩

/-- A run at, one above and far below the largest count. -/
theorem witness_RunsAreMaximalAndSplitFull : 1 ≤ 1 ∧ 1 ≤ 65535 ∧ 1 ≤ 65536
    ∧ split 0x41#8 65535 = [(0x41#8, 65535)] ∧ split 0x41#8 65536 = [(0x41#8, 65535), (0x41#8, 1)] := by
  decide

theorem witness_RunLengthRoundTrip : abc.length ≤ 3 ∧ rleDecode (rleEncode abc) 3 = .ok abc := ⟨by decide, rfl⟩

theorem witness_HuffmanRoundTrip : huffEncode abc = .ok huffAbc ∧ abc.length ≤ 3 := ⟨by decide, by decide⟩

/-- A table of three symbols, an input that fills the room, bits after `EOS`; and a container that decodes. -/
theorem witness_BitsAfterEndOfStreamAreIgnored :
    (∀ C ∈ [[(Symbol.byte 0x41#8, [false]), (.byte 0x42#8, [true, false]), (.eos, [true, true])]],
      (C.map Prod.fst).Nodup ∧ (∀ e ∈ C, e.2 ≠ []) ∧ (∀ e ∈ C, ∀ f ∈ C, e.1 ≠ f.1 → ¬ e.2 <+: f.2)
      ∧ (∀ b ∈ [0x41#8, 0x42#8], (codeOf C (.byte b)).isSome = true) ∧ codeOf C .eos = some [true, true]
      ∧ [0x41#8, 0x42#8].length ≤ 2
      ∧ mapBits C (codeBits C [0x41#8, 0x42#8] ++ [true, true] ++ [true, false]) [] 2 = .ok [0x41#8, 0x42#8])
    ∧ huffDecode huffEmpty 0 = .ok [] := by decide

/-- Run-length wins, Huffman wins, a tie. -/
theorem witness_SelectionIsCorrect :
    ∀ x ∈ [(abc, Sel.rle), (abra, Sel.huff), (tie, Sel.huff)],
      (encHuffResult x.1 64).err = .none ∧ (encBestResult x.1 64).err = .none ∧ (encBestResult x.1 64).sel = x.2 := by
  decide

/-- An input, its encode, and the decode of the copied container. -/
theorem witness_RoundTripLaw :
    small.wf = true ∧ completing (busyWith 0x1#4 abc 10) ∧ inputIs (busyWith 0x1#4 abc 10) abc
    ∧ (∀ h, huffEncode abc = .ok h → min h.length (rleEncode abc).length ≤ (busyWith 0x1#4 abc 10).lCap.toNat)
    ∧ completing (busyWith 0x4#4 (rleEncode abc) 3) ∧ inputIs (busyWith 0x4#4 (rleEncode abc) 3) (rleEncode abc)
    ∧ (∃ t, exec .encBest (busyWith 0x1#4 abc 10) = .next t
      ∧ ((rleEncode abc).length == t.dstLen.toNat
        && (List.range 10).all (fun a => (rleEncode abc)[a]? == t.dst.get? a)) = true)
    ∧ abc.length ≤ (busyWith 0x4#4 (rleEncode abc) 3).lCap.toNat := by
  refine ⟨by decide, ⟨rfl, rfl, rfl⟩, ?_, fun h _ => ?_, ⟨rfl, rfl, rfl⟩, ?_, exists_of_nextHas (by decide), ?_⟩
  · unfold inputIs; decide
  · exact le_trans (min_le_right _ _) (by decide)
  · unfold inputIs; decide
  · decide

theorem witness_StepKeepsTheInvariant :
    (busyWith 0x4#4 abc 64).Inv ∧ ∃ t, step (busyWith 0x4#4 abc 64) = .next t ∧ t.done = true :=
  ⟨busyWith_inv _ (by decide), exists_of_nextHas (p := fun t => t.done) (by decide)⟩

theorem witness_StepNeverFaults : (busyWith 0x1#4 abc 64).Inv := busyWith_inv _ (by decide)

/-- A reset and a host write, with each fault on record. -/
theorem witness_FaultsAreNeverRemoved :
    ∀ s ∈ [{ fresh with turn := .reset, faults := { hostHazard := true, uninitRead := true } },
      { busyHost [.write ⟨.buf .dst, 0, 8⟩ (.lit 0#32)] with faults := { hostHazard := true, uninitRead := true } }],
      s.faults.has .hostHazard = true ∧ s.faults.has .uninitRead = true ∧ nextHas (fun _ => true) (step s) = true := by
  decide

/-- A host write and a reset that change a `SRC` byte. -/
theorem witness_SrcChangesOnlyByHostOrReset :
    (∃ t, step (hostWith [.write ⟨.buf .src, 0, 8⟩ (.lit 0x41#32)]) = .next t
      ∧ (t.src.get? 0 != (hostWith [.write ⟨.buf .src, 0, 8⟩ (.lit 0x41#32)]).src.get? 0) = true)
    ∧ ∃ t, step { busyWith 0x4#4 abc 64 with turn := .reset } = .next t
      ∧ (t.src.get? 0 != (busyWith 0x4#4 abc 64).src.get? 0) = true :=
  ⟨exists_of_nextHas (by decide), exists_of_nextHas (by decide)⟩

theorem witness_HostCannotCancelACommand :
    (busyHost [commandWrite 0#32]).eng = .busy ∧ (busyHost [commandWrite 0#32]).turn = .host
    ∧ nextHas (fun _ => true) (step (busyHost [commandWrite 0#32])) = true := by decide

/-- A completion, and the refusal of a reserved opcode. -/
theorem witness_DoneRisesOnlyAtCompletionOrRefusal :
    (∃ t, step (busyWith 0x3#4 abc 64) = .next t ∧ (!(busyWith 0x3#4 abc 64).done && t.done) = true)
    ∧ ∃ t, step (hostWith [commandWrite 5#32]) = .next t ∧ (!(hostWith [commandWrite 5#32]).done && t.done) = true :=
  ⟨exists_of_nextHas (by decide), exists_of_nextHas (by decide)⟩

/-- The three ways, and a reset. -/
theorem witness_InterruptFallsOnlyInThreeWays :
    ∀ s ∈ [{ hostWith [.write ⟨.reg, 0x04, 32⟩ (.lit 2#32)] with done := true, ie := true },
      { hostWith [.write ⟨.reg, 0x08, 32⟩ (.lit 0#32)] with done := true, ie := true },
      { hostWith [commandWrite 1#32] with done := true, ie := true },
      { fresh with turn := .reset, done := true, ie := true }],
      s.irq = true ∧ nextHas (fun t => !t.irq) (step s) = true := by decide

theorem witness_CommandInFlightCompletes :
    (busyWith 0x3#4 abc 64).Inv ∧ (busyWith 0x3#4 abc 64).eng = .busy := ⟨busyWith_inv _ (by decide), rfl⟩

/-- A line of each kind, at the end of its range. -/
theorem witness_ScriptLinesAreLegalAccesses :
    ∀ l ∈ [ScriptLine.wr .id (.lit 0#32), .rd .cmd .scratch, .stb .src 63 (.lit 255#32), .ldb .dst 63 .scratch,
      .fillSrc (List.replicate 64 0#8), .dumpDst 64 0, .copyDstToSrc 64, .poll, .run .nop, .clear],
      l.wf small = true ∧ expandLine l ≠ [] := by decide

/-- Both branches of `POLL`. -/
theorem witness_PollRepeatsWhileBusy :
    ((hostWith [.poll]).turn = .host ∧ (hostWith [.poll]).script = .poll :: [] ∧ (hostWith [.poll]).eng = .idle)
    ∧ ((busyHost [.poll]).turn = .host ∧ (busyHost [.poll]).script = .poll :: [] ∧ (busyHost [.poll]).eng = .busy) := by
  decide

end Sys2Proof.Tests
end

/-! PROOFS. The invariant: it holds at reset and every step keeps it (one lemma per operation that a step can be). -/

namespace Sys2Proof.Machine

/-! ### At reset -/

/-- At power-on nothing is in flight and nothing is written, so every clause but the two bounds is vacuous. -/
theorem resetWith_inv (p : Params) (hp : p.wf = true) : (State.resetWith p).Inv where
  params := hp
  src := wf_nil _
  dst := wf_nil _
  cap := (BitVec.toNat_ofNat _ _).trans_le (Nat.mod_le _ _)
  notBoth := nofun
  op := nofun
  latchedCap := nofun
  clear := nofun
  written := fun a ha => absurd ha (Nat.not_lt_zero a)
  errLen := fun _ => rfl
  hazard := nofun

/-- Settles O6: the reset state of the reference configuration is the one of its legal sizes. -/
theorem resetMeetsTheInvariant : Obligations.ResetMeetsTheInvariant :=
  ⟨resetWith_inv Params.reference (by decide), resetWith_inv⟩

/-! ### What the operations keep -/

section Operations

variable {s : State}

/-- A reset in mid-run keeps the fault record and the host's own fields, of which the invariant says nothing here. -/
theorem resetMachine_inv (h : s.Inv) : (resetMachine s).Inv :=
  { resetWith_inv s.params h.params with hazard := nofun }

theorem advance_inv (h : s.Inv) : (advance s).Inv := { h with }

theorem withScript_inv (ops : List HostOp) (h : s.Inv) : (withScript ops s).Inv := { h with }

theorem bindValue_inv (n : HostName) (v : Word) (h : s.Inv) : (bindValue n v s).Inv := { h with }

/-- Recording a read adds no byte and removes no fault. -/
theorem hostLoadRecord_inv (b : Buf) (a : Nat) (h : s.Inv) : (hostLoadRecord b a s).Inv :=
  { h with
    hazard := fun ht => ⟨(h.hazard ht).1, has_addIf s.faults .uninitRead .hostHazard _ (h.hazard ht).2⟩ }

/-- The four opcodes that a start latches (R225). -/
theorem started_op (i : Instr) (hi : isStarted i = true) :
    i.op = 0x1#4 ∨ i.op = 0x2#4 ∨ i.op = 0x3#4 ∨ i.op = 0x4#4 := by
  cases i <;> revert hi <;> decide

/-- A start (R225) latches a legal capacity and clears every report. -/
theorem startCommand_inv (i : Instr) (hi : isStarted i = true) (h : s.Inv) : (startCommand i.op s).Inv :=
  { h with
    notBoth := fun _ => rfl
    op := fun _ => started_op i hi
    latchedCap := fun _ => h.cap
    clear := fun _ => ⟨rfl, rfl, rfl, rfl, rfl⟩
    written := fun a ha => absurd ha (Nat.not_lt_zero a)
    errLen := fun _ => rfl
    hazard := nofun }

/-- The refusal of a reserved opcode (R228) sets `DONE`, which only an idle engine may have. -/
theorem recordIllegalCommand_inv (he : s.eng = .idle) (h : s.Inv) : (recordIllegalCommand s).Inv :=
  { h with
    notBoth := fun hb => absurd (he.symm.trans hb) (by decide)
    clear := fun hb => absurd (he.symm.trans hb) (by decide)
    written := fun a ha => absurd ha (Nat.not_lt_zero a)
    errLen := fun _ => rfl }

theorem clearLengthsIf_true_inv (h : s.Inv) : (clearLengthsIf true s).Inv :=
  { h with
    clear := fun hb => ⟨(h.clear hb).1, (h.clear hb).2.1, rfl, rfl, rfl⟩
    written := fun a ha => absurd ha (Nat.not_lt_zero a)
    errLen := fun _ => rfl }

/-- A completion (R240 to R243) of a result within its limits: the output fits the buffer because the latched capacity
does, and every byte that the new `DST_LEN` counts is one of the output. -/
theorem finishCommand_inv (r : CmdResult) (hr : r.within s.cap) (he : s.eng = .busy) (h : s.Inv) :
    (finishCommand r s).Inv := by
  have hfit : r.out.length ≤ s.params.dstMemSize := hr.1.trans (h.latchedCap he)
  refine { h with
    dst := ?_, notBoth := nofun, op := nofun, latchedCap := nofun, clear := nofun, written := ?_,
    errLen := fun hne => if_neg hne, hazard := nofun }
  · simp only [finishCommand_dst, finishCommand_params]
    split
    · exact wf_setPrefix _ _ _ h.dst hfit
    · exact h.dst
  · intro a ha
    by_cases hok : r.err = .none
    · have hlt : a < r.out.length := by
        simp only [finishCommand_dstLen, if_pos hok, BitVec.toNat_ofNat] at ha
        exact ha.trans_le (Nat.mod_le _ _)
      simp [hok, get?_setPrefix, hlt]
    · simp [hok] at ha

/-- A command in any of its events (R225 to R228, R243). -/
theorem exec_inv (i : Instr) {t : State} (ht : exec i s = .next t) (h : s.Inv) : t.Inv ∧ t.params = s.params := by
  obtain hx | ⟨_, _, _, hx⟩ | ⟨_, _, hi, hx⟩ | ⟨he, _, hx⟩ | ⟨he, _, _, hx⟩ := exec_cases i s <;>
    obtain rfl := Host.Outcome.next.inj (hx.symm.trans ht)
  · exact ⟨h, rfl⟩
  · exact ⟨clearLengthsIf_true_inv h, rfl⟩
  · exact ⟨startCommand_inv i hi h, rfl⟩
  · exact ⟨recordIllegalCommand_inv he h, rfl⟩
  · exact ⟨finishCommand_inv _ (commandResult_within i s) he h, rfl⟩

/-- A register write (R235): `DONE` can only fall, and `DST_CAP` is clamped. -/
theorem regWrite_inv (o : Nat) (v : Word) (h : s.Inv) : (regWrite o v s).Inv ∧ (regWrite o v s).params = s.params := by
  obtain hx | ⟨_, hx⟩ | ⟨_, hx⟩ | ⟨_, hx⟩ | ⟨_, hx⟩ := regWrite_cases o v s <;> rw [hx]
  · exact ⟨h, rfl⟩
  · exact ⟨{ h with notBoth := fun hb => by simp [doneAfterStatusWrite, h.notBoth hb] }, rfl⟩
  · exact ⟨{ h with }, rfl⟩
  · exact ⟨{ h with }, rfl⟩
  · exact ⟨{ h with cap := (toNat_clampCap _ _).trans_le (min_le_right _ _) }, rfl⟩

/-- A host byte write taints the command in flight only together with the record of the hazard (R75). -/
theorem hostStore_hazard (b : Buf) (a : Nat) (v : Byte) (h : s.Inv) (ht : (hostStore b a v s).tainted = true) :
    (hostStore b a v s).eng = .busy ∧ (hostStore b a v s).faults.hostHazard = true := by
  cases hb : s.busy with
  | true => exact ⟨(busy_eq_true s).1 hb, by simp [hb]⟩
  | false =>
    have hs : s.tainted = true := by simpa [hb] using ht
    exact absurd (h.hazard hs).1 (by simp [(busy_eq_false s).1 hb])

/-- A host byte write inside the buffer (R237): it writes a byte and unwrites none; while busy it records the hazard
together with the taint. -/
theorem hostStore_inv (b : Buf) (a : Nat) (v : Byte) (ha : a < s.params.size b) (h : s.Inv) :
    (hostStore b a v s).Inv := by
  cases b with
  | src =>
    exact { h with src := wf_set _ _ _ _ h.src ha, hazard := hostStore_hazard .src a v h }
  | dst =>
    refine { h with dst := wf_set _ _ _ _ h.dst ha, written := fun a' ha' => ?_, hazard := hostStore_hazard .dst a v h }
    rw [hostStore_dst, if_pos rfl, get?_set]
    split
    · rfl
    · exact h.written a' ha'

/-- A host write of either kind (R235, R237). -/
theorem hostWrite_inv (a : Access) (v : Word) {t : State} (ha : accessLegal s.params a = true)
    (ht : hostWrite a v s = .next t) (h : s.Inv) : t.Inv ∧ t.params = s.params := by
  obtain ⟨_, _, hx⟩ | ⟨_, hx⟩ | ⟨b, hb, hx⟩ := hostWrite_cases a v s <;> rw [hx] at ht
  · exact exec_inv _ ht h
  · obtain rfl := Host.Outcome.next.inj ht
    exact regWrite_inv _ _ h
  · obtain rfl := Host.Outcome.next.inj ht
    have hlt : a.width = 8 ∧ a.addr < s.params.size b := by simpa [hb] using (accessLegal_iff _ _).1 ha
    exact ⟨hostStore_inv _ _ _ hlt.2 h, rfl⟩

/-- A host read of either kind (R234, R236). -/
theorem hostRead_inv (a : Access) (n : HostName) (h : s.Inv) :
    (hostRead a n s).Inv ∧ (hostRead a n s).params = s.params := by
  obtain ⟨_, hx⟩ | ⟨b, _, hx⟩ := hostRead_cases a n s <;> rw [hx]
  · exact ⟨bindValue_inv _ _ h, rfl⟩
  · exact ⟨bindValue_inv _ _ (hostLoadRecord_inv _ _ h), rfl⟩

/-- An operation of the host, waiting ones included. -/
theorem hostOp_inv (op : HostOp) (rest : List HostOp) {t : State} (ht : hostOp op rest s = .next t) (h : s.Inv) :
    t.Inv ∧ t.params = s.params := by
  obtain ⟨a, v, w, _, ha, _, hx⟩ | ⟨a, n, _, _, rfl⟩ | ⟨ops, rfl⟩ | ⟨ops, rfl⟩ := hostOp_cases op rest s t ht
  · exact hostWrite_inv (s := withScript rest s) a w ha hx (withScript_inv rest h)
  · exact hostRead_inv a n (withScript_inv rest h)
  · exact ⟨withScript_inv _ (bindValue_inv _ _ h), rfl⟩
  · exact ⟨withScript_inv _ h, rfl⟩

end Operations

/-! ### The step -/

theorem hostTurn_inv {s t : State} (ht : hostTurn s = .next t) (h : s.Inv) : t.Inv ∧ t.params = s.params := by
  unfold hostTurn at ht
  split at ht
  · obtain rfl := Host.Outcome.next.inj ht
    exact ⟨h, rfl⟩
  · exact hostOp_inv _ _ ht h

theorem event_inv {s t : State} (ht : event s = .next t) (h : s.Inv) : t.Inv ∧ t.params = s.params := by
  obtain ⟨_, hx⟩ | ⟨_, hx⟩ | ⟨_, rfl⟩ := event_cases s t ht
  · exact hostTurn_inv hx h
  · obtain ⟨_, rfl⟩ | ⟨_, i, _, _, hx⟩ := engineTurn_cases s t hx
    · exact ⟨h, rfl⟩
    · exact exec_inv i hx h
  · exact ⟨resetMachine_inv h, rfl⟩

/-- Settles O51: a step is the event of the agent that moves, each of which keeps the invariant, and passing the move
on touches nothing it speaks of. -/
theorem stepKeepsTheInvariant : Obligations.StepKeepsTheInvariant := by
  intro s t h ht
  obtain ⟨u, hu, rfl⟩ := step_eq_next s t ht
  obtain ⟨hinv, hparams⟩ := event_inv hu h
  exact ⟨advance_inv hinv, hparams⟩

end Sys2Proof.Machine

/-! PROOFS. Two-byte fields, and the run-length codec: decoding inverts encoding (R200 to R207). -/

namespace Sys2Proof.Machine

/-- Reading a two-byte field gives back the number written (R10). -/
theorem be16_ofNat {x : Nat} (hx : x < 65536) : be16 (BitVec.ofNat 8 (x / 256)) (BitVec.ofNat 8 (x % 256)) = x := by
  simp only [be16, BitVec.toNat_ofNat]
  omega

/-- The runs with their lengths spell the scanned bytes, the current run first. -/
theorem runsFrom_spell (cur : Byte) (cnt : Nat) (I : List Byte) :
    (runsFrom cur cnt I).flatMap (fun r => List.replicate r.2 r.1) = List.replicate cnt cur ++ I := by
  induction I generalizing cur cnt with
  | nil => simp [runsFrom]
  | cons b I ih =>
    rw [runsFrom]
    split
    · next h => rw [ih, h, List.replicate_succ', List.append_assoc]; rfl
    · rw [List.flatMap_cons, ih]; rfl

/-- R200: the runs of an input spell it. -/
theorem runs_spell (I : List Byte) : (runs I).flatMap (fun r => List.replicate r.2 r.1) = I := by
  cases I with
  | nil => rfl
  | cons b I => exact runsFrom_spell b 1 I

/-- A unit decodes to as many copies as it counts, when there is room (R204). -/
theorem rleUnits_unit (s : Byte) {k room : Nat} {rest out : List Byte} (hk : k < 65536) (hroom : k ≤ room)
    (h : rleUnits rest (room - k) = .ok out) :
    rleUnits (unit s k ++ rest) room = .ok (List.replicate k s ++ out) := by
  simp only [unit, u16be, List.cons_append, List.nil_append, rleUnits, be16_ofNat hk, if_neg (Nat.not_lt.2 hroom), h]
  rfl

/-- The units of one run (R201): each full-capacity unit takes its 65535 copies off the run. -/
theorem rleUnits_splitLoop (n : Nat) (s : Byte) {r room : Nat} {rest out : List Byte} (hr : r < 65535 * (n + 1))
    (hroom : r ≤ room) (h : rleUnits rest (room - r) = .ok out) :
    rleUnits ((splitLoop n s r).flatMap (fun u => unit u.1 u.2) ++ rest) room = .ok (List.replicate r s ++ out) := by
  induction n generalizing r room with
  | zero => simpa [splitLoop] using rleUnits_unit s (by omega) hroom h
  | succ n ih =>
    rw [splitLoop]
    split
    · next hfull =>
      simp only [rleCountMax] at hfull ⊢
      have hrest := ih (r := r - 65535) (room := room - 65535) (by omega) (by omega)
        (by rwa [show room - 65535 - (r - 65535) = room - r by omega])
      rw [List.flatMap_cons, List.append_assoc, rleUnits_unit s (by omega) (by omega) hrest, ← List.append_assoc,
        List.replicate_append_replicate, Nat.add_sub_cancel' (by omega)]
    · next hlast => simpa using rleUnits_unit s (by simp only [rleCountMax] at hlast; omega) hroom h

/-- The units of a list of runs decode to what the runs spell. -/
theorem rleUnits_unitsOf (rs : List (Byte × Nat)) {room : Nat}
    (h : (rs.flatMap (fun r => List.replicate r.2 r.1)).length ≤ room) :
    rleUnits (unitsOf rs) room = .ok (rs.flatMap (fun r => List.replicate r.2 r.1)) := by
  induction rs generalizing room with
  | nil => rfl
  | cons e rs ih =>
    obtain ⟨s, r⟩ := e
    simp only [List.flatMap_cons, List.length_append, List.length_replicate] at h
    have hsplit : r < 65535 * (r / 65535 + 1) := by omega
    exact rleUnits_splitLoop _ s hsplit (by omega) (ih (by omega))

/-- R203, R204: the run-length round trip. -/
theorem rleDecode_rleEncode (I : List Byte) {cap : Nat} (h : I.length ≤ cap) :
    rleDecode (rleEncode I) cap = .ok I := by
  have := rleUnits_unitsOf (runs I) (room := cap) (by rwa [runs_spell])
  rwa [runs_spell] at this

end Sys2Proof.Machine

/-! PROOFS. The bit strings: packing and its inverse (R11, R133, R135). -/

namespace Sys2Proof.Machine

/-- Eight bits survive the way into a byte and back (R11). -/
theorem bitsMSB_ofNat_bitsValue (l : Bits) (h : l.length = 8) : bitsMSB (BitVec.ofNat 8 (bitsValue l)) = l := by
  match l, h with
  | [b7, b6, b5, b4, b3, b2, b1, b0], _ =>
    revert b7 b6 b5 b4 b3 b2 b1 b0
    decide

/-- A byte of at most eight bits holds them, bit 7 first, then zeros (R133). -/
theorem bitsMSB_byteOfBits (s : Bits) (h : s.length ≤ 8) :
    bitsMSB (byteOfBits s) = s ++ List.replicate (8 - s.length) false :=
  bitsMSB_ofNat_bitsValue _ (by simp; omega)

theorem pack_short (s : Bits) (h0 : s ≠ []) (h : s.length < 8) : pack s = [byteOfBits s] := by
  unfold pack
  split
  · contradiction
  · simp at h; omega
  · rfl

theorem length_bitsOf (q : List Byte) : (bitsOf q).length = 8 * q.length := by
  induction q with
  | nil => rfl
  | cons b q ih => simp [bitsOf, bitsMSB, ih]; omega

/-- R133, R135: packing keeps every bit in its place and pads with zeros. -/
theorem bitsOf_pack (s : Bits) : bitsOf (pack s) = s ++ List.replicate (8 * ceil8 s.length - s.length) false := by
  induction s using pack.induct with
  | case1 => rfl
  | case2 b7 b6 b5 b4 b3 b2 b1 b0 rest ih =>
    rw [pack, bitsOf, bitsMSB_byteOfBits _ (by simp), ih]
    simp [ceil8]
    omega
  | case3 s h0 h8 =>
    have hlt : s.length < 8 := by
      by_contra hge
      have hlen : (s.take 8).length = 8 := List.length_take_of_le (by omega)
      match htake : s.take 8, hlen with
      | [_, _, _, _, _, _, _, _], _ =>
        exact h8 _ _ _ _ _ _ _ _ (s.drop 8) ((List.take_append_drop 8 s).symm.trans (by rw [htake]; rfl))
    have hpos : 0 < s.length := List.length_pos_iff.2 h0
    rw [pack_short s h0 hlt, bitsOf, bitsOf, List.append_nil, bitsMSB_byteOfBits s hlt.le,
      show ceil8 s.length = 1 by unfold ceil8; omega]

theorem length_pack (s : Bits) : (pack s).length = ceil8 s.length := by
  have h := congrArg List.length (bitsOf_pack s)
  simp only [length_bitsOf, List.length_append, List.length_replicate, ceil8] at h ⊢
  omega

end Sys2Proof.Machine

/-! PROOFS. Code tables: looking a code up, mapping bits back to symbols (R188 to R192), and parsing a serialized table
(R162, R181 to R187). -/

namespace Sys2Proof.Machine

/-! ### Looking up -/

theorem codeOf_isSome_iff (C : CodeTable) (s : Symbol) : (codeOf C s).isSome = true ↔ s ∈ C.map Prod.fst := by
  induction C with
  | nil => simp [codeOf]
  | cons e C ih =>
    obtain ⟨t, c⟩ := e
    by_cases h : s = t <;> simp [codeOf, h, ih]

theorem codeOf_eq_some_iff {C : CodeTable} (hC : (C.map Prod.fst).Nodup) (s : Symbol) (c : Bits) :
    codeOf C s = some c ↔ (s, c) ∈ C := by
  induction C with
  | nil => simp [codeOf]
  | cons e C ih =>
    obtain ⟨t, d⟩ := e
    obtain ⟨hnot, hC⟩ := List.nodup_cons.1 hC
    by_cases h : s = t
    · subst h
      have hs : (s, c) ∉ C := fun hmem => hnot (List.mem_map.2 ⟨_, hmem, rfl⟩)
      simp [codeOf, hs, eq_comm]
    · simp [codeOf, h, ih hC]

/-- The order of the entries does not matter for looking a code up. -/
theorem codeOf_perm {C D : CodeTable} (hC : (C.map Prod.fst).Nodup) (h : C.Perm D) : codeOf C = codeOf D := by
  funext s
  refine Option.ext fun c => ?_
  rw [codeOf_eq_some_iff hC, codeOf_eq_some_iff ((h.map _).nodup hC), h.mem_iff]

theorem codeBits_congr {C D : CodeTable} (h : codeOf C = codeOf D) (I : List Byte) : codeBits C I = codeBits D I := by
  induction I with
  | nil => rfl
  | cons b I ih => rw [codeBits, codeBits, ih, h]

theorem symbolOf_eq_none {C : CodeTable} {acc : Bits} (h : ∀ e ∈ C, acc ≠ e.2) : symbolOf C acc = none := by
  induction C with
  | nil => rfl
  | cons e C ih =>
    rw [symbolOf, if_neg (h e (by simp))]
    exact ih fun f hf => h f (List.mem_cons_of_mem _ hf)

theorem symbolOf_mem {C : CodeTable} {s : Symbol} {c : Bits} (h : (s, c) ∈ C) :
    ∃ t, symbolOf C c = some t ∧ (t, c) ∈ C := by
  induction C with
  | nil => cases h
  | cons e C ih =>
    obtain ⟨t, d⟩ := e
    by_cases hd : c = d
    · exact ⟨t, by simp [symbolOf, hd], by simp [hd]⟩
    · obtain ⟨t', ht', hmem⟩ := ih ((List.mem_cons.1 h).resolve_left fun he => hd (Prod.mk.inj he).2)
      exact ⟨t', by simpa [symbolOf, hd] using ht', List.mem_cons_of_mem _ hmem⟩

/-! ### Prefix codes -/

/-- What R161 promises of a code table, and R185 and R187 check: no symbol twice, no code empty, no code that begins
another symbol's. -/
structure IsPrefixCode (C : CodeTable) : Prop where
  nodup : (C.map Prod.fst).Nodup
  nonempty : ∀ e ∈ C, e.2 ≠ []
  prefixFree : ∀ e ∈ C, ∀ f ∈ C, e.1 ≠ f.1 → ¬ e.2 <+: f.2

theorem IsPrefixCode.perm {C D : CodeTable} (hC : IsPrefixCode C) (h : C.Perm D) : IsPrefixCode D where
  nodup := (h.map _).nodup hC.nodup
  nonempty := fun e he => hC.nonempty e (h.mem_iff.2 he)
  prefixFree := fun e he f hf => hC.prefixFree e (h.mem_iff.2 he) f (h.mem_iff.2 hf)

section PrefixCode

variable {C : CodeTable} (hC : IsPrefixCode C) {s : Symbol} {c : Bits} (hs : (s, c) ∈ C)
include hC hs

/-- R188: a code is mapped back to its own symbol. -/
theorem symbolOf_code : symbolOf C c = some s := by
  obtain ⟨t, ht, hmem⟩ := symbolOf_mem hs
  by_cases h : t = s
  · rw [ht, h]
  · exact absurd (List.prefix_refl c) (hC.prefixFree _ hmem _ hs h)

/-- A proper part at the head of a code is nobody's code. -/
theorem symbolOf_proper_prefix {acc : Bits} (hp : acc <+: c) (hne : acc ≠ c) : symbolOf C acc = none := by
  refine symbolOf_eq_none fun e he hacc => ?_
  by_cases h : e.1 = s
  · have h1 : codeOf C s = some c := (codeOf_eq_some_iff hC.nodup _ _).2 hs
    have h2 : codeOf C s = some acc := (codeOf_eq_some_iff hC.nodup _ _).2 (by rwa [← h, hacc])
    exact hne (Option.some.inj (h2.symm.trans h1))
  · exact hC.prefixFree e he _ hs h (hacc ▸ hp)

/-- While the bits of one code are read, the mapper emits nothing before the last of them. -/
theorem mapBits_skip (acc d : Bits) (x : Bool) (more : Bits) (room : Nat) (hc : c = acc ++ d ++ [x]) :
    mapBits C (d ++ x :: more) acc room = mapBits C (x :: more) (acc ++ d) room := by
  induction d generalizing acc with
  | nil => simp
  | cons y d ih =>
    have hnone : symbolOf C (acc ++ [y]) = none :=
      symbolOf_proper_prefix hC hs ⟨d ++ [x], by simp [hc]⟩ (by simp [hc])
    rw [List.cons_append, mapBits, hnone]
    simpa using ih (acc ++ [y]) (by simp [hc])

/-- The mapper at the last bit of a code. -/
theorem mapBits_code (more : Bits) (room : Nat) :
    ∃ acc x, acc ++ [x] = c ∧ mapBits C (c ++ more) [] room = mapBits C (x :: more) acc room := by
  obtain h | ⟨acc, x, h⟩ := c.eq_nil_or_concat
  · exact absurd h (hC.nonempty _ hs)
  · rw [List.concat_eq_append] at h
    exact ⟨acc, x, h.symm, by simpa [h] using mapBits_skip hC hs [] acc x more room (by simp [h])⟩

end PrefixCode

/-- R190: the code of `EOS` ends the decode, whatever follows. -/
theorem mapBits_eos {C : CodeTable} (hC : IsPrefixCode C) {c : Bits} (hs : (.eos, c) ∈ C) (more : Bits) (room : Nat) :
    mapBits C (c ++ more) [] room = .ok [] := by
  obtain ⟨acc, x, h, hmap⟩ := mapBits_code hC hs more room
  rw [hmap, mapBits, h, symbolOf_code hC hs]

/-- R189: the code of a byte emits the byte, when there is room. -/
theorem mapBits_byte {C : CodeTable} (hC : IsPrefixCode C) {b : Byte} {c : Bits} (hs : (.byte b, c) ∈ C) {more : Bits}
    {room : Nat} {out : List Byte} (hmore : mapBits C more [] room = .ok out) :
    mapBits C (c ++ more) [] (room + 1) = .ok (b :: out) := by
  obtain ⟨acc, x, h, hmap⟩ := mapBits_code hC hs more (room + 1)
  rw [hmap, mapBits, h, symbolOf_code hC hs]
  simp only [hmore]
  rfl

/-- R163, R189, R190: the codes of some bytes, the code of `EOS` and any more bits decode to those bytes. -/
theorem mapBits_codeBits {C : CodeTable} (hC : IsPrefixCode C) {I : List Byte}
    (hI : ∀ b ∈ I, (codeOf C (.byte b)).isSome = true) {c : Bits} (hc : codeOf C .eos = some c) (more : Bits)
    {room : Nat} (hroom : I.length ≤ room) : mapBits C (codeBits C I ++ c ++ more) [] room = .ok I := by
  induction I generalizing room with
  | nil => exact mapBits_eos hC ((codeOf_eq_some_iff hC.nodup _ _).1 hc) more room
  | cons b I ih =>
    obtain ⟨d, hd⟩ := Option.isSome_iff_exists.1 (hI b (by simp))
    obtain ⟨room, rfl⟩ : ∃ k, room = k + 1 := ⟨room - 1, by simp at hroom; omega⟩
    have hrest := ih (fun b' hb' => hI b' (List.mem_cons_of_mem _ hb')) (Nat.le_of_succ_le_succ hroom)
    simpa [codeBits, hd] using mapBits_byte hC ((codeOf_eq_some_iff hC.nodup _ _).1 hd) hrest

/-! ### Serialized tables -/

/-- R182: the two symbol bytes of an entry name the symbol. -/
theorem checkSymbol_num (s : Symbol) :
    checkSymbol (BitVec.ofNat 8 (s.num / 256)) (BitVec.ofNat 8 (s.num % 256)) = .ok s := by
  cases s with
  | eos => rfl
  | byte b =>
    have hb : b.toNat < 256 := b.isLt
    simp [checkSymbol, Symbol.num, Nat.div_eq_of_lt hb, Nat.mod_eq_of_lt hb]

/-- R184: the code bytes of an entry give back the code. -/
theorem codeBitsOf_pack (c : Bits) : codeBitsOf (pack c) c.length = .ok c := by
  simp [codeBitsOf, bitsOf_pack]

/-- R181: an entry is read back from the bytes that serialize it. -/
theorem parseEntry_serEntry (s : Symbol) {c : Bits} (h1 : 1 ≤ c.length) (h2 : c.length ≤ 255) (rest : List Byte) :
    parseEntry (serEntry s c ++ rest) = .ok ((s, c), rest) := by
  have hlen : (BitVec.ofNat 8 c.length).toNat = c.length := by simp only [BitVec.toNat_ofNat]; omega
  have hcheck : checkLength (BitVec.ofNat 8 c.length) = .ok () :=
    if_neg fun h => by have := congrArg BitVec.toNat h; simp only [hlen, BitVec.toNat_ofNat] at this; omega
  have hpack : (pack c).length = ceil8 c.length := length_pack c
  have hroom : ¬ (pack c ++ rest).length < ceil8 c.length := by simp [hpack]
  simp only [serEntry, u16be, List.cons_append, List.nil_append, parseEntry, checkSymbol_num, hcheck,
    hlen, if_neg hroom, List.take_left' hpack, List.drop_left' hpack, codeBitsOf_pack]

theorem exceptMap_eq_ok_iff {ε α β : Type} (f : α → β) (x : Except ε α) (b : β) :
    x.map f = .ok b ↔ ∃ a, x = .ok a ∧ f a = b := by
  cases x <;> simp [Except.map]

/-- The serialized entries of a table, in the order given (R162). -/
theorem serEntries_eq_ok (C : CodeTable) (tb : List Byte) :
    serEntries C = .ok tb ↔ (∀ e ∈ C, e.2.length ≤ 255) ∧ tb = C.flatMap (fun e => serEntry e.1 e.2) := by
  induction C generalizing tb with
  | nil => simp [serEntries, eq_comm]
  | cons e C ih =>
    obtain ⟨s, c⟩ := e
    rw [serEntries]
    split
    · next hlong => simp only [maxCodeLen] at hlong; simp; omega
    · next hshort =>
      simp only [exceptMap_eq_ok_iff, ih, List.forall_mem_cons, List.flatMap_cons]
      exact ⟨fun ⟨out, ⟨hC, hout⟩, htb⟩ => ⟨⟨Nat.not_lt.1 hshort, hC⟩, by rw [← htb, hout]⟩,
        fun ⟨⟨_, hC⟩, htb⟩ => ⟨_, ⟨hC, rfl⟩, htb.symm⟩⟩

/-- R181, R185: the entries of a table with no symbol twice are read back, in their order. -/
theorem parseEntries_serEntry (E D : CodeTable) (n : Nat) (hD : ((D ++ E).map Prod.fst).Nodup)
    (hlen : ∀ e ∈ E, 1 ≤ e.2.length ∧ e.2.length ≤ 255)
    (hn : (E.flatMap (fun e => serEntry e.1 e.2)).length ≤ n) :
    parseEntries n (E.flatMap (fun e => serEntry e.1 e.2)) D = .ok (D ++ E) := by
  induction E generalizing D n with
  | nil => cases n <;> simp [parseEntries]
  | cons e E ih =>
    obtain ⟨s, c⟩ := e
    obtain ⟨h1, h2⟩ := hlen (s, c) (by simp)
    have hnew : ¬ (codeOf D s).isSome = true := by
      rw [codeOf_isSome_iff]
      rw [List.map_append, List.nodup_append] at hD
      exact fun hs => hD.2.2 s hs s (by simp) rfl
    have hparse := parseEntry_serEntry s h1 h2 (E.flatMap (fun e => serEntry e.1 e.2))
    simp only [List.flatMap_cons, List.length_append] at hn
    have hlong : 3 ≤ (serEntry s c).length := by simp [serEntry, u16be]
    obtain ⟨n, rfl⟩ : ∃ k, n = k + 1 := ⟨n - 1, by omega⟩
    have hrest := ih (D ++ [(s, c)]) n (by simpa using hD) (fun e he => hlen e (List.mem_cons_of_mem _ he)) (by omega)
    obtain ⟨b, tb, htb⟩ : ∃ b tb, serEntry s c ++ E.flatMap (fun e => serEntry e.1 e.2) = b :: tb := ⟨_, _, rfl⟩
    rw [List.flatMap_cons, htb, parseEntries, ← htb, hparse]
    simpa [hnew] using hrest

/-- R181 to R187: the bytes of a table that has an entry for `EOS` and passes the checks parse to that table. -/
theorem parseTable_serEntry {E : CodeTable} (hE : IsPrefixCode E) (heos : Symbol.eos ∈ E.map Prod.fst)
    (hlen : ∀ e ∈ E, e.2.length ≤ 255) : parseTable (E.flatMap (fun e => serEntry e.1 e.2)) = .ok E := by
  have hpos : ∀ e ∈ E, 1 ≤ e.2.length ∧ e.2.length ≤ 255 := fun e he =>
    ⟨List.length_pos_iff.2 (hE.nonempty e he), hlen e he⟩
  have hentries := parseEntries_serEntry E [] _ hE.nodup hpos le_rfl
  have hchecks : (hasEos E && prefixFree E) = true := by
    rw [Bool.and_eq_true]
    refine ⟨(codeOf_isSome_iff _ _).2 heos, ?_⟩
    simp only [prefixFree, List.all_eq_true, Bool.or_eq_true, beq_iff_eq, Bool.not_eq_true', ← Bool.not_eq_true,
      List.isPrefixOf_iff_prefix]
    exact fun e he f hf => or_iff_not_imp_left.2 (hE.prefixFree e he f hf)
  simp only [parseTable, hentries, List.nil_append, if_pos hchecks]

/-- R180: the header of a Huffman container leads to its table and its bit data. -/
theorem huffDecode_huffContainer {tb : List Byte} {C : CodeTable} (hlen : tb.length < 65536)
    (htb : parseTable tb = .ok C) (data : List Byte) (cap : Nat) :
    huffDecode (huffContainer tb data) cap = mapSymbols C data cap := by
  have hroom : ¬ (tb ++ data).length < tb.length := by simp
  simp only [huffContainer, u16be, List.cons_append, List.nil_append, huffDecode, be16_ofNat hlen,
    if_neg hroom, List.take_left', List.drop_left', htb]

end Sys2Proof.Machine

/-! PROOFS. The frequency table (R150, R151). -/

namespace Sys2Proof.Machine

theorem Symbol.num_le (s : Symbol) : s.num ≤ 256 := by
  cases s with
  | byte b => exact b.isLt.le
  | eos => exact le_rfl

theorem Symbol.num_injective : Function.Injective Symbol.num := by
  intro s t h
  cases s with
  | eos => cases t with
    | eos => rfl
    | byte c => exact absurd h (Nat.ne_of_gt c.isLt)
  | byte b => cases t with
    | eos => exact absurd h (Nat.ne_of_lt b.isLt)
    | byte c => exact congrArg _ (BitVec.eq_of_toNat_eq h)

/-- R14: the entries of a frequency table stand in ascending symbol number. -/
abbrev FreqTable.Ascending (F : FreqTable) : Prop := F.Pairwise (fun e f => e.1.num < f.1.num)

theorem mem_keys_countSymbol (s t : Symbol) (F : FreqTable) :
    t ∈ (countSymbol s F).map Prod.fst ↔ t = s ∨ t ∈ F.map Prod.fst := by
  induction F with
  | nil => simp [countSymbol]
  | cons e F ih =>
    obtain ⟨u, c⟩ := e
    rw [countSymbol]
    split
    · next h => simp [h]
    · split
      · simp
      · rw [List.map_cons, List.mem_cons, ih, List.map_cons, List.mem_cons]; exact or_left_comm

/-- R150: counting a symbol adds one to the sum of the counts. -/
theorem sum_countSymbol (s : Symbol) (F : FreqTable) :
    ((countSymbol s F).map Prod.snd).sum = (F.map Prod.snd).sum + 1 := by
  induction F with
  | nil => rfl
  | cons e F ih =>
    obtain ⟨u, c⟩ := e
    rw [countSymbol]
    split
    · simp; omega
    · split
      · simp; omega
      · simp [ih]; omega

theorem countSymbol_pos {s : Symbol} {F : FreqTable} (hF : ∀ e ∈ F, 1 ≤ e.2) : ∀ e ∈ countSymbol s F, 1 ≤ e.2 := by
  induction F with
  | nil => simp [countSymbol]
  | cons e F ih =>
    obtain ⟨u, c⟩ := e
    obtain ⟨hc, hF⟩ := List.forall_mem_cons.1 hF
    rw [countSymbol]
    split
    · exact List.forall_mem_cons.2 ⟨Nat.le_add_left 1 c, hF⟩
    · split
      · exact List.forall_mem_cons.2 ⟨le_rfl, List.forall_mem_cons.2 ⟨hc, hF⟩⟩
      · exact List.forall_mem_cons.2 ⟨hc, ih hF⟩

theorem countSymbol_ascending (s : Symbol) {F : FreqTable} (hF : F.Ascending) : (countSymbol s F).Ascending := by
  induction F with
  | nil => simp [countSymbol]
  | cons e F ih =>
    obtain ⟨u, c⟩ := e
    obtain ⟨hu, hF'⟩ := List.pairwise_cons.1 hF
    rw [countSymbol]
    split
    · exact List.pairwise_cons.2 ⟨hu, hF'⟩
    · next hne =>
      split
      · next hlt =>
        exact List.pairwise_cons.2 ⟨List.forall_mem_cons.2 ⟨hlt, fun e he => hlt.trans (hu e he)⟩, hF⟩
      · next hge =>
        refine List.pairwise_cons.2 ⟨fun e he => ?_, ih hF'⟩
        obtain hs | hmem := (mem_keys_countSymbol s e.1 F).1 (List.mem_map_of_mem he)
        · have : s.num ≠ u.num := fun h => hne (Symbol.num_injective h)
          rw [hs]; show u.num < s.num; omega
        · obtain ⟨f, hf, hfe⟩ := List.mem_map.1 hmem
          exact hfe ▸ hu f hf

/-- The scan of R150, one byte at a time. -/
theorem countBytes_concat (I : List Byte) (b : Byte) :
    countBytes (I ++ [b]) = countSymbol (.byte b) (countBytes I) := by
  simp [countBytes]

theorem mem_keys_countBytes (I : List Byte) (t : Symbol) :
    t ∈ (countBytes I).map Prod.fst ↔ ∃ b ∈ I, t = .byte b := by
  induction I using List.reverseRecOn with
  | nil => simp [countBytes]
  | append_singleton I b ih =>
    rw [countBytes_concat, mem_keys_countSymbol, ih]
    simp [or_and_right, exists_or, or_comm]

theorem sum_countBytes (I : List Byte) : ((countBytes I).map Prod.snd).sum = I.length := by
  induction I using List.reverseRecOn with
  | nil => rfl
  | append_singleton I b ih => rw [countBytes_concat, sum_countSymbol, ih, List.length_append, List.length_singleton]

theorem countBytes_pos (I : List Byte) : ∀ e ∈ countBytes I, 1 ≤ e.2 := by
  induction I using List.reverseRecOn with
  | nil => simp [countBytes]
  | append_singleton I b ih => rw [countBytes_concat]; exact countSymbol_pos ih

theorem countBytes_ascending (I : List Byte) : (countBytes I).Ascending := by
  induction I using List.reverseRecOn with
  | nil => exact List.Pairwise.nil
  | append_singleton I b ih => rw [countBytes_concat]; exact countSymbol_ascending _ ih

/-- The symbols of an input: its bytes and `EOS` (R151). -/
theorem mem_keys_freq (I : List Byte) (t : Symbol) :
    t ∈ (freq I).map Prod.fst ↔ (∃ b ∈ I, t = .byte b) ∨ t = .eos := by
  rw [freq, List.map_append, List.mem_append, mem_keys_countBytes]
  simp

theorem sum_freq (I : List Byte) : ((freq I).map Prod.snd).sum = I.length + 1 := by
  simp [freq, sum_countBytes]

theorem freq_pos (I : List Byte) : ∀ e ∈ freq I, 1 ≤ e.2 := by
  intro e he
  obtain he | he := List.mem_append.1 he
  · exact countBytes_pos I e he
  · rw [List.mem_singleton.1 he]

theorem freq_ascending (I : List Byte) : (freq I).Ascending := by
  refine List.pairwise_append.2 ⟨countBytes_ascending I, List.pairwise_singleton _ _, fun e he f hf => ?_⟩
  obtain ⟨b, _, hb⟩ := (mem_keys_countBytes I e.1).1 (List.mem_map_of_mem he)
  rw [List.mem_singleton.1 hf, hb]
  exact b.isLt

/-- The symbol numbers of an ascending table are distinct. -/
theorem FreqTable.Ascending.nodup_num {F : FreqTable} (hF : F.Ascending) :
    ((F.map Prod.fst).map Symbol.num).Nodup := by
  rw [List.map_map, List.Nodup, List.pairwise_map]
  exact hF.imp fun h => Nat.ne_of_lt h

theorem freq_nodup (I : List Byte) : ((freq I).map Prod.fst).Nodup := (freq_ascending I).nodup_num.of_map _

/-- R151: there are 257 symbols. -/
theorem length_freq_le (I : List Byte) : (freq I).length ≤ 257 := by
  have hsub : ((freq I).map Prod.fst).map Symbol.num ⊆ List.range 257 := fun n hn => by
    obtain ⟨s, _, rfl⟩ := List.mem_map.1 hn
    exact List.mem_range.2 (Nat.lt_succ_of_le s.num_le)
  simpa using ((freq_ascending I).nodup_num.subperm hsub).length_le

end Sys2Proof.Machine

/-! PROOFS. The Huffman tree (R153 to R155), and the weights that bound its height (R160). -/

namespace Sys2Proof.Machine

/-! ### Extraction of the two least nodes -/

/-- `before` is a strict order of the keys. -/
theorem Tree.before_trans {a b c : Tree} (h1 : a.before b = true) (h2 : c.before b = false) :
    c.before a = false := by
  simp only [Tree.before, Bool.or_eq_true, Bool.and_eq_true, decide_eq_true_eq, beq_iff_eq, Bool.or_eq_false_iff,
    Bool.and_eq_false_iff, decide_eq_false_iff_not, beq_eq_false_iff_ne] at h1 h2 ⊢
  omega

theorem Tree.before_irrefl (a : Tree) : a.before a = false := by simp [Tree.before]

theorem Tree.count_le_of_not_before {a b : Tree} (h : b.before a = false) : a.count ≤ b.count := by
  simp only [Tree.before, Bool.or_eq_false_iff, decide_eq_false_iff_not] at h
  omega

theorem extractMin_perm (t : Tree) (q : List Tree) : ((extractMin t q).1 :: (extractMin t q).2).Perm (t :: q) := by
  induction q generalizing t with
  | nil => exact .refl _
  | cons u q ih =>
    rw [extractMin]
    split
    · exact .refl _
    · exact (List.Perm.swap _ _ _).trans ((ih u).cons t)

/-- R153: nothing in the queue has a lesser key than the extracted node. -/
theorem extractMin_least (t : Tree) (q : List Tree) : ∀ u ∈ t :: q, u.before (extractMin t q).1 = false := by
  induction q generalizing t with
  | nil => simpa [extractMin] using t.before_irrefl
  | cons v q ih =>
    rw [extractMin]
    split
    · next hlt =>
      exact List.forall_mem_cons.2 ⟨t.before_irrefl, fun u hu => Tree.before_trans hlt (ih v u hu)⟩
    · next hge => exact List.forall_mem_cons.2 ⟨Bool.not_eq_true _ ▸ hge, ih v⟩

/-- R153: an iteration replaces the two nodes of least key, the lesser first, by their combination at the end. -/
theorem combineLeast_spec (t u : Tree) (q : List Tree) (next : Nat) :
    ∃ a b others, combineLeast t u q next = others ++ [combine a b next] ∧ (a :: b :: others).Perm (t :: u :: q)
      ∧ (∀ v ∈ b :: others, v.before a = false) ∧ ∀ v ∈ b :: others, v.before b = false := by
  have hperm := extractMin_perm t (u :: q)
  have hleast := extractMin_least t (u :: q)
  unfold combineLeast
  match hx : extractMin t (u :: q) with
  | (a, []) => simp [hx] at hperm
  | (a, v :: q1) =>
    rw [hx] at hperm hleast
    have hperm2 := extractMin_perm v q1
    refine ⟨a, _, _, rfl, (hperm2.cons a).trans hperm, fun w hw => ?_, fun w hw => ?_⟩
    · exact hleast w (hperm.mem_iff.1 (List.mem_cons_of_mem a (hperm2.mem_iff.1 hw)))
    · exact extractMin_least v q1 w (hperm2.mem_iff.1 hw)

/-! ### What every iteration keeps holds of the tree -/

/-- R153: a property of the queue that every iteration keeps holds of the queue of the root alone. -/
theorem buildLoop_induction {P : List Tree → Nat → Prop}
    (hstep : ∀ t u q next, P (t :: u :: q) next → P (combineLeast t u q next) (next + 1)) (n : Nat) (t : Tree)
    (q : List Tree) (next : Nat) (hn : q.length ≤ n) (h : P (t :: q) next) :
    P [buildLoop n t q next] (next + q.length) := by
  induction n generalizing t q next with
  | zero =>
    obtain rfl := List.length_eq_zero_iff.1 (Nat.le_zero.1 hn)
    exact h
  | succ n ih =>
    cases q with
    | nil => exact h
    | cons u q =>
      have hP := hstep t u q next h
      obtain ⟨a, b, others, hcombine, hperm, -, -⟩ := combineLeast_spec t u q next
      have hlen : others.length = q.length := by simpa using hperm.length_eq
      rw [buildLoop]
      cases hq : combineLeast t u q next with
      | nil => simp [hq] at hcombine
      | cons v q1 =>
        have hlen1 : q1.length = q.length := by
          have := congrArg List.length (hq.symm.trans hcombine)
          simp only [List.length_cons, List.length_append, List.length_nil] at this
          omega
        rw [hq] at hP
        have := ih v q1 (next + 1) (by simp only [List.length_cons] at hn; omega) hP
        rwa [hlen1, Nat.add_assoc, Nat.add_comm 1] at this

theorem length_leavesFrom (next : Nat) (F : FreqTable) : (leavesFrom next F).length = F.length := by
  induction F generalizing next with
  | nil => rfl
  | cons e F ih => simp [leavesFrom, ih]

/-- R153: the same of the tree of a table, from the queue of its leaves on. -/
theorem buildTree_induction {P : List Tree → Nat → Prop}
    (hstep : ∀ t u q next, P (t :: u :: q) next → P (combineLeast t u q next) (next + 1)) {F : FreqTable}
    (hF : F ≠ []) (h : P (leavesFrom 0 F) F.length) : P [buildTree F] (2 * F.length - 1) := by
  have hlen := length_leavesFrom 0 F
  unfold buildTree
  cases hq : leavesFrom 0 F with
  | nil => exact absurd (List.length_eq_zero_iff.1 (by simpa [hq] using hlen.symm)) hF
  | cons t q =>
    rw [hq] at h hlen
    simp only [List.length_cons] at hlen
    have := buildLoop_induction hstep q.length t q (q.length + 1) le_rfl (hlen ▸ h)
    rwa [show 2 * F.length - 1 = q.length + 1 + q.length by omega]

/-! ### Weights -/

/-- The height of a tree: the length of its longest code (R158). -/
def Tree.height : Tree → Nat
  | .leaf _ _ _ => 0
  | .node l r _ _ => max l.height r.height + 1

/-- What every node that stood in the queue with this one must weigh at least: its children were the two least when they
were combined. -/
def Tree.floor : Tree → Nat
  | .leaf _ _ _ => 1
  | .node l r _ _ => max l.count r.count

/-- Every node of the tree weighs what its children weigh together, and each child at least the other's floor. -/
def Tree.Balanced : Tree → Prop
  | .leaf _ c _ => 1 ≤ c
  | .node l r c _ => l.Balanced ∧ r.Balanced ∧ c = l.count + r.count ∧ l.floor ≤ r.count ∧ r.floor ≤ l.count

/-- R160: the counts of a tree grow with its height at least as the Fibonacci numbers do. -/
theorem Tree.Balanced.fib_le {t : Tree} (h : t.Balanced) :
    Nat.fib (t.height + 2) ≤ t.count ∧ Nat.fib (t.height + 1) ≤ t.floor := by
  induction t with
  | leaf s c q => exact ⟨h, le_rfl⟩
  | node l r c q ihl ihr =>
    obtain ⟨hl, hr, rfl, hlr, hrl⟩ := h
    obtain ⟨hlc, hlf⟩ := ihl hl
    obtain ⟨hrc, hrf⟩ := ihr hr
    change Nat.fib (max l.height r.height + 1 + 2) ≤ l.count + r.count
      ∧ Nat.fib (max l.height r.height + 2) ≤ max l.count r.count
    rw [Nat.fib_add_two]
    simp only [Nat.add_assoc, Nat.reduceAdd]
    obtain hle | hle := le_total l.height r.height
    · rw [max_eq_right hle]
      omega
    · rw [max_eq_left hle]
      omega

/-- What holds of the queue of R153 all along: the leaves hold the table's symbols, the counts sum to the table's, and
every node weighs at least every node's floor. -/
structure IsForest (F : FreqTable) (q : List Tree) : Prop where
  symbols : (q.flatMap Tree.symbols).Perm (F.map Prod.fst)
  count : (q.map Tree.count).sum = (F.map Prod.snd).sum
  balanced : ∀ u ∈ q, u.Balanced
  floor : ∀ u ∈ q, ∀ v ∈ q, u.floor ≤ v.count

theorem IsForest.perm {F : FreqTable} {q q' : List Tree} (h : IsForest F q) (hp : q.Perm q') : IsForest F q' where
  symbols := (hp.symm.flatMap_right _).trans h.symbols
  count := (hp.map _).sum_eq.symm.trans h.count
  balanced := fun u hu => h.balanced u (hp.mem_iff.2 hu)
  floor := fun u hu v hv => h.floor u (hp.mem_iff.2 hu) v (hp.mem_iff.2 hv)

/-- Combining the two least nodes keeps the forest: the others weigh at least the greater of the two, and the
combination weighs more than either. -/
theorem IsForest.combine {F : FreqTable} {a b : Tree} {others : List Tree} (h : IsForest F (a :: b :: others))
    (hab : a.count ≤ b.count) (hothers : ∀ v ∈ others, b.count ≤ v.count) (next : Nat) :
    IsForest F (combine a b next :: others) where
  symbols := by simpa [Machine.combine, Tree.symbols] using h.symbols
  count := by simpa [Machine.combine, Tree.count, Nat.add_assoc] using h.count
  balanced := by
    refine List.forall_mem_cons.2 ⟨?_, fun u hu => h.balanced u (by simp [hu])⟩
    exact ⟨h.balanced a (by simp), h.balanced b (by simp), rfl, h.floor a (by simp) b (by simp),
      h.floor b (by simp) a (by simp)⟩
  floor := by
    have hself : ∀ v ∈ Machine.combine a b next :: others, b.count ≤ v.count :=
      List.forall_mem_cons.2 ⟨Nat.le_add_left _ _, hothers⟩
    refine List.forall_mem_cons.2 ⟨fun v hv => ?_, fun u hu => List.forall_mem_cons.2 ⟨?_, fun v hv => ?_⟩⟩
    · exact (max_eq_right hab).trans_le (hself v hv)
    · exact (h.floor u (by simp [hu]) a (by simp)).trans (Nat.le_add_right _ _)
    · exact h.floor u (by simp [hu]) v (by simp [hv])

theorem IsForest.combineLeast {F : FreqTable} {t u : Tree} {q : List Tree} (next : Nat)
    (h : IsForest F (t :: u :: q)) : IsForest F (combineLeast t u q next) := by
  obtain ⟨a, b, others, hcombine, hperm, ha, hb⟩ := combineLeast_spec t u q next
  rw [hcombine]
  refine IsForest.perm ?_ (List.perm_append_singleton _ _).symm
  exact (h.perm hperm.symm).combine (Tree.count_le_of_not_before (ha b (by simp)))
    (fun v hv => Tree.count_le_of_not_before (hb v (by simp [hv]))) next

theorem flatMap_symbols_leavesFrom (next : Nat) (F : FreqTable) :
    (leavesFrom next F).flatMap Tree.symbols = F.map Prod.fst := by
  induction F generalizing next with
  | nil => rfl
  | cons e F ih => simp [leavesFrom, Tree.symbols, ih]

theorem map_count_leavesFrom (next : Nat) (F : FreqTable) :
    (leavesFrom next F).map Tree.count = F.map Prod.snd := by
  induction F generalizing next with
  | nil => rfl
  | cons e F ih => simp [leavesFrom, Tree.count, ih]

theorem mem_leavesFrom {next : Nat} {F : FreqTable} {u : Tree} (h : u ∈ leavesFrom next F) :
    ∃ e ∈ F, ∃ k, u = .leaf e.1 e.2 k := by
  induction F generalizing next with
  | nil => cases h
  | cons e F ih =>
    obtain rfl | h := List.mem_cons.1 h
    · exact ⟨e, by simp, next, rfl⟩
    · obtain ⟨f, hf, k, rfl⟩ := ih h
      exact ⟨f, List.mem_cons_of_mem _ hf, k, rfl⟩

/-- The leaves of a table whose counts are positive are a forest. -/
theorem isForest_leavesFrom {F : FreqTable} (hF : ∀ e ∈ F, 1 ≤ e.2) (next : Nat) : IsForest F (leavesFrom next F) where
  symbols := by rw [flatMap_symbols_leavesFrom]
  count := by rw [map_count_leavesFrom]
  balanced := fun u hu => by
    obtain ⟨e, he, k, rfl⟩ := mem_leavesFrom hu
    exact hF e he
  floor := fun u hu v hv => by
    obtain ⟨e, _, k, rfl⟩ := mem_leavesFrom hu
    obtain ⟨f, hf, k', rfl⟩ := mem_leavesFrom hv
    exact hF f hf

/-- R153, R155: the tree of an input is a forest of one. -/
theorem isForest_buildTree (I : List Byte) : IsForest (freq I) [buildTree (freq I)] :=
  buildTree_induction (P := fun q _ => IsForest (freq I) q) (fun _ _ _ next h => h.combineLeast next) (by simp [freq])
    (isForest_leavesFrom (freq_pos I) 0)

theorem symbols_buildTree (I : List Byte) : (buildTree (freq I)).symbols.Perm ((freq I).map Prod.fst) := by
  simpa using (isForest_buildTree I).symbols

theorem count_buildTree (I : List Byte) : (buildTree (freq I)).count = I.length + 1 := by
  simpa [sum_freq] using (isForest_buildTree I).count

/-- R160: within the bound of R7 the tree has height at most 45, because the 48th Fibonacci number exceeds 2^32. -/
theorem height_buildTree_le {I : List Byte} (hI : I.length ≤ 2 ^ 32 - 1) : (buildTree (freq I)).height ≤ 45 := by
  have hfib := ((isForest_buildTree I).balanced _ (List.mem_singleton_self _)).fib_le.1
  rw [count_buildTree] at hfib
  by_contra hgt
  have h48 : Nat.fib 48 ≤ Nat.fib ((buildTree (freq I)).height + 2) := Nat.fib_mono (by omega)
  have hval : Nat.fib 48 = 4807526976 := by norm_num
  omega

end Sys2Proof.Machine

/-! PROOFS. The codes of a tree (R158, R161), the containers (R164, R220), and the round-trip law of the core (R15). -/

namespace Sys2Proof.Machine

/-! ### Codes -/

theorem map_fst_walk (t : Tree) (p : Bits) : (walk t p).map Prod.fst = t.symbols := by
  induction t generalizing p with
  | leaf s c q => rfl
  | node l r c q ihl ihr => rw [walk, List.map_append, ihl, ihr, Tree.symbols]

theorem prefix_of_mem_walk {t : Tree} {p : Bits} {e : Symbol × Bits} (h : e ∈ walk t p) : p <+: e.2 := by
  induction t generalizing p with
  | leaf s c q => rw [List.mem_singleton.1 h]
  | node l r c q ihl ihr =>
    obtain h | h := List.mem_append.1 h
    · exact (List.prefix_append p _).trans (ihl h)
    · exact (List.prefix_append p _).trans (ihr h)

theorem length_le_of_mem_walk {t : Tree} {p : Bits} {e : Symbol × Bits} (h : e ∈ walk t p) :
    e.2.length ≤ p.length + t.height := by
  induction t generalizing p with
  | leaf s c q => rw [List.mem_singleton.1 h]; exact le_rfl
  | node l r c q ihl ihr =>
    have hmax : max l.height r.height + 1 = (Tree.node l r c q).height := rfl
    obtain h | h := List.mem_append.1 h
    · have := ihl h
      simp only [List.length_append, List.length_singleton] at this
      omega
    · have := ihr h
      simp only [List.length_append, List.length_singleton] at this
      omega

/-- The codes of the two subtrees of a node differ at the branch bit. -/
theorem not_prefix_of_branch {p c d : Bits} {x y : Bool} (hxy : x ≠ y) (hc : p ++ [x] <+: c) (hd : p ++ [y] <+: d) :
    ¬ c <+: d := by
  intro h
  have hpre : p ++ [x] <+: p ++ [y] := List.prefix_of_prefix_length_le (hc.trans h) hd (by simp)
  have heq := hpre.eq_of_length (by simp)
  exact hxy (by simpa using heq)

/-- R161: no code of a walk begins another symbol's. -/
theorem walk_prefixFree (t : Tree) (p : Bits) :
    ∀ e ∈ walk t p, ∀ f ∈ walk t p, e.1 ≠ f.1 → ¬ e.2 <+: f.2 := by
  induction t generalizing p with
  | leaf s c q =>
    intro e he f hf hne
    rw [List.mem_singleton.1 he, List.mem_singleton.1 hf] at hne
    exact absurd rfl hne
  | node l r c q ihl ihr =>
    intro e he f hf hne
    obtain he | he := List.mem_append.1 he <;> obtain hf | hf := List.mem_append.1 hf
    · exact ihl _ e he f hf hne
    · exact not_prefix_of_branch (by decide) (prefix_of_mem_walk he) (prefix_of_mem_walk hf)
    · exact not_prefix_of_branch (by decide) (prefix_of_mem_walk he) (prefix_of_mem_walk hf)
    · exact ihr _ e he f hf hne

theorem map_fst_codes (t : Tree) : (codes t).map Prod.fst = t.symbols := by
  cases t with
  | leaf s c q => rfl
  | node l r c q => exact map_fst_walk _ _

/-- R158, R159: a code has at least one bit, and no more than the tree is high, or one. -/
theorem length_of_mem_codes {t : Tree} {e : Symbol × Bits} (h : e ∈ codes t) :
    1 ≤ e.2.length ∧ e.2.length ≤ max 1 t.height := by
  cases t with
  | leaf s c q => rw [List.mem_singleton.1 h]; exact ⟨le_rfl, le_max_left 1 _⟩
  | node l r c q =>
    have hle := length_le_of_mem_walk (p := []) h
    have hbranch : ∃ x, [x] <+: e.2 := (List.mem_append.1 h).elim
      (fun h => ⟨_, prefix_of_mem_walk h⟩) (fun h => ⟨_, prefix_of_mem_walk h⟩)
    obtain ⟨x, hx⟩ := hbranch
    have := hx.length_le
    simp only [List.length_nil, List.length_singleton] at hle this
    omega

theorem codes_prefixFree (t : Tree) : ∀ e ∈ codes t, ∀ f ∈ codes t, e.1 ≠ f.1 → ¬ e.2 <+: f.2 := by
  cases t with
  | leaf s c q => exact walk_prefixFree (.leaf s c q) [false]
  | node l r c q => exact walk_prefixFree _ _

/-! ### The code table of an input -/

/-- R161: the code table of an input has the symbols of its frequency table. -/
theorem keys_codeTable (I : List Byte) : ((codeTable I).map Prod.fst).Perm ((freq I).map Prod.fst) := by
  rw [codeTable, map_fst_codes]
  exact symbols_buildTree I

theorem length_codeTable_le (I : List Byte) : (codeTable I).length ≤ 257 := by
  simpa using (keys_codeTable I).length_eq.trans_le (by simpa using length_freq_le I)

/-- R161: in the code table of an input no code begins another. -/
theorem isPrefixCode_codeTable (I : List Byte) : IsPrefixCode (codeTable I) where
  nodup := (keys_codeTable I).symm.nodup (freq_nodup I)
  nonempty := fun _ he => List.length_pos_iff.1 (length_of_mem_codes he).1
  prefixFree := codes_prefixFree _

theorem eos_mem_codeTable (I : List Byte) : Symbol.eos ∈ (codeTable I).map Prod.fst :=
  (keys_codeTable I).mem_iff.2 ((mem_keys_freq I _).2 (.inr rfl))

theorem byte_mem_codeTable {I : List Byte} {b : Byte} (hb : b ∈ I) : Symbol.byte b ∈ (codeTable I).map Prod.fst :=
  (keys_codeTable I).mem_iff.2 ((mem_keys_freq I _).2 (.inl ⟨b, hb, rfl⟩))

/-- R160: every code of an input within the bound of R7 has between 1 and 45 bits. -/
theorem length_of_mem_codeTable {I : List Byte} (hI : I.length ≤ 2 ^ 32 - 1) {e : Symbol × Bits}
    (he : e ∈ codeTable I) : 1 ≤ e.2.length ∧ e.2.length ≤ 45 := by
  obtain ⟨h1, h2⟩ := length_of_mem_codes he
  exact ⟨h1, h2.trans (max_le (by decide) (height_buildTree_le hI))⟩

/-! ### The Huffman container -/

theorem insertEntry_perm (e : Symbol × Bits) (C : CodeTable) : (insertEntry e C).Perm (e :: C) := by
  induction C with
  | nil => exact .refl _
  | cons f C ih =>
    rw [insertEntry]
    split
    · exact .refl _
    · exact (ih.cons f).trans (.swap _ _ _)

theorem ascending_perm (C : CodeTable) : (ascending C).Perm C := by
  induction C with
  | nil => exact .refl _
  | cons e C ih => exact (insertEntry_perm e _).trans (ih.cons e)

theorem length_serEntry (s : Symbol) (c : Bits) : (serEntry s c).length = 3 + ceil8 c.length := by
  simp [serEntry, u16be, length_pack]; omega

/-- R98: a table of at most 257 entries with codes of at most 255 bits fits the 16-bit length field. -/
theorem length_serialized_le {C : CodeTable} (hC : ∀ e ∈ C, e.2.length ≤ 255) :
    (C.flatMap (fun e => serEntry e.1 e.2)).length ≤ 35 * C.length := by
  induction C with
  | nil => exact le_rfl
  | cons e C ih =>
    obtain ⟨he, hC⟩ := List.forall_mem_cons.1 hC
    have := ih hC
    simp only [List.flatMap_cons, List.length_append, length_serEntry, ceil8, List.length_cons]
    omega

/-- R162: what a serialized table is. -/
theorem serTable_eq_ok (C : CodeTable) (tb : List Byte) :
    serTable C = .ok tb ↔
      (∀ e ∈ C, e.2.length ≤ 255) ∧ tb = (ascending C).flatMap (fun e => serEntry e.1 e.2) := by
  simp only [serTable, serEntries_eq_ok, (ascending_perm C).mem_iff]

/-- R160, R164: an input within the bound of R7 has a Huffman container. -/
theorem huffEncode_ok {I : List Byte} (hI : I.length ≤ 2 ^ 32 - 1) : ∃ h, huffEncode I = .ok h := by
  have hser := (serTable_eq_ok (codeTable I) _).2
    ⟨fun e he => (length_of_mem_codeTable hI he).2.trans (by decide), rfl⟩
  exact ⟨_, (exceptMap_eq_ok_iff _ _ _).2 ⟨_, hser, rfl⟩⟩

/-- R137, R163, R189: the bit data of an input, read with its own code table in any order, gives the input back. -/
theorem mapSymbols_packData (I : List Byte) {C : CodeTable} (hC : (codeTable I).Perm C) {cap : Nat}
    (hcap : I.length ≤ cap) : mapSymbols C (packData (codeTable I) I) cap = .ok I := by
  have hprefix := isPrefixCode_codeTable I
  have hcode : codeOf (codeTable I) = codeOf C := codeOf_perm hprefix.nodup hC
  obtain ⟨c, hc⟩ := Option.isSome_iff_exists.1 ((codeOf_isSome_iff _ _).2 (eos_mem_codeTable I))
  have hI : ∀ b ∈ I, (codeOf C (.byte b)).isSome = true := fun b hb =>
    hcode ▸ (codeOf_isSome_iff _ _).2 (byte_mem_codeTable hb)
  have hdata : packData (codeTable I) I = pack (codeBits C I ++ c) := by
    simp [packData, bwFinish, writeSymbol, bwBits, bwNew, hc, codeBits_congr hcode]
  rw [mapSymbols, hdata, brNew, BitReader.remaining, List.drop_zero, bitsOf_pack]
  exact mapBits_codeBits (hprefix.perm hC) hI (hcode ▸ hc) _ hcap

/-- R164, R180 to R192: the Huffman round trip. -/
theorem huffDecode_huffEncode {I h : List Byte} (hh : huffEncode I = .ok h) {cap : Nat} (hcap : I.length ≤ cap) :
    huffDecode h cap = .ok I := by
  obtain ⟨tb, htb, rfl⟩ := (exceptMap_eq_ok_iff _ _ _).1 hh
  obtain ⟨hlen, rfl⟩ := (serTable_eq_ok _ _).1 htb
  have hperm := ascending_perm (codeTable I)
  have hlen' : ∀ e ∈ ascending (codeTable I), e.2.length ≤ 255 := fun e he => hlen e (hperm.mem_iff.1 he)
  have hfits := (length_serialized_le hlen').trans
    (Nat.mul_le_mul_left 35 (hperm.length_eq.trans_le (length_codeTable_le I)))
  have hparse := parseTable_serEntry ((isPrefixCode_codeTable I).perm hperm.symm)
    ((hperm.map Prod.fst).mem_iff.2 (eos_mem_codeTable I)) hlen'
  rw [huffDecode_huffContainer (by omega) hparse]
  exact mapSymbols_packData I hperm.symm hcap

/-! ### The best container -/

/-- R96, R220 to R223: the dispatcher decodes what the selector chose. -/
theorem dispatch_select {I h : List Byte} (hh : huffEncode I = .ok h) {cap : Nat} (hcap : I.length ≤ cap) :
    (dispatch (select h (rleEncode I)).1 cap).1 = .ok I := by
  unfold select
  split
  · exact rleDecode_rleEncode I hcap
  · obtain ⟨tb, _, rfl⟩ := (exceptMap_eq_ok_iff _ _ _).1 hh
    exact huffDecode_huffEncode hh hcap

theorem length_select (h r : List Byte) : (select h r).1.length = min h.length r.length := by
  unfold select
  split <;> simp only <;> omega

/-- R229: a capacity that holds the smaller container gets the selected one. -/
theorem encBestResult_ok {I h : List Byte} (hh : huffEncode I = .ok h) {cap : Nat}
    (hcap : min h.length (rleEncode I).length ≤ cap) :
    (encBestResult I cap).err = .none ∧ (encBestResult I cap).out = (select h (rleEncode I)).1 := by
  have hfits : ¬ cap < (select h (rleEncode I)).1.length := by rw [length_select]; omega
  simp only [encBestResult, hh, encodeResult, if_neg hfits, and_self]

/-- R232: a decode without an error. -/
theorem decodeResult_ok {d : List Byte} {cap : Nat} {out : List Byte} (h : (dispatch d cap).1 = .ok out) :
    (decodeResult d cap).err = .none ∧ (decodeResult d cap).out = out := by
  unfold decodeResult
  match hd : dispatch d cap with
  | (.error e, sel) => rw [hd] at h; cases h
  | (.ok out', sel) => rw [hd] at h; cases h; exact ⟨rfl, rfl⟩

/-! ### Completions with a defined input -/

/-- R233: a command whose input is in place, and that no host write has met, runs on exactly that input. -/
theorem commandResult_of_inputIs (f : List Byte → Nat → CmdResult) {s : State} {I : List Byte}
    (hs : s.tainted = false) (hI : inputIs s I) : commandResult f s = f I s.cap := by
  obtain ⟨hwf, hlen, hle, hget⟩ := hI
  have hshort : s.inputTooLong = false := decide_eq_false (by rw [hlen]; omega)
  have hbytes : s.src.firstBytes? s.inputLen = some I := (firstBytes?_eq_some _ _ _ _ hwf).2 ⟨hlen.symm, hlen ▸ hget⟩
  simp [commandResult, State.resultUndefined, State.readsUnwritten, hs, hshort, hbytes]

/-- R238, R243: the completion of a command whose input is in place. -/
theorem exec_completing {i : Instr} (hi : isStarted i = true) {s : State} {I : List Byte} (hs : completing s)
    (hI : inputIs s I) : exec i s = .next (finishCommand (resultOf i I s.cap) s) := by
  obtain ⟨hturn, heng, htaint⟩ := hs
  rw [exec_started i s hi, ← commandResult_of_inputIs (resultOf i) htaint hI]
  simp [runCommand, hturn, completeCommand, heng]

/-- R240, R239: after a completion without an error, `DST` and `DST_LEN` hold the output: no output is too long for the
register, because the latched capacity is one. -/
theorem finishCommand_output {r : CmdResult} {s : State} (hr : r.within s.cap) (hok : r.err = .none) :
    (finishCommand r s).dstLen.toNat = r.out.length
      ∧ ∀ a, a < r.out.length → (finishCommand r s).dst.get? a = r.out[a]? := by
  have hlt : r.out.length < 2 ^ 32 := hr.1.trans_lt s.lCap.isLt
  refine ⟨?_, fun a ha => ?_⟩
  · rw [finishCommand_dstLen, if_pos hok, BitVec.toNat_ofNat, Nat.mod_eq_of_lt hlt]
  · rw [finishCommand_dst, if_pos hok, get?_setPrefix, if_pos ha]

/-- What a host reads of `DST[0..DST_LEN)` after a completion without an error is the output. -/
theorem eq_output_of_read {r : CmdResult} {s : State} (hr : r.within s.cap) (hok : r.err = .none) {d : List Byte}
    (hlen : d.length = (finishCommand r s).dstLen.toNat)
    (hget : ∀ a, a < (finishCommand r s).dstLen.toNat → d[a]? = (finishCommand r s).dst.get? a) : d = r.out := by
  obtain ⟨hout, hdst⟩ := finishCommand_output hr hok
  rw [hout] at hlen hget
  refine List.ext_getElem?' fun a ha => ?_
  rw [hlen, max_self] at ha
  rw [hget a ha, hdst a ha]

/-- Settles O50: the encode leaves the selected container in `DST`, the decode's input is therefore that container, and
the dispatcher gives the input back by the round trip of the codec that was selected. -/
theorem roundTripLaw : Obligations.RoundTripLaw := by
  intro s I hparams hs hI hcap
  have hbound : I.length ≤ 2 ^ 32 - 1 := by
    obtain ⟨_, _, hle, _⟩ := hI
    obtain ⟨_, hsize, _, _⟩ := wf_bounds _ hparams
    exact hle.trans hsize
  obtain ⟨h, hh⟩ := huffEncode_ok hbound
  obtain ⟨herr, hout⟩ := encBestResult_ok hh (cap := s.cap) (hcap h hh)
  have hwithin : (resultOf .encBest I s.cap).within s.cap := resultOf_within .encBest I s.cap
  refine ⟨_, exec_completing rfl hs hI, herr, fun s' d hs' hd hdlen hdget hcap' => ?_⟩
  have hcontainer : d = (select h (rleEncode I)).1 := (eq_output_of_read hwithin herr hdlen hdget).trans hout
  obtain ⟨herr', hout'⟩ := decodeResult_ok (hcontainer ▸ dispatch_select hh (cap := s'.cap) hcap')
  obtain ⟨hlen', hget'⟩ := finishCommand_output (s := s') (resultOf_within .decode d s'.cap) herr'
  exact ⟨_, exec_completing rfl hs' hd, herr', hlen'.trans (congrArg _ hout'), fun a ha =>
    (hget' a (hout' ▸ ha)).trans (congrArg (·[a]?) hout')⟩

end Sys2Proof.Machine

/-! PROOFS. The fields of `STATUS` (R23, R260), and what a host read of an unwritten byte records (R39, R236). -/

namespace Sys2Proof.Machine

/-! ### The fields of `STATUS` -/

theorem getLsbD_bitWord (b : Bool) (k : Nat) : (bitWord b).getLsbD k = (b && decide (k = 0)) := by
  cases b <;> simp [bitWord, BitVec.getLsbD_one]

/-- R23: which bit of `STATUS` comes from which field; all others read 0. -/
theorem getLsbD_status (s : State) {k : Nat} (hk : k < 32) : s.status.getLsbD k =
    if k = 0 then s.busy
    else if k = 1 then s.done
    else if k < 4 then false
    else if k < 8 then (errCode s.err).getLsbD (k - 4)
    else if k < 10 then (selCode s.sel).getLsbD (k - 8)
    else false := by
  simp only [State.status, BitVec.getLsbD_or, BitVec.getLsbD_shiftLeft, BitVec.getLsbD_setWidth, getLsbD_bitWord]
  have herr : 8 ≤ k → (errCode s.err).getLsbD (k - 4) = false := fun h => BitVec.getLsbD_of_ge _ _ (by omega)
  have hsel : 10 ≤ k → (selCode s.sel).getLsbD (k - 8) = false := fun h => BitVec.getLsbD_of_ge _ _ (by omega)
  interval_cases k <;> simp_all

/-- A field of `STATUS` is a code when it agrees with the code bit by bit. -/
theorem extract_status_eq (s : State) {start len : Nat} (c : BitVec len)
    (h : ∀ j, j < len → s.status.getLsbD (start + j) = c.getLsbD j) : s.status.extractLsb' start len = c :=
  BitVec.eq_of_getLsbD_eq fun j hj => by simp [hj, h j hj]

/-- Settles O9: each field is read off the bits of `STATUS` that come from it. -/
theorem statusFieldsStandInTheirBits : Obligations.StatusFieldsStandInTheirBits := by
  intro s
  rw [show regRead 0x04 s = s.status from rfl]
  refine ⟨getLsbD_status s (by omega), getLsbD_status s (by omega), extract_status_eq s _ fun j hj => ?_,
    (extract_status_eq s (errCode s.err) fun j hj => ?_).trans ?_,
    (extract_status_eq s (selCode s.sel) fun j hj => ?_).trans ?_, extract_status_eq s _ fun j hj => ?_⟩
  · simp (disch := omega) only [getLsbD_status, if_pos, if_neg, BitVec.getLsbD_zero]
  · simp (disch := omega) only [getLsbD_status, if_pos, if_neg, Nat.add_sub_cancel_left]
  · cases s.err <;> rfl
  · simp (disch := omega) only [getLsbD_status, if_pos, if_neg, Nat.add_sub_cancel_left]
  · cases s.sel <;> rfl
  · simp (disch := omega) only [getLsbD_status, if_neg, BitVec.getLsbD_zero]

/-! ### A host read of an unwritten byte -/

/-- R39, R75: whether reading an unwritten byte is recorded. -/
theorem recordsUninit_of_unwritten {b : Buf} {a : Nat} {s : State} (h : (s.buf b).get? a = none) :
    recordsUninit b a s
      = !decide (b = .dst ∧ s.eng = .busy ∧ s.params.readings.busyReadRecordsUninit = false) := by
  cases hb : b <;> cases he : s.eng <;> subst hb <;> simp [recordsUninit, drawsFresh, State.busy, h, he]

/-- Settles O13: the value and the counter are what `hostLoadValue` and `hostLoadRecord` give; the record is
`UninitRead` but for the reading of R75. -/
theorem hostReadOfUnwrittenByteIsRecorded : Obligations.HostReadOfUnwrittenByteIsRecorded := by
  intro s b a n rest ht hs ha hnone
  have hlegal : accessLegal s.params ⟨.buf b, a, 8⟩ = true := (accessLegal_iff _ _).2 ⟨rfl, ha⟩
  refine ⟨hostLoadValue b a (withScript rest s), (hostLoadRecord b a (withScript rest s)).draws, ?_⟩
  have hrec := recordsUninit_of_unwritten (s := withScript rest s) hnone
  rw [step_host_read s _ n rest ht hs hlegal]
  simp only [hostRead, hostLoadRecord, hrec]
  by_cases hR75 : b = .dst ∧ s.eng = .busy ∧ s.params.readings.busyReadRecordsUninit = false <;> simp [hR75]

end Sys2Proof.Machine

/-! PROOFS. `SRC` changes only by the host's write to it, or at a reset (R33, R69). -/

namespace Sys2Proof.Machine

/-- R69: no event of a command writes `SRC`. -/
theorem exec_src {i : Instr} {s t : State} (ht : exec i s = .next t) : t.src = s.src := by
  obtain hx | ⟨_, _, _, hx⟩ | ⟨_, _, _, hx⟩ | ⟨_, _, hx⟩ | ⟨_, _, _, hx⟩ := exec_cases i s <;>
    obtain rfl := Host.Outcome.next.inj (hx.symm.trans ht) <;> rfl

theorem regWrite_src (o : Nat) (v : Word) (s : State) : (regWrite o v s).src = s.src := by
  obtain hx | ⟨_, hx⟩ | ⟨_, hx⟩ | ⟨_, hx⟩ | ⟨_, hx⟩ := regWrite_cases o v s <;> rw [hx]

theorem engineTurn_src {s t : State} (ht : engineTurn s = .next t) : t.src = s.src := by
  obtain ⟨_, rfl⟩ | ⟨_, i, _, _, hx⟩ := engineTurn_cases s t ht
  · rfl
  · exact exec_src hx

theorem hostRead_src (a : Access) (n : HostName) (s : State) : (hostRead a n s).src = s.src := by
  obtain ⟨_, hx⟩ | ⟨b, _, hx⟩ := hostRead_cases a n s <;> rw [hx] <;> rfl

/-- R237: a host write that changes what a `SRC` address holds is a store to that address. -/
theorem hostWrite_changes_src {a : Access} {v : Word} {s t : State} {k : Nat} (ht : hostWrite a v s = .next t)
    (hne : t.src.get? k ≠ s.src.get? k) : a.space = .buf .src ∧ a.addr = k := by
  obtain ⟨_, _, hx⟩ | ⟨_, hx⟩ | ⟨b, hb, hx⟩ := hostWrite_cases a v s <;> rw [hx] at ht
  · exact absurd (congrArg (·.get? k) (exec_src ht)) hne
  · obtain rfl := Host.Outcome.next.inj ht
    exact absurd (congrArg (·.get? k) (regWrite_src _ _ _)) hne
  · obtain rfl := Host.Outcome.next.inj ht
    cases b with
    | dst => exact absurd rfl hne
    | src =>
      refine ⟨hb, ?_⟩
      by_contra hk
      exact hne (get?_set_of_ne _ _ (Ne.symm hk))

/-- R33, R237: a host operation that changes what a `SRC` address holds is the byte write to that address. -/
theorem hostOp_changes_src {op : HostOp} {rest : List HostOp} {s t : State} {k : Nat}
    (ht : hostOp op rest s = .next t) (hne : t.src.get? k ≠ s.src.get? k) :
    ∃ v, op = .write ⟨.buf .src, k, 8⟩ v := by
  obtain ⟨⟨sp, addr, width⟩, v, w, rfl, ha, _, hx⟩ | ⟨a, n, _, _, rfl⟩ | ⟨ops, rfl⟩ | ⟨ops, rfl⟩ :=
    hostOp_cases op rest s t ht
  · obtain ⟨rfl, rfl⟩ := hostWrite_changes_src hx hne
    obtain ⟨rfl, _⟩ := (accessLegal_iff _ _).1 ha
    exact ⟨v, rfl⟩
  · exact absurd (congrArg (·.get? k) (hostRead_src a n (withScript rest s))) hne
  · exact absurd rfl hne
  · exact absurd rfl hne

/-- Settles O54: of the three agents that can move, the engine never writes `SRC`, and the host only by a byte write. -/
theorem srcChangesOnlyByHostOrReset : Obligations.SrcChangesOnlyByHostOrReset := by
  intro s t k ht hne
  obtain ⟨u, hu, rfl⟩ := step_eq_next s t ht
  obtain ⟨hturn, hx⟩ | ⟨_, hx⟩ | ⟨hturn, _⟩ := event_cases s u hu
  · refine .inr ⟨hturn, ?_⟩
    match hs : s.script with
    | [] =>
      rw [hostTurn, hs] at hx
      exact absurd (congrArg (·.src.get? k) (Host.Outcome.next.inj hx)) (Ne.symm hne)
    | op :: rest =>
      rw [hostTurn, hs] at hx
      obtain ⟨v, rfl⟩ := hostOp_changes_src hx hne
      exact ⟨v, rest, rfl⟩
  · exact absurd (congrArg (·.get? k) (engineTurn_src hx)) hne
  · exact .inl hturn

end Sys2Proof.Machine

/-! PROOFS. Completions: when the input is in place, and what a completion reports (R39, R233, R238 to R243). -/

namespace Sys2Proof.Machine

section Completion

variable {i : Instr} {s : State}

/-- R243: at the engine's turn a command in flight completes, whatever its result. -/
theorem exec_engineTurn (hi : isStarted i = true) (hturn : s.turn = .engine) (heng : s.eng = .busy) :
    exec i s = .next (finishCommand (commandResult (resultOf i) s) s) := by
  rw [exec_started i s hi]
  simp [runCommand, hturn, completeCommand, heng]

/-- R39, R233: an input that fits the buffer is in place when reading it meets no unwritten byte. -/
theorem exists_inputIs (hwf : Memory.wf s.params.srcMemSize s.src) (hfit : s.lSrcLen.toNat ≤ s.params.srcMemSize)
    (hread : s.readsUnwritten = false) : ∃ I, inputIs s I := by
  have hshort : s.inputTooLong = false := decide_eq_false (Nat.not_lt.2 hfit)
  obtain ⟨I, hI⟩ : ∃ I, s.src.firstBytes? s.inputLen = some I := by
    simpa [State.readsUnwritten, hshort, Option.isNone_eq_false_iff, Option.isSome_iff_exists] using hread
  obtain ⟨hlen, hget⟩ := (firstBytes?_eq_some _ _ _ _ hwf).1 hI
  exact ⟨I, hwf, hlen.symm, hlen ▸ hfit, hlen ▸ hget⟩

/-- R39: a missing byte of an input that fits the buffer is an unwritten byte read. -/
theorem readsUnwritten_of_missing (hwf : Memory.wf s.params.srcMemSize s.src)
    (hfit : s.lSrcLen.toNat ≤ s.params.srcMemSize) {a : Nat} (ha : a < s.lSrcLen.toNat) (hnone : s.src.get? a = none) :
    s.readsUnwritten = true := by
  by_contra hread
  obtain ⟨I, _, hlen, _, hget⟩ := exists_inputIs hwf hfit (Bool.eq_false_iff.2 hread)
  have hlt : a < I.length := hlen ▸ ha
  rw [hget a hlt, List.getElem?_eq_getElem hlt] at hnone
  cases hnone

/-- R233, R267: a length beyond the buffer fails before any byte is read. -/
theorem commandResult_of_tooLong (f : List Byte → Nat → CmdResult) (htaint : s.tainted = false)
    (hlong : s.params.srcMemSize < s.lSrcLen.toNat) : commandResult f s = .failure .inputTooLong .none 0#32 0#32 := by
  have hlong' : s.inputTooLong = true := decide_eq_true hlong
  simp [commandResult, State.resultUndefined, State.readsUnwritten, htaint, hlong']

/-- R239 to R241: after a completion, with an error or without, `DST_LEN` counts the output and `DST` begins with it. -/
theorem finishCommand_dst_out {r : CmdResult} (hr : r.within s.cap) :
    (finishCommand r s).dstLen.toNat = r.out.length
      ∧ ∀ a, a < r.out.length → (finishCommand r s).dst.get? a = r.out[a]? := by
  by_cases hok : r.err = .none
  · exact finishCommand_output hr hok
  · simp [hok, hr.2 hok]

/-- R38, R39: a completion that leaves the record empty read no unwritten byte, and no hazard stood before it. -/
theorem faults_of_finishCommand_empty {r : CmdResult} (h : (finishCommand r s).faults.empty = true) :
    s.faults.hostHazard = false ∧ s.readsUnwritten = false := by
  simp only [finishCommand_faults, FaultRecord.empty, FaultRecord.addIf, Bool.and_eq_true, Bool.not_eq_true',
    Bool.or_eq_false_iff] at h
  obtain ⟨⟨hhazard, _⟩, _, hread⟩ := h
  exact ⟨hhazard, by simpa using hread⟩

/-- R75: without a hazard on record, no host write has met the command in flight. -/
theorem State.Inv.untainted (h : s.Inv) (hhazard : s.faults.hostHazard = false) : s.tainted = false := by
  by_contra ht
  obtain ⟨_, hrec⟩ := h.hazard (Bool.eq_true_of_not_eq_false ht)
  rw [hhazard] at hrec
  cases hrec

end Completion

/-- Settles O24: a missing byte makes the read one of an unwritten byte, which every completion records. -/
theorem readingUnwrittenInputIsRecorded : Obligations.ReadingUnwrittenInputIsRecorded := by
  rintro i s hi hturn heng hwf hfit ⟨a, ha, hnone⟩
  refine ⟨_, exec_engineTurn hi hturn heng, ?_, rfl, rfl⟩
  rw [finishCommand_faults, readsUnwritten_of_missing hwf hfit ha hnone, addIf_uninitRead_true]

/-- Settles O29: by the invariant an empty record excludes a taint, and it excludes an unwritten byte read; what is left
is a length beyond the buffer, or an input in place. -/
theorem noFaultMeansDefinedResult : Obligations.NoFaultMeansDefinedResult := by
  intro i s t hi hinv hturn heng ht hempty
  obtain rfl := Host.Outcome.next.inj ((exec_engineTurn hi hturn heng).symm.trans ht)
  obtain ⟨hhazard, hread⟩ := faults_of_finishCommand_empty hempty
  have htaint : s.tainted = false := hinv.untainted hhazard
  by_cases hfit : s.lSrcLen.toNat ≤ s.params.srcMemSize
  · obtain ⟨I, hI⟩ := exists_inputIs hinv.src hfit hread
    rw [commandResult_of_inputIs _ htaint hI]
    obtain ⟨hlen, hget⟩ := finishCommand_dst_out (s := s) (resultOf_within i I s.cap)
    exact .inr ⟨I, hI, rfl, rfl, hlen, fun a ha => hget a (hlen ▸ ha)⟩
  · have hlong := Nat.lt_of_not_le hfit
    rw [commandResult_of_tooLong _ htaint hlong]
    exact .inl ⟨hlong, rfl, rfl⟩

/-! ### The candidate lengths -/

/-- R229, R239: an encode that selected a container succeeds or overflows. -/
theorem encodeResult_err (c : List Byte) (sel : Sel) (hl rl : Word) (cap : Nat) :
    (encodeResult c sel hl rl cap).err = .none ∨ (encodeResult c sel hl rl cap).err = .outputOverflow := by
  unfold encodeResult
  split
  · exact .inr rfl
  · exact .inl rfl

/-- R229: either way it reports the candidate lengths. -/
theorem encodeResult_lengths (c : List Byte) (sel : Sel) (hl rl : Word) (cap : Nat) :
    (encodeResult c sel hl rl cap).hl = hl ∧ (encodeResult c sel hl rl cap).rl = rl := by
  unfold encodeResult
  split <;> exact ⟨rfl, rfl⟩

theorem decodeResult_lengths (d : List Byte) (cap : Nat) :
    (decodeResult d cap).hl = 0#32 ∧ (decodeResult d cap).rl = 0#32 := by
  unfold decodeResult
  split <;> exact ⟨rfl, rfl⟩

/-- R229 to R232: the lengths a command with a Huffman container `h` reports, and that an encode reporting them succeeds
or overflows. -/
theorem resultOf_candidateLengths {i : Instr} (hi : isStarted i = true) {I h : List Byte} (hh : huffEncode I = .ok h)
    (cap : Nat) :
    (resultOf i I cap).hl = (if i = .encBest ∨ i = .encHuff then sat h.length else 0#32)
      ∧ (resultOf i I cap).rl = (if i = .encBest ∨ i = .encRle then sat (rleEncode I).length else 0#32)
      ∧ (i = .encBest ∨ i = .encHuff ∨ i = .encRle →
        (resultOf i I cap).err = .none ∨ (resultOf i I cap).err = .outputOverflow) := by
  cases i with
  | encBest => simp [resultOf, encBestResult, hh, encodeResult_lengths, encodeResult_err]
  | encHuff => simp [resultOf, encHuffResult, hh, encodeResult_lengths, encodeResult_err]
  | encRle => simp [resultOf, encRleResult, encodeResult_lengths, encodeResult_err]
  | decode => simp [resultOf, decodeResult_lengths]
  | _ => exact absurd hi (by decide)

/-- Settles O26: the input is short enough to have a Huffman container, so an encode reports its lengths both on success
and on overflow, its only outcomes. -/
theorem candidateLengthsAreReported : Obligations.CandidateLengthsAreReported := by
  intro i s t I hi hs hI ht
  obtain rfl := Host.Outcome.next.inj ((exec_completing hi hs hI).symm.trans ht)
  have hbound : I.length ≤ 2 ^ 32 - 1 := by
    obtain ⟨_, hlen, _, _⟩ := hI
    rw [← hlen]
    exact Nat.le_pred_of_lt s.lSrcLen.isLt
  obtain ⟨h, hh⟩ := huffEncode_ok hbound
  obtain ⟨hhl, hrl, herr⟩ := resultOf_candidateLengths hi hh s.cap
  rw [finishCommand_huffLen, finishCommand_rleLen, finishCommand_err, hhl, hrl]
  refine ⟨fun h' hh' => ?_, ?_⟩
  · obtain rfl := Except.ok.inj (hh.symm.trans hh')
    exact if_congr (and_iff_left_of_imp fun henc => herr (henc.imp_right .inl)).symm rfl rfl
  · exact if_congr (and_iff_left_of_imp fun henc => herr (henc.imp_right .inr)).symm rfl rfl

end Sys2Proof.Machine

/-! PROOFS. Legal and illegal accesses: the transactions of the host script, and the refusal of the others (R61,
R62, R109, R110). -/

namespace Sys2Proof.Machine

/-! ### The transactions of a script line -/

/-- R61, R62: the bus transaction of a host operation, where it names an access, has a legal one. -/
def opLegal (p : Params) : HostOp → Prop
  | .write a _ => accessLegal p a = true
  | .read a _ => accessLegal p a = true
  | .poll => True
  | .waitIrq => True

/-- R21, R61: every named register lies at a legal offset. -/
theorem accessLegal_regAccess (p : Params) (r : Reg) : accessLegal p (regAccess r) = true := by
  cases r <;> rfl

theorem accessLegal_bufAccess (p : Params) (b : Buf) (a : Nat) :
    accessLegal p (bufAccess b a) = true ↔ a < p.size b :=
  (accessLegal_iff p (bufAccess b a)).trans (and_iff_right rfl)

/-- R110: `FILL` from `base` stays below the end of what it writes. -/
theorem fillFrom_legal (p : Params) (bytes : List Byte) (base : Nat) (h : base + bytes.length ≤ p.srcMemSize) :
    ∀ op ∈ fillFrom base bytes, opLegal p op := by
  induction bytes generalizing base with
  | nil => intro op hop; cases hop
  | cons b bytes ih =>
    rw [List.length_cons] at h
    refine List.forall_mem_cons.2 ⟨(accessLegal_bufAccess p .src base).2 ?_, ih (base + 1) (by omega)⟩
    change base < p.srcMemSize
    omega

/-- R109, R110: the transactions of a well-formed line, one case for each mnemonic and pseudo-instruction. -/
theorem expandLine_legal (p : Params) (line : ScriptLine) (h : line.wf p = true) :
    ∀ op ∈ expandLine line, opLegal p op := by
  cases line with
  | wr r v => exact List.forall_mem_singleton.2 (accessLegal_regAccess p r)
  | rd r n => exact List.forall_mem_singleton.2 (accessLegal_regAccess p r)
  | stb b a v =>
    obtain ⟨ha, _⟩ : a < p.size b ∧ v.fitsByte = true := by simpa [ScriptLine.wf] using h
    exact List.forall_mem_singleton.2 ((accessLegal_bufAccess p b a).2 ha)
  | ldb b a n => exact List.forall_mem_singleton.2 ((accessLegal_bufAccess p b a).2 (of_decide_eq_true h))
  | fillSrc bytes =>
    have hfit : bytes.length ≤ p.srcMemSize := of_decide_eq_true h
    exact fillFrom_legal p bytes 0 (by omega)
  | dumpDst count name =>
    have hfit : count ≤ p.dstMemSize := of_decide_eq_true h
    refine List.forall_mem_map.2 fun i hi => (accessLegal_bufAccess p .dst i).2 ?_
    exact (List.mem_range.1 hi).trans_le hfit
  | copyDstToSrc count =>
    obtain ⟨hsrc, hdst⟩ : count ≤ p.srcMemSize ∧ count ≤ p.dstMemSize := by simpa [ScriptLine.wf] using h
    refine List.forall_mem_flatMap.2 fun i hi => ?_
    have hi' : i < count := List.mem_range.1 hi
    exact List.forall_mem_cons.2 ⟨(accessLegal_bufAccess p .dst i).2 (hi'.trans_le hdst),
      List.forall_mem_singleton.2 ((accessLegal_bufAccess p .src i).2 (hi'.trans_le hsrc))⟩
  | poll => exact List.forall_mem_singleton.2 trivial
  | run i =>
    exact List.forall_mem_cons.2 ⟨accessLegal_regAccess p .cmd, List.forall_mem_singleton.2 trivial⟩
  | clear => exact List.forall_mem_singleton.2 (accessLegal_regAccess p .status)

/-- Settles O59, by cases on the line: its register accesses are of named registers, its byte accesses within the range
that `ScriptLine.wf` checks. -/
theorem scriptLinesAreLegalAccesses : Obligations.ScriptLinesAreLegalAccesses := by
  intro p line hwf op hop
  have hlegal : opLegal p op := expandLine_legal p line hwf op hop
  cases op <;> exact hlegal

/-! ### Illegal accesses -/

theorem hostOp_write_illegal {s : State} {a : Access} (hl : accessLegal s.params a = false) (v : HostVal)
    (rest : List HostOp) : hostOp (.write a v) rest s = .refused (.illegalAccess a) := by
  simp [hostOp, hl]

theorem hostOp_read_illegal {s : State} {a : Access} (hl : accessLegal s.params a = false) (n : HostName)
    (rest : List HostOp) : hostOp (.read a n) rest s = .refused (.illegalAccess a) := by
  simp [hostOp, hl]

/-- A step in which the host's next operation is refused. -/
theorem step_host_refused {s : State} {op : HostOp} {rest : List HostOp} {r : Refusal} (ht : s.turn = .host)
    (hs : s.script = op :: rest) (hr : hostOp op rest s = .refused r) : step s = .refused r := by
  simp [step, event, ht, hostTurn, hs, hr, mapNext]

/-- R61, R62: a host step at an illegal access, a write or a read, is refused. -/
theorem step_illegalAccess {s : State} {a : Access} (ht : s.turn = .host) (hl : accessLegal s.params a = false)
    (v : HostVal) (n : HostName) (rest : List HostOp) :
    (s.script = .write a v :: rest → step s = .refused (.illegalAccess a))
      ∧ (s.script = .read a n :: rest → step s = .refused (.illegalAccess a)) :=
  ⟨fun hs => step_host_refused ht hs (hostOp_write_illegal hl v rest),
    fun hs => step_host_refused ht hs (hostOp_read_illegal hl n rest)⟩

/-- Settles O10: what the statement excludes is what `accessLegal_iff` asks of an access of each space. -/
theorem illegalAccessHasNoStep : Obligations.IllegalAccessHasNoStep := by
  refine ⟨fun s o w v n rest ht hbad => step_illegalAccess ht (Bool.eq_false_iff.2 fun hl => ?_) v n rest,
    fun s b a w v n rest ht hbad => step_illegalAccess ht (Bool.eq_false_iff.2 fun hl => ?_) v n rest⟩
  · have hlegal : w = 32 ∧ o % 4 = 0 ∧ o ≤ 0xFC := (accessLegal_iff _ _).1 hl
    omega
  · have hlegal : w = 8 ∧ a < s.params.size b := (accessLegal_iff _ _).1 hl
    omega

/-! ### Reading twice -/

/-- R68, R75: a read that is no fresh draw returns the same after the record of that read. -/
theorem hostLoadValue_hostLoadRecord {b : Buf} {a : Nat} {s : State} (hfresh : drawsFresh b s = false) (n : HostName)
    (v : Word) : hostLoadValue b a (bindValue n v (hostLoadRecord b a s)) = hostLoadValue b a s := by
  have hfresh' : drawsFresh b (bindValue n v (hostLoadRecord b a s)) = false := hfresh
  rw [hostLoadValue, hostLoadValue, hfresh', hfresh]
  cases b <;> rfl

/-- Settles O14: only a read of `DST` while busy is a fresh draw. -/
theorem hostReadsAreIdempotent : Obligations.HostReadsAreIdempotent := by
  intro s b a n v h
  refine hostLoadValue_hostLoadRecord ?_ n v
  obtain rfl | hidle := h
  · rfl
  · rw [drawsFresh, (busy_eq_false s).2 hidle, Bool.and_false]

end Sys2Proof.Machine

/-! PROOFS. What a step can do to the machine as a whole: no step faults (R61, R62, R274), and no host step touches the
command in flight (R77, R226, R297). -/

namespace Sys2Proof.Machine

/-! ### The outcomes of a step -/

/-- R274: the outcome of a move from `s` is a next state, or the refusal of an illegal access or of an unbound name. -/
def NextOrRefused (s : State) (o : Host.Outcome State Fault Refusal) : Prop :=
  (∃ t, o = .next t) ∨ (∃ a, o = .refused (.illegalAccess a) ∧ accessLegal s.params a = false)
    ∨ ∃ n, o = .refused (.unboundName n) ∧ lookupName s.names n = none

theorem NextOrRefused.mapNext {s : State} {o : Host.Outcome State Fault Refusal} (f : State → State)
    (h : NextOrRefused s o) : NextOrRefused s (mapNext f o) := by
  obtain ⟨t, rfl⟩ | ⟨a, rfl, ha⟩ | ⟨n, rfl, hn⟩ := h
  · exact .inl ⟨f t, rfl⟩
  · exact .inr (.inl ⟨a, rfl, ha⟩)
  · exact .inr (.inr ⟨n, rfl, hn⟩)

/-- A legal host write always has a step. -/
theorem hostWrite_next (a : Access) (v : Word) (s : State) : ∃ t, hostWrite a v s = .next t := by
  obtain ⟨_, _, hx⟩ | ⟨_, hx⟩ | ⟨b, _, hx⟩ := hostWrite_cases a v s <;> rw [hx]
  · exact exec_next _ _
  · exact ⟨_, rfl⟩
  · exact ⟨_, rfl⟩

/-- R109: an operand has a value, or is a name no read has bound. -/
theorem hostValue_cases (s : State) (v : HostVal) :
    (∃ w, s.hostValue v = .ok w) ∨ ∃ n, s.hostValue v = .error (.unboundName n) ∧ lookupName s.names n = none := by
  cases v with
  | lit w => exact .inl ⟨w, rfl⟩
  | var n =>
    cases hn : lookupName s.names n with
    | some w => exact .inl ⟨w, by simp [State.hostValue, hn]⟩
    | none => exact .inr ⟨n, by simp [State.hostValue, hn], hn⟩

theorem hostOp_nextOrRefused (op : HostOp) (rest : List HostOp) (s : State) :
    NextOrRefused s (hostOp op rest s) := by
  cases op with
  | write a v =>
    cases hl : accessLegal s.params a with
    | false => exact .inr (.inl ⟨a, hostOp_write_illegal hl v rest, hl⟩)
    | true =>
      obtain ⟨w, hv⟩ | ⟨n, hv, hn⟩ := hostValue_cases s v
      · exact .inl (by simpa [hostOp, hl, hv] using hostWrite_next a w (withScript rest s))
      · exact .inr (.inr ⟨n, by simp [hostOp, hl, hv], hn⟩)
  | read a n =>
    cases hl : accessLegal s.params a with
    | false => exact .inr (.inl ⟨a, hostOp_read_illegal hl n rest, hl⟩)
    | true => exact .inl ⟨hostRead a n (withScript rest s), by simp [hostOp, hl]⟩
  | poll => exact .inl ⟨_, rfl⟩
  | waitIrq => exact .inl ⟨_, rfl⟩

theorem hostTurn_nextOrRefused (s : State) : NextOrRefused s (hostTurn s) := by
  unfold hostTurn
  cases s.script with
  | nil => exact .inl ⟨s, rfl⟩
  | cons op rest => exact hostOp_nextOrRefused op rest s

/-- R225, R243: the engine's turn has a step, since a command in flight has one of the four latched opcodes. -/
theorem engineTurn_next {s : State} (h : s.Inv) : ∃ t, engineTurn s = .next t := by
  cases he : s.eng with
  | idle => exact ⟨s, by simp [engineTurn, he]⟩
  | busy => simpa [engineTurn, he, h.op he] using exec_next (decodeOp s.lOp) s

theorem event_nextOrRefused {s : State} (h : s.Inv) : NextOrRefused s (event s) := by
  unfold event
  cases s.turn with
  | host => exact hostTurn_nextOrRefused s
  | engine => exact .inl (engineTurn_next h)
  | reset => exact .inl ⟨_, rfl⟩

/-- Settles O52: passing the move on changes neither refusal. -/
theorem stepNeverFaults : Obligations.StepNeverFaults :=
  fun _ h => (event_nextOrRefused h).mapNext advance

/-! ### The command in flight at a host step -/

/-- R35: the engine's state and its three latches. -/
def State.inFlight (s : State) : Eng × BitVec 4 × Word × Word := (s.eng, s.lOp, s.lSrcLen, s.lCap)

/-- R226: a command written while busy does nothing. -/
theorem exec_of_busy (i : Instr) {s : State} (heng : s.eng = .busy) (hturn : s.turn ≠ .engine) : exec i s = .next s := by
  have hidle : s.eng ≠ .idle := by rw [heng]; decide
  obtain hx | ⟨he, _⟩ | ⟨he, _⟩ | ⟨he, _⟩ | ⟨_, ht, _⟩ := exec_cases i s
  · exact hx
  · exact absurd he hidle
  · exact absurd he hidle
  · exact absurd he hidle
  · exact absurd ht hturn

theorem regWrite_inFlight (o : Nat) (v : Word) (s : State) : (regWrite o v s).inFlight = s.inFlight := by
  obtain hx | ⟨_, hx⟩ | ⟨_, hx⟩ | ⟨_, hx⟩ | ⟨_, hx⟩ := regWrite_cases o v s <;> rw [hx] <;> rfl

theorem hostRead_inFlight (a : Access) (n : HostName) (s : State) : (hostRead a n s).inFlight = s.inFlight := by
  obtain ⟨_, hx⟩ | ⟨b, _, hx⟩ := hostRead_cases a n s <;> rw [hx] <;> rfl

theorem hostWrite_inFlight {a : Access} {v : Word} {s t : State} (heng : s.eng = .busy) (hturn : s.turn ≠ .engine)
    (ht : hostWrite a v s = .next t) : t.inFlight = s.inFlight := by
  obtain ⟨_, _, hx⟩ | ⟨_, hx⟩ | ⟨b, _, hx⟩ := hostWrite_cases a v s <;> rw [hx] at ht
  · rw [exec_of_busy _ heng hturn] at ht
    obtain rfl := Host.Outcome.next.inj ht
    rfl
  · obtain rfl := Host.Outcome.next.inj ht
    exact regWrite_inFlight _ _ _
  · obtain rfl := Host.Outcome.next.inj ht
    rfl

theorem hostOp_inFlight {op : HostOp} {rest : List HostOp} {s t : State} (heng : s.eng = .busy)
    (hturn : s.turn ≠ .engine) (ht : hostOp op rest s = .next t) : t.inFlight = s.inFlight := by
  obtain ⟨a, v, w, _, _, _, hx⟩ | ⟨a, n, _, _, rfl⟩ | ⟨ops, rfl⟩ | ⟨ops, rfl⟩ := hostOp_cases op rest s t ht
  · exact hostWrite_inFlight (s := withScript rest s) heng hturn hx
  · exact hostRead_inFlight a n (withScript rest s)
  · rfl
  · rfl

theorem hostTurn_inFlight {s t : State} (heng : s.eng = .busy) (hturn : s.turn ≠ .engine)
    (ht : hostTurn s = .next t) : t.inFlight = s.inFlight := by
  unfold hostTurn at ht
  split at ht
  · obtain rfl := Host.Outcome.next.inj ht
    rfl
  · exact hostOp_inFlight heng hturn ht

/-- Settles O55: of the host's moves only a command write could touch the engine, and while busy it does nothing. -/
theorem hostCannotCancelACommand : Obligations.HostCannotCancelACommand := by
  intro s t heng hturn ht
  obtain ⟨u, hu, rfl⟩ := step_eq_next s t ht
  have hhost : hostTurn s = .next u := by simpa [event, hturn] using hu
  have hsame : u.inFlight = s.inFlight := hostTurn_inFlight heng (by rw [hturn]; decide) hhost
  simpa [State.inFlight, heng] using hsame

end Sys2Proof.Machine

/-! PROOFS. What a completion leaves unchanged (R69, R238 to R243). -/

namespace Sys2Proof.Machine

/-- R240, R241: a completion stores the output at the bottom of `DST`, which on an error is no byte. -/
theorem finishCommand_dst_eq_setPrefix {r : CmdResult} {s : State} (hr : r.within s.cap) :
    (finishCommand r s).dst = s.dst.setPrefix r.out := by
  by_cases hok : r.err = .none
  · exact if_pos hok
  · rw [finishCommand_dst, if_neg hok, hr.2 hok, setPrefix_nil]

/-- R240: the bytes of `DST` from `DST_LEN` on are kept. -/
theorem finishCommand_dst_above {r : CmdResult} {s : State} (hr : r.within s.cap) {a : Nat}
    (ha : (finishCommand r s).dstLen.toNat ≤ a) : (finishCommand r s).dst.get? a = s.dst.get? a := by
  obtain ⟨hlen, _⟩ := finishCommand_dst_out hr
  rw [finishCommand_dst_eq_setPrefix hr, get?_setPrefix, if_neg (by omega)]

/-- R241: an error stores nothing and reports no output. -/
theorem finishCommand_error {r : CmdResult} {s : State} (hr : r.within s.cap) (herr : r.err ≠ .none) :
    (finishCommand r s).dstLen = 0#32 ∧ (finishCommand r s).dst = s.dst := by
  rw [finishCommand_dst_eq_setPrefix hr, hr.2 herr]
  exact ⟨if_neg herr, setPrefix_nil _⟩

/-- R239: `DST_LEN` is at most the latched capacity. -/
theorem finishCommand_dstLen_le {r : CmdResult} {s : State} (hr : r.within s.cap) :
    (finishCommand r s).dstLen.toNat ≤ s.lCap.toNat := by
  obtain ⟨hlen, _⟩ := finishCommand_dst_out hr
  exact hlen.trans_le hr.1

/-- R38: adding one kind of fault leaves the other as it was. -/
theorem addIf_uninitRead_hostHazard (f : FaultRecord) (c : Bool) :
    (f.addIf .uninitRead c).hostHazard = f.hostHazard := by
  simp [FaultRecord.addIf]

/-- Settles O25: every completion is `finishCommand` of a result within its limits, which touches `DST` below `DST_LEN`
and the reports, and nothing else. -/
theorem completionFrame : Obligations.CompletionFrame := by
  intro i s t hi hturn heng ht
  obtain rfl := Host.Outcome.next.inj ((exec_engineTurn hi hturn heng).symm.trans ht)
  have hr : (commandResult (resultOf i) s).within s.cap := commandResult_within i s
  refine ⟨fun _ => rfl, fun a ha => finishCommand_dst_above hr ha, fun herr => ?_, finishCommand_dstLen_le hr,
    rfl, rfl, rfl, rfl, rfl, rfl, rfl, rfl, rfl, rfl, rfl, (addIf_uninitRead_hostHazard _ _).symm⟩
  obtain ⟨hlen, hdst⟩ := finishCommand_error hr herr
  exact ⟨hlen, fun a => by rw [hdst]⟩

end Sys2Proof.Machine

/-! PROOFS. The command word: every value is one row of the opcode table (R91, R92), and decoding inverts encoding (R90,
R93). -/

namespace Sys2Proof.Machine

/-- Settles O1, by the opcode map on each of the words. -/
theorem commandWordsDecodeToTheirRows : Obligations.CommandWordsDecodeToTheirRows := by
  unfold Obligations.CommandWordsDecodeToTheirRows
  decide

/-- R90: the reserved bits stand outside the `OP` field. -/
theorem opField_encodeWith (reserved : BitVec 28) (i : Instr) : opField (encodeWith reserved i) = i.op := by
  refine BitVec.eq_of_getLsbD_eq fun k hk => ?_
  have hlow : k < 32 := by omega
  simp [opField, encodeWith, hk, hlow]

theorem opField_encode (i : Instr) : opField (encode i) = i.op := by
  rw [← opField_encodeWith 0#28 i]
  simp [encode, encodeWith]

theorem decode_encode (i : Instr) : decode (encode i) = i := by
  rw [decode, opField_encode, decodeOp_op]

/-- R93: encoding gives back the `OP` bits and clears the others. -/
theorem encode_decode (v : Word) : encode (decode v) = v &&& 0x0000000F#32 := by
  rw [encode, decode, op_decodeOp, and_mask_eq_opField]

/-- Settles O3: the `OP` field of the word of a command is the command's `OP`, whatever its reserved bits. -/
theorem decodeInvertsEncode : Obligations.DecodeInvertsEncode :=
  ⟨fun i _ => ⟨decode_encode i, fun reserved => by rw [decode, opField_encodeWith, decodeOp_op]⟩, encode_decode⟩

/-- R91: every command has its row in the opcode table. -/
theorem row_mem_opcodeTable (i : Instr) : Laws.OpcodeRow.Statement i := by
  cases i
  exacts [Laws.OpcodeRow.nop, Laws.OpcodeRow.encBest, Laws.OpcodeRow.encHuff, Laws.OpcodeRow.encRle,
    Laws.OpcodeRow.decode, Laws.OpcodeRow.reserved5, Laws.OpcodeRow.reserved6, Laws.OpcodeRow.reserved7,
    Laws.OpcodeRow.reserved8, Laws.OpcodeRow.reserved9, Laws.OpcodeRow.reservedA, Laws.OpcodeRow.reservedB,
    Laws.OpcodeRow.reservedC, Laws.OpcodeRow.reservedD, Laws.OpcodeRow.reservedE, Laws.OpcodeRow.reservedF]

/-- R92: every row of the table is the row of its command: the mask of the `OP` field, and the command's word. -/
theorem eq_row_of_mem : ∀ r ∈ opcodeTable, r = ⟨0x0000000F#32, encode r.instr, r.instr⟩ := by decide

/-- R92: a row admits exactly the values that decode to its command. -/
theorem admits_iff {r : OpcodeRow} (hr : r ∈ opcodeTable) (v : Word) : r.admits v = true ↔ r.instr = decode v := by
  rw [eq_row_of_mem r hr, OpcodeRow.admits, beq_iff_eq, ← encode_decode]
  exact ⟨fun h => by simpa [decode_encode] using (congrArg decode h).symm, fun h => (congrArg encode h).symm⟩

/-- Settles O2: a row is determined by its command, and a row that admits `v` is the row of `decode v`. -/
theorem everyWrittenValueIsExactlyOneRow : Obligations.EveryWrittenValueIsExactlyOneRow := by
  intro v
  have hmem := row_mem_opcodeTable (decode v)
  refine ⟨⟨_, hmem, (admits_iff hmem v).2 rfl, rfl, fun r hr hadmits => ?_⟩, fun w h => ?_⟩
  · rw [eq_row_of_mem r hr, (admits_iff hr v).1 hadmits]
  · rw [decode, decode, opField_congr v w h]

end Sys2Proof.Machine

/-! PROOFS. The byte layouts of the serialized table and of the two containers, and their lengths (R97 to R107, R162,
R202). -/

namespace Sys2Proof.Machine

/-! ### The serialized table -/

theorem insertEntry_pairwise (e : Symbol × Bits) {C : CodeTable} (hC : C.Pairwise (fun e f => e.1.num ≤ f.1.num)) :
    (insertEntry e C).Pairwise (fun e f => e.1.num ≤ f.1.num) := by
  induction C with
  | nil => exact List.pairwise_singleton _ _
  | cons f C ih =>
    obtain ⟨hf, hC'⟩ := List.pairwise_cons.1 hC
    rw [insertEntry]
    split
    · next hle => exact List.pairwise_cons.2 ⟨List.forall_mem_cons.2 ⟨hle, fun g hg => hle.trans (hf g hg)⟩, hC⟩
    · next hgt =>
      have hbound : ∀ g ∈ e :: C, f.1.num ≤ g.1.num := List.forall_mem_cons.2 ⟨(Nat.lt_of_not_le hgt).le, hf⟩
      exact List.pairwise_cons.2 ⟨fun g hg => hbound g ((insertEntry_perm e C).mem_iff.1 hg), ih hC'⟩

theorem ascending_pairwise_le (C : CodeTable) : (ascending C).Pairwise (fun e f => e.1.num ≤ f.1.num) := by
  induction C with
  | nil => exact List.Pairwise.nil
  | cons e C ih => exact insertEntry_pairwise e ih

/-- R103: a table with no symbol twice is serialized in strictly ascending symbol number. -/
theorem ascending_pairwise_lt {C : CodeTable} (hC : (C.map Prod.fst).Nodup) :
    (ascending C).Pairwise (fun e f => e.1.num < f.1.num) := by
  have hne : (ascending C).Pairwise (fun e f => e.1 ≠ f.1) :=
    List.pairwise_map.1 (((ascending_perm C).map Prod.fst).symm.nodup hC)
  exact ((ascending_pairwise_le C).and hne).imp fun ⟨hle, hs⟩ => lt_of_le_of_ne hle (Symbol.num_injective.ne hs)

/-- R107: each entry takes its three bytes and the bytes of its code, in whatever order the entries stand. -/
theorem length_of_serTable {C : CodeTable} {tb : List Byte} (h : serTable C = .ok tb) : tb.length = tableLength C := by
  obtain ⟨_, rfl⟩ := (serTable_eq_ok C tb).1 h
  simp only [List.length_flatMap, length_serEntry]
  exact ((ascending_perm C).map _).sum_eq

/-- R98: at most 257 entries of at most 35 bytes. -/
theorem length_of_serTable_codeTable_le {I tb : List Byte} (h : serTable (codeTable I) = .ok tb) :
    tb.length ≤ 8995 := by
  obtain ⟨hshort, rfl⟩ := (serTable_eq_ok _ tb).1 h
  have hperm := ascending_perm (codeTable I)
  have hentries := length_serialized_le fun e he => hshort e (hperm.mem_iff.1 he)
  have hcount := hperm.length_eq.trans_le (length_codeTable_le I)
  omega

/-! ### The Huffman container -/

/-- R163: the bit data are the codes of the input's bytes and of `EOS`, packed. -/
theorem packData_eq (C : CodeTable) (I : List Byte) :
    packData C I = pack (codeBits C I ++ (codeOf C .eos).getD []) := rfl

theorem huffEncode_eq_ok (I h : List Byte) :
    huffEncode I = .ok h ↔
      ∃ tb, serTable (codeTable I) = .ok tb ∧ huffContainer tb (packData (codeTable I) I) = h :=
  exceptMap_eq_ok_iff _ _ _

theorem length_codeBits (C : CodeTable) (I : List Byte) :
    (codeBits C I).length = (I.map (fun b => ((codeOf C (.byte b)).getD []).length)).sum := by
  induction I with
  | nil => rfl
  | cons b I ih => rw [codeBits, List.length_append, ih, List.map_cons, List.sum_cons]

theorem length_packData (C : CodeTable) (I : List Byte) : (packData C I).length = ceil8 (codeBitCount C I) := by
  rw [packData_eq, length_pack, List.length_append, length_codeBits, codeBitCount]

/-- R97: the marker and the length field take three bytes. -/
theorem length_huffContainer (tb data : List Byte) :
    (huffContainer tb data).length = 3 + tb.length + data.length := by
  simp [huffContainer, u16be]
  omega

/-! ### The run-length container -/

theorem unitsOf_eq_flatMap (rs : List (Byte × Nat)) :
    unitsOf rs = rs.flatMap (fun r => (split r.1 r.2).flatMap (fun u => unit u.1 u.2)) := by
  induction rs with
  | nil => rfl
  | cons r rs ih => rw [List.flatMap_cons, ← ih]; rfl

theorem runsFrom_pos (cur : Byte) {cnt : Nat} (hcnt : 1 ≤ cnt) (I : List Byte) : ∀ r ∈ runsFrom cur cnt I, 1 ≤ r.2 := by
  induction I generalizing cur cnt with
  | nil => simpa [runsFrom] using hcnt
  | cons b I ih =>
    rw [runsFrom]
    split
    · exact ih cur (Nat.le_add_left 1 cnt)
    · exact List.forall_mem_cons.2 ⟨hcnt, ih b le_rfl⟩

/-- R200: no run is empty. -/
theorem runs_pos (I : List Byte) : ∀ r ∈ runs I, 1 ≤ r.2 := by
  cases I with
  | nil => simp [runs]
  | cons b I => exact runsFrom_pos b le_rfl I

theorem length_splitLoop (n : Nat) (s : Byte) {r : Nat} (hpos : 1 ≤ r) (hr : r < 65535 * (n + 1)) :
    (splitLoop n s r).length = (r + 65534) / 65535 := by
  induction n generalizing r with
  | zero => rw [splitLoop, List.length_singleton]; omega
  | succ n ih =>
    rw [splitLoop]
    split
    · next hfull =>
      simp only [rleCountMax] at hfull ⊢
      rw [List.length_cons, ih (by omega) (by omega)]
      omega
    · next hlast =>
      simp only [rleCountMax] at hlast
      rw [List.length_singleton]
      omega

/-- R201: a run that is not empty is split into as few units as hold it. -/
theorem length_split (s : Byte) {r : Nat} (hpos : 1 ≤ r) : (split s r).length = (r + 65534) / 65535 :=
  length_splitLoop _ s hpos (by rw [rleCountMax]; omega)

/-- R202: a unit takes three bytes. -/
theorem length_units (us : List (Byte × Nat)) : (us.flatMap (fun u => unit u.1 u.2)).length = 3 * us.length := by
  simp [List.length_flatMap, unit, u16be, Nat.mul_comm]

theorem length_unitsOf {rs : List (Byte × Nat)} (hpos : ∀ r ∈ rs, 1 ≤ r.2) :
    (unitsOf rs).length = 3 * (rs.map (fun r => (r.2 + 65534) / 65535)).sum := by
  induction rs with
  | nil => rfl
  | cons r rs ih =>
    obtain ⟨hr, hrs⟩ := List.forall_mem_cons.1 hpos
    rw [unitsOf, List.length_append, length_units, length_split r.1 hr, ih hrs, List.map_cons, List.sum_cons,
      Nat.mul_add]

/-- R107: the marker, and three bytes for each unit. -/
theorem length_rleEncode (I : List Byte) : (rleEncode I).length = 1 + 3 * unitCount I := by
  rw [rleEncode, List.length_cons, length_unitsOf (runs_pos I), unitCount, Nat.add_comm]

/-- Settles O44: the layouts are those of `serTable`, `huffContainer` and `unitsOf`, and the lengths are counted on
them. -/
theorem containerLengths : Obligations.ContainerLengths := by
  refine ⟨fun I tb h => ⟨ascending (codeTable I), ascending_perm _,
      ascending_pairwise_lt (isPrefixCode_codeTable I).nodup, ((serTable_eq_ok _ tb).1 h).2⟩,
    ⟨rfl, fun _ => rfl⟩, fun I h hh => ?layout, fun I => congrArg _ (unitsOf_eq_flatMap (runs I)),
    fun I tb h => ⟨length_of_serTable h, length_of_serTable_codeTable_le h⟩, fun I h hh => ?length, length_rleEncode⟩
  case layout =>
    obtain ⟨tb, htb, rfl⟩ := (huffEncode_eq_ok I h).1 hh
    exact ⟨tb, htb, rfl⟩
  case length =>
    obtain ⟨tb, htb, rfl⟩ := (huffEncode_eq_ok I h).1 hh
    rw [length_huffContainer, length_of_serTable htb, length_packData, ceil8]

end Sys2Proof.Machine

/-! PROOFS. The `POLL` of the host script (R110). -/

namespace Sys2Proof.Machine

/-- R110: a step in which the host polls. -/
theorem step_poll {s : State} {rest : List HostOp} (ht : s.turn = .host) (hs : s.script = .poll :: rest) :
    step s = .next (advance (withScript (if s.busy then .poll :: rest else rest) (bindValue .scratch s.status s))) := by
  have hbusy : s.status.getLsbD 0 = s.busy := getLsbD_status s (by decide)
  simp only [step, event, ht, hostTurn, hs, hostOp, hbusy]
  rfl

/-- Settles O60: what a polling step does, and what binding a name leaves of the others. -/
theorem pollRepeatsWhileBusy : Obligations.PollRepeatsWhileBusy := by
  intro s rest ht hs
  refine ⟨?_, by rw [lookupName_bindName, if_pos rfl], fun n hn => by rw [lookupName_bindName, if_neg hn]⟩
  simp only [step_poll ht hs, busy_eq_true]
  rfl

end Sys2Proof.Machine

/-! PROOFS. Every bit in its place: packed bytes bit by bit (R133, R135) and the bit reader (R134 to R136). -/

namespace Sys2Proof.Machine

/-- R11: bit `i` of a byte in reading order is its bit `7 - i`. -/
theorem getD_bitsMSB (b : Byte) {i : Nat} (h : i < 8) : (bitsMSB b).getD i false = b.getLsbD (7 - i) := by
  interval_cases i <;> rfl

/-- R135: bit `i` of byte `k`, bit 7 first, stands at place `8k + i`; past the last byte both sides read 0. -/
theorem getD_bitsOf (q : List Byte) (k : Nat) {i : Nat} (h : i < 8) :
    (bitsOf q).getD (8 * k + i) false = (q.getD k 0#8).getLsbD (7 - i) := by
  induction q generalizing k with
  | nil => simp [bitsOf]
  | cons b q ih =>
    cases k with
    | zero =>
      rw [bitsOf, List.getD_append _ _ _ _ (by simpa [bitsMSB] using h), Nat.mul_zero, Nat.zero_add, getD_bitsMSB b h]
      rfl
    | succ k =>
      have hplace : 8 * (k + 1) + i = 8 + (8 * k + i) := by omega
      rw [bitsOf, List.getD_append_right _ _ _ _ (by simp [bitsMSB]; omega), List.getD_cons_succ, ← ih k, hplace]
      simp [bitsMSB]

/-- Padding with the default changes no read. -/
theorem getD_append_replicate_false (s : Bits) (m n : Nat) :
    (s ++ List.replicate m false).getD n false = s.getD n false := by
  rcases Nat.lt_or_ge n s.length with h | h
  · rw [List.getD_append _ _ _ _ h]
  · rw [List.getD_append_right _ _ _ _ h, List.getD_eq_getElem?_getD, List.getElem?_getD_replicate_default_eq,
      List.getD_eq_default _ _ h]

/-- Settles O35: reading byte `k` of `pack s` reads `bitsOf (pack s)`, which is `s` and padding. -/
theorem packPlacesEveryBit : Obligations.PackPlacesEveryBit := by
  intro s
  refine ⟨length_pack s, fun k i _ hi => ?_⟩
  rw [← getD_bitsOf (pack s) k hi, bitsOf_pack, getD_append_replicate_false]

/-- Settles O36: `bitsOf (pack s)` is `s` followed by the padding. -/
theorem bitsInvertPack : Obligations.BitsInvertPack := by
  intro s
  rw [bitsOf_pack]
  exact ⟨List.take_left, List.drop_left⟩

/-- R135, R136: at the end of its bytes a reader answers `Exhausted` and stays. -/
theorem brBit_of_pos_eq {r : BitReader} (h : r.pos = 8 * r.bytes.length) : brBit r = (none, r) :=
  if_pos (by simp [BitReader.exhausted, h])

/-- R136: before the end a reader answers the bit of `BITS` at its place and moves one bit on. -/
theorem brBit_of_pos_lt {r : BitReader} (h : r.pos < 8 * r.bytes.length) :
    brBit r = (some ((bitsOf r.bytes).getD r.pos false), { r with pos := r.pos + 1 }) := by
  have hbit := getD_bitsOf r.bytes (r.pos / 8) (Nat.mod_lt r.pos (by decide : 0 < 8))
  rw [Nat.div_add_mod] at hbit
  rw [hbit, brBit, if_neg (by simp [BitReader.exhausted, h.ne])]

/-- R135: before the end the bits still to yield begin with the one at the reader's place. -/
theorem remaining_eq_cons {r : BitReader} (h : r.pos < 8 * r.bytes.length) :
    r.remaining = (bitsOf r.bytes).getD r.pos false :: ({ r with pos := r.pos + 1 } : BitReader).remaining := by
  have hlt : r.pos < (bitsOf r.bytes).length := by rwa [length_bitsOf]
  rw [BitReader.remaining, List.drop_eq_getElem_cons hlt, List.getD_eq_getElem _ _ hlt, BitReader.remaining]

/-- Settles O37: the bit a read answers is the first of the bits still to yield. -/
theorem readerYieldsTheBitsInOrder : Obligations.ReaderYieldsTheBitsInOrder :=
  ⟨fun _ => rfl, fun _ _ => ⟨brBit_of_pos_eq, fun h => ⟨_, brBit_of_pos_lt h, remaining_eq_cons h⟩⟩⟩

end Sys2Proof.Machine

/-! PROOFS. The Huffman encoder's tables and tree: the counts of the frequency table (R150, R151), the order of
extraction (R153, R154), the nodes and sequence numbers of the tree (R155), and the codes of the smallest inputs (R159,
R165). -/

namespace Sys2Proof.Machine

/-- Settles O47: the table parses back to the encoder's own, and the bit data is read with it. -/
theorem huffmanRoundTrip : Obligations.HuffmanRoundTrip := fun _ _ _ hh hcap => huffDecode_huffEncode hh hcap

/-- Settles O41: the codes are the paths of a tree whose leaves hold the symbols of the frequency table. -/
theorem codeTablesArePrefixFree : Obligations.CodeTablesArePrefixFree := fun I =>
  have hcode := isPrefixCode_codeTable I
  ⟨keys_codeTable I, hcode.nodup, eos_mem_codeTable I, hcode.nonempty, hcode.prefixFree⟩

/-- Settles O42: a tree of height 46 would weigh at least the 48th Fibonacci number. -/
theorem codeLengthsAreBounded : Obligations.CodeLengthsAreBounded := fun _ hI =>
  ⟨fun _ he => length_of_mem_codeTable hI he, huffEncode_ok hI⟩

/-! ### The counts -/

/-- What a table counts for a symbol: the sum of the counts of its entries. -/
def countOf (F : FreqTable) (s : Symbol) : Nat := (F.map (fun e => if e.1 = s then e.2 else 0)).sum

theorem countOf_cons (e : Symbol × Nat) (F : FreqTable) (s : Symbol) :
    countOf (e :: F) s = (if e.1 = s then e.2 else 0) + countOf F s := rfl

theorem countOf_append (F G : FreqTable) (s : Symbol) : countOf (F ++ G) s = countOf F s + countOf G s := by
  simp [countOf]

theorem countOf_eq_zero {F : FreqTable} {s : Symbol} (h : s ∉ F.map Prod.fst) : countOf F s = 0 := by
  refine List.sum_eq_zero fun n hn => ?_
  obtain ⟨e, he, rfl⟩ := List.mem_map.1 hn
  exact if_neg fun hs : e.1 = s => h (hs ▸ List.mem_map_of_mem he)

/-- R14: in a table with one positive entry per symbol, an entry holds what the table counts for its symbol. -/
theorem mem_iff_countOf {F : FreqTable} (hF : (F.map Prod.fst).Nodup) (hpos : ∀ e ∈ F, 1 ≤ e.2) (s : Symbol) (c : Nat) :
    (s, c) ∈ F ↔ c = countOf F s ∧ 1 ≤ c := by
  induction F with
  | nil => simp [countOf]
  | cons e F ih =>
    obtain ⟨t, d⟩ := e
    obtain ⟨hnot, hF⟩ := List.nodup_cons.1 hF
    obtain ⟨hd, hpos⟩ := List.forall_mem_cons.1 hpos
    rw [countOf_cons, List.mem_cons, Prod.mk.injEq]
    by_cases h : t = s
    · subst h
      have hmem : (t, c) ∉ F := fun hc => hnot (List.mem_map.2 ⟨_, hc, rfl⟩)
      rw [countOf_eq_zero hnot, if_pos rfl, Nat.add_zero]
      simp only [hmem, or_false, true_and]
      exact ⟨fun hc => ⟨hc, hc ▸ hd⟩, And.left⟩
    · simp [h, Ne.symm h, ih hF hpos]

/-- R150: counting a symbol adds one to what the table counts for it, and nothing for the others. -/
theorem countOf_countSymbol (s t : Symbol) (F : FreqTable) :
    countOf (countSymbol s F) t = countOf F t + if s = t then 1 else 0 := by
  induction F with
  | nil => simp [countSymbol, countOf]
  | cons e F ih =>
    obtain ⟨u, c⟩ := e
    rw [countSymbol]
    split
    · next h => subst h; simp only [countOf_cons]; split <;> omega
    · split
      · simp only [countOf_cons]; omega
      · simp only [countOf_cons, ih]; omega

theorem countOf_countBytes (I : List Byte) (b : Byte) : countOf (countBytes I) (.byte b) = I.count b := by
  induction I using List.reverseRecOn with
  | nil => rfl
  | append_singleton I a ih =>
    rw [countBytes_concat, countOf_countSymbol, ih, List.count_append, List.count_singleton]
    simp

theorem countOf_freq_byte (I : List Byte) (b : Byte) : countOf (freq I) (.byte b) = I.count b := by
  rw [freq, countOf_append, countOf_countBytes]
  rfl

theorem countOf_freq_eos (I : List Byte) : countOf (freq I) .eos = 1 := by
  have hnot : Symbol.eos ∉ (countBytes I).map Prod.fst := fun h => by
    obtain ⟨b, _, hb⟩ := (mem_keys_countBytes I .eos).1 h
    cases hb
  rw [freq, countOf_append, countOf_eq_zero hnot]
  rfl

theorem mem_freq_iff (I : List Byte) (s : Symbol) (c : Nat) : (s, c) ∈ freq I ↔ c = countOf (freq I) s ∧ 1 ≤ c :=
  mem_iff_countOf (freq_nodup I) (freq_pos I) s c

theorem length_freq (I : List Byte) : (freq I).length = (countBytes I).length + 1 := by simp [freq]

/-- Settles O38: an entry holds what the scan counted for its symbol. -/
theorem frequencyTableCountsTheInput : Obligations.FrequencyTableCountsTheInput := by
  intro I
  refine ⟨fun b c => ?_, fun c => ?_, freq_ascending I, sum_freq I, ?_, length_freq_le I⟩
  · rw [mem_freq_iff, countOf_freq_byte]
  · rw [mem_freq_iff, countOf_freq_eos]; omega
  · rw [length_freq]; omega

/-! ### The order of extraction -/

/-- R153: the order of the keys, count first. -/
theorem Tree.not_before_iff (a b : Tree) :
    b.before a = false ↔ a.count < b.count ∨ (a.count = b.count ∧ a.seq ≤ b.seq) := by
  simp only [Tree.before, Bool.or_eq_false_iff, Bool.and_eq_false_iff, decide_eq_false_iff_not, beq_eq_false_iff_ne]
  omega

/-- R153: the nodes that stay in the queue keep their order. -/
theorem extractMin_sublist (t : Tree) (q : List Tree) : (extractMin t q).2.Sublist (t :: q) := by
  induction q generalizing t with
  | nil => exact List.nil_sublist _
  | cons u q ih =>
    rw [extractMin]
    split
    · exact List.sublist_cons_self _ _
    · exact (ih u).cons_cons t

/-- R153: an iteration keeps the order of the nodes it does not remove. -/
theorem dropLast_combineLeast_sublist (t u : Tree) (q : List Tree) (next : Nat) :
    (combineLeast t u q next).dropLast.Sublist (t :: u :: q) := by
  have hsub := extractMin_sublist t (u :: q)
  unfold combineLeast
  match hx : extractMin t (u :: q) with
  | (a, []) => exact List.nil_sublist _
  | (a, v :: q1) =>
    rw [hx] at hsub
    simpa using (extractMin_sublist v q1).trans hsub

/-- Settles O39: the extracted node is before or level with every other, and the second is extracted from what the first
extraction left. -/
theorem extractedNodeHasTheLeastKey : Obligations.ExtractedNodeHasTheLeastKey := by
  refine ⟨fun t q => ⟨extractMin_perm t q, extractMin_sublist t q, fun u hu => ?_⟩, fun t u q next => ?_⟩
  · exact (Tree.not_before_iff _ u).1 (extractMin_least t q u hu)
  · obtain ⟨a, b, others, hcombine, hperm, ha, hb⟩ := combineLeast_spec t u q next
    have hsub := dropLast_combineLeast_sublist t u q next
    rw [hcombine, List.dropLast_concat] at hsub
    exact ⟨a, b, others, hcombine, hperm, hsub, (Tree.not_before_iff a b).1 (ha b (by simp)),
      fun v hv => (Tree.not_before_iff b v).1 (hb v (by simp [hv]))⟩

/-! ### Nodes and sequence numbers -/

/-- What holds of the queue of R153 all along: its trees use the sequence numbers below the next one, once each, and an
internal node has been made for every node the queue has lost of the `n` leaves. -/
structure IsNumbered (n : Nat) (q : List Tree) (next : Nat) : Prop where
  seqs : (q.flatMap Tree.seqs).Perm (List.range next)
  nodes : (q.map Tree.nodes).sum + q.length = n

theorem IsNumbered.perm {n next : Nat} {q q' : List Tree} (h : IsNumbered n q next) (hp : q.Perm q') :
    IsNumbered n q' next where
  seqs := (hp.symm.flatMap_right _).trans h.seqs
  nodes := by rw [← (hp.map _).sum_eq, ← hp.length_eq, h.nodes]

theorem IsNumbered.combine {n next : Nat} {a b : Tree} {others : List Tree} (h : IsNumbered n (a :: b :: others) next) :
    IsNumbered n (combine a b next :: others) (next + 1) where
  seqs := by
    have hcons := (h.seqs.cons next).trans (List.perm_append_singleton next (List.range next)).symm
    rw [List.range_succ]
    simpa [Machine.combine, Tree.seqs] using hcons
  nodes := by
    have hnodes := h.nodes
    simp only [Machine.combine, Tree.nodes, List.map_cons, List.sum_cons, List.length_cons] at hnodes ⊢
    omega

theorem IsNumbered.combineLeast {n next : Nat} {t u : Tree} {q : List Tree} (h : IsNumbered n (t :: u :: q) next) :
    IsNumbered n (combineLeast t u q next) (next + 1) := by
  obtain ⟨a, b, others, hcombine, hperm, -, -⟩ := combineLeast_spec t u q next
  rw [hcombine]
  exact (h.perm hperm.symm).combine.perm (List.perm_append_singleton _ _).symm

theorem flatMap_seqs_leavesFrom (next : Nat) (F : FreqTable) :
    (leavesFrom next F).flatMap Tree.seqs = List.range' next F.length := by
  induction F generalizing next with
  | nil => rfl
  | cons e F ih => simp [leavesFrom, Tree.seqs, ih, List.range'_succ]

theorem sum_nodes_leavesFrom (next : Nat) (F : FreqTable) : ((leavesFrom next F).map Tree.nodes).sum = 0 := by
  induction F generalizing next with
  | nil => rfl
  | cons e F ih => simp [leavesFrom, Tree.nodes, ih]

theorem isNumbered_leavesFrom (F : FreqTable) : IsNumbered F.length (leavesFrom 0 F) F.length where
  seqs := by rw [flatMap_seqs_leavesFrom, List.range_eq_range']
  nodes := by rw [sum_nodes_leavesFrom, length_leavesFrom, Nat.zero_add]

/-- R155: the tree of an input is numbered from 0 to twice the number of its internal nodes. -/
theorem isNumbered_buildTree (I : List Byte) :
    IsNumbered (freq I).length [buildTree (freq I)] (2 * (freq I).length - 1) :=
  buildTree_induction (P := IsNumbered (freq I).length) (fun _ _ _ _ h => h.combineLeast) (by simp [freq])
    (isNumbered_leavesFrom _)

/-- Settles O40: every iteration makes one internal node of two nodes of the queue and gives it the next number. -/
theorem treeSpansTheAlphabet : Obligations.TreeSpansTheAlphabet := by
  intro I
  obtain ⟨hseqs, hnodes⟩ := isNumbered_buildTree I
  refine ⟨symbols_buildTree I, ?_, by simpa using hseqs, count_buildTree I⟩
  simp only [List.map_singleton, List.sum_singleton, List.length_singleton] at hnodes
  omega

/-! ### Inputs of at most one byte value -/

theorem length_codeTable (I : List Byte) : (codeTable I).length = (freq I).length := by
  simpa using (keys_codeTable I).length_eq

/-- R159: the code table has one entry for the empty input only. -/
theorem length_codeTable_eq_one_iff (I : List Byte) : (codeTable I).length = 1 ↔ I = [] := by
  rw [length_codeTable, length_freq]
  refine ⟨fun h => ?_, fun h => h ▸ rfl⟩
  have hnil : countBytes I = [] := List.length_eq_zero_iff.1 (by omega)
  exact List.length_eq_zero_iff.1 ((sum_countBytes I).symm.trans (by rw [hnil]; rfl))

theorem countBytes_replicate (b : Byte) (k : Nat) : countBytes (List.replicate (k + 1) b) = [(.byte b, k + 1)] := by
  induction k with
  | zero => rfl
  | succ k ih => rw [List.replicate_succ', countBytes_concat, ih, countSymbol, if_pos rfl]

theorem freq_replicate (b : Byte) (k : Nat) :
    freq (List.replicate (k + 1) b) = [(.byte b, k + 1), (.eos, 1)] := by
  rw [freq, countBytes_replicate]
  rfl

/-- R165: a byte that occurs once ties with `EOS` and comes first, by its sequence number. -/
theorem codeTable_singleton (b : Byte) : codeTable [b] = [(.byte b, [false]), (.eos, [true])] := rfl

/-- R165: a byte that occurs more than once outweighs `EOS`. -/
theorem codeTable_replicate (b : Byte) (k : Nat) :
    codeTable (List.replicate (k + 2) b) = [(.eos, [false]), (.byte b, [true])] := by
  have hbefore : (Tree.leaf (.byte b) (k + 2) 0).before (.leaf .eos 1 1) = false := by
    simp [Tree.before, Tree.count]
  simp [codeTable, freq_replicate, buildTree, leavesFrom, buildLoop, combineLeast, extractMin, hbefore, combine, codes,
    walk]

/-- Settles O43: `EOS` counts 1, so only a byte that occurs once has a lesser key than it. -/
theorem codesOfOneByteValueInputs : Obligations.CodesOfOneByteValueInputs := by
  refine ⟨rfl, length_codeTable_eq_one_iff, fun b k => ⟨freq_replicate b k, ?_⟩⟩
  cases k with
  | zero =>
    rw [Nat.zero_add, List.replicate_one, codeTable_singleton]
    simp [codeOf]
  | succ k =>
    rw [codeTable_replicate]
    simp [codeOf]

end Sys2Proof.Machine

/-! PROOFS. The table reconstructor, from the bytes back to the table (R181 to R187): what it accepts is what
`parseTable_serEntry` reads back, and all else is `CorruptCodeTable` (R262). -/

namespace Sys2Proof.Machine

/-! ### One entry -/

theorem bitsMSB_injective : Function.Injective bitsMSB := by
  intro a b h
  refine BitVec.eq_of_getLsbD_eq fun i hi => ?_
  have hbit := congrArg (fun s : Bits => s.getD (7 - i) false) h
  simp only [getD_bitsMSB _ (show 7 - i < 8 by omega)] at hbit
  rwa [show 7 - (7 - i) = i by omega] at hbit

/-- R135: different byte strings have different bits. -/
theorem bitsOf_injective : Function.Injective bitsOf := by
  intro p q h
  induction p generalizing q with
  | nil => cases q with
    | nil => rfl
    | cons b q => cases h
  | cons a p ih => cases q with
    | nil => cases h
    | cons b q =>
      obtain ⟨hhead, htail⟩ := List.append_inj h rfl
      rw [bitsMSB_injective hhead, ih htail]

/-- R182: two symbol bytes are refused, or are those of a symbol. -/
theorem checkSymbol_cases (hi lo : Byte) :
    checkSymbol hi lo = .error .corruptCodeTable ∨ ∃ s, checkSymbol hi lo = .ok s ∧ u16be s.num = [hi, lo] := by
  unfold checkSymbol
  split
  · next h =>
    have hlo : lo.toNat < 256 := lo.isLt
    exact .inr ⟨.byte lo, rfl, by simp [u16be, Symbol.num, h, Nat.div_eq_of_lt hlo, Nat.mod_eq_of_lt hlo]⟩
  · split
    · next h => exact .inr ⟨.eos, rfl, by rw [h.1, h.2]; rfl⟩
    · exact .inl rfl

/-- R184: code bytes are refused, or are a code of the given length, packed: the padding that the check asks for is the
padding that packing writes, so both have the same bits. -/
theorem codeBitsOf_cases {q : List Byte} {len : Nat} (hq : q.length = ceil8 len) :
    codeBitsOf q len = .error .corruptCodeTable ∨ ∃ c, codeBitsOf q len = .ok c ∧ c.length = len ∧ pack c = q := by
  unfold codeBitsOf
  split
  · exact .inl rfl
  · next hpad =>
    have hle : len ≤ (bitsOf q).length := by rw [length_bitsOf, hq, ceil8]; omega
    have hlen : ((bitsOf q).take len).length = len := List.length_take_of_le hle
    refine .inr ⟨_, rfl, hlen, bitsOf_injective ?_⟩
    have hzero : (bitsOf q).drop len = List.replicate (8 * ceil8 len - len) false := by
      refine List.eq_replicate_iff.2 ⟨by rw [List.length_drop, length_bitsOf, hq], fun x hx => ?_⟩
      simpa using fun hx1 : x = true => hpad (List.any_eq_true.2 ⟨x, hx, hx1⟩)
    rw [bitsOf_pack, hlen, ← hzero, List.take_append_drop]

/-- R181 to R184: the head of the table bytes is refused, or is a serialized entry with a legal length. -/
theorem parseEntry_cases (tb : List Byte) :
    parseEntry tb = .error .corruptCodeTable
    ∨ ∃ s c rest, tb = serEntry s c ++ rest ∧ 1 ≤ c.length ∧ c.length ≤ 255 := by
  unfold parseEntry
  split
  · next hi lo len rest =>
    obtain hsym | ⟨s, hsym, hnum⟩ := checkSymbol_cases hi lo
    · simp [hsym]
    by_cases hzero : len = 0x00#8
    · simp [hsym, checkLength, hzero]
    by_cases hroom : rest.length < ceil8 len.toNat
    · simp [hsym, checkLength, hzero, hroom]
    have hq : (rest.take (ceil8 len.toNat)).length = ceil8 len.toNat := List.length_take_of_le (Nat.not_lt.1 hroom)
    obtain hcode | ⟨c, -, hlen, hpack⟩ := codeBitsOf_cases hq
    · simp [hsym, checkLength, hzero, hroom, hcode]
    have hpos : len.toNat ≠ 0 := fun h => hzero (BitVec.eq_of_toNat_eq h)
    have hlt : len.toNat < 256 := len.isLt
    refine .inr ⟨s, c, rest.drop (ceil8 len.toNat), ?_, by omega, by omega⟩
    simp [serEntry, hnum, hlen, hpack]
  · exact .inl rfl

/-! ### The entries -/

/-- R181, R185: the table bytes are refused, or are serialized entries with symbols not yet in the table. -/
theorem parseEntries_cases (n : Nat) (tb : List Byte) {D : CodeTable} (hD : (D.map Prod.fst).Nodup) :
    parseEntries n tb D = .error .corruptCodeTable
    ∨ ∃ E : CodeTable, parseEntries n tb D = .ok (D ++ E) ∧ tb = E.flatMap (fun e => serEntry e.1 e.2)
      ∧ (∀ e ∈ E, 1 ≤ e.2.length ∧ e.2.length ≤ 255) ∧ ((D ++ E).map Prod.fst).Nodup := by
  induction n generalizing tb D with
  | zero => cases tb with
    | nil => exact .inr ⟨[], by simp [parseEntries], rfl, by simp, by simpa using hD⟩
    | cons b tb => exact .inl rfl
  | succ n ih => cases tb with
    | nil => exact .inr ⟨[], by simp [parseEntries], rfl, by simp, by simpa using hD⟩
    | cons b tb =>
      rw [parseEntries]
      obtain hbad | ⟨s, c, rest, htb, h1, h2⟩ := parseEntry_cases (b :: tb)
      · simp [hbad]
      rw [htb, parseEntry_serEntry s h1 h2 rest]
      by_cases hdup : (codeOf D s).isSome = true
      · simp [hdup]
      simp only [if_neg hdup]
      rw [codeOf_isSome_iff] at hdup
      have hD' : ((D ++ [(s, c)]).map Prod.fst).Nodup := by simpa using hD.concat hdup
      obtain herr | ⟨E, hok, hrest, hlen, hnodup⟩ := ih rest hD'
      · exact .inl herr
      · exact .inr ⟨(s, c) :: E, by simpa using hok, by simp [hrest], List.forall_mem_cons.2 ⟨⟨h1, h2⟩, hlen⟩,
          by simpa using hnodup⟩

/-! ### The whole table -/

theorem hasEos_iff (C : CodeTable) : hasEos C = true ↔ Symbol.eos ∈ C.map Prod.fst := codeOf_isSome_iff C .eos

/-- R187: what the prefix check checks. -/
theorem prefixFree_iff (C : CodeTable) :
    prefixFree C = true ↔ ∀ e ∈ C, ∀ f ∈ C, e.1 ≠ f.1 → ¬ e.2 <+: f.2 := by
  simp [prefixFree, or_iff_not_imp_left, ← Bool.not_eq_true, List.isPrefixOf_iff_prefix]

/-- What R181 to R187 ask of the bytes of a table: they are the entries of a prefix code that has `EOS` and codes of at
most 255 bits. -/
structure IsTableOf (C : CodeTable) (tb : List Byte) : Prop where
  code : IsPrefixCode C
  eos : Symbol.eos ∈ C.map Prod.fst
  short : ∀ e ∈ C, e.2.length ≤ 255
  bytes : tb = C.flatMap (fun e => serEntry e.1 e.2)

/-- R181 to R187, R262: a byte string is refused with `CorruptCodeTable`, or is a table, which it parses to. -/
theorem parseTable_cases (tb : List Byte) :
    parseTable tb = .error .corruptCodeTable ∨ ∃ C, parseTable tb = .ok C ∧ IsTableOf C tb := by
  unfold parseTable
  obtain hbad | ⟨C, hok, htb, hlen, hnodup⟩ := parseEntries_cases tb.length tb (D := []) List.nodup_nil
  · simp [hbad]
  rw [List.nil_append] at hok hnodup
  by_cases hchecks : (hasEos C && prefixFree C) = true
  · obtain ⟨heos, hfree⟩ := Bool.and_eq_true_iff.1 hchecks
    have hcode : IsPrefixCode C :=
      ⟨hnodup, fun e he => List.length_pos_iff.1 (hlen e he).1, (prefixFree_iff C).1 hfree⟩
    exact .inr ⟨C, by simp [hok, hchecks], hcode, (hasEos_iff C).1 heos, fun e he => (hlen e he).2, htb⟩
  · simp [hok, hchecks]

theorem parseTable_eq_ok_iff (tb : List Byte) (C : CodeTable) : parseTable tb = .ok C ↔ IsTableOf C tb := by
  refine ⟨fun h => ?_, fun h => h.bytes ▸ parseTable_serEntry h.code h.eos h.short⟩
  obtain hbad | ⟨D, hok, htable⟩ := parseTable_cases tb
  · cases hbad.symm.trans h
  · cases hok.symm.trans h
    exact htable

/-- R262: a table that does not parse is corrupt. -/
theorem parseTable_eq_error_iff (tb : List Byte) (e : ErrKind) :
    parseTable tb = .error e ↔ e = .corruptCodeTable ∧ ∀ C, parseTable tb ≠ .ok C := by
  obtain hbad | ⟨D, hok, -⟩ := parseTable_cases tb
  · simp [hbad, eq_comm]
  · simp [hok]

/-- Settles O33: `IsTableOf` with the length bounds of the codes put together. -/
theorem parserAcceptsExactlyTheWellFormedTables : Obligations.ParserAcceptsExactlyTheWellFormedTables := by
  refine ⟨fun tb C => (parseTable_eq_ok_iff tb C).trans ⟨fun h => ?_, ?_⟩,
    fun tb e he => ((parseTable_eq_error_iff tb e).1 he).1⟩
  · exact ⟨h.bytes, fun e he => ⟨List.length_pos_iff.2 (h.code.nonempty e he), h.short e he⟩, h.code.nodup, h.eos,
      h.code.prefixFree⟩
  · rintro ⟨hbytes, hlen, hnodup, heos, hfree⟩
    exact ⟨⟨hnodup, fun e he => List.length_pos_iff.1 (hlen e he).1, hfree⟩, heos, fun e he => (hlen e he).2, hbytes⟩

end Sys2Proof.Machine

/-! PROOFS. Decoding: under which capacities a container decodes, what bits after the code of `EOS` and bytes after them
change (R190, R192, R207, R265), and where `CorruptCodeTable` comes from (R193, R262). -/

namespace Sys2Proof.Machine

/-! ### More room, and more to read -/

/-- Emitting some bytes before the others takes their number off the room. -/
theorem map_append_fits (p out : List Byte) {n room : Nat} (hn : p.length = n) (h : n ≤ room) :
    (if out.length ≤ room - n then .ok out else .error ErrKind.outputOverflow : Except _ _).map (p ++ ·)
      = if (p ++ out).length ≤ room then .ok (p ++ out) else .error ErrKind.outputOverflow := by
  have hiff : (p ++ out).length ≤ room ↔ out.length ≤ room - n := by rw [List.length_append]; omega
  simp only [hiff]
  split <;> rfl

/-- R190, R192: what the symbol mapper does with more bits and other room, once it has decoded: it never reads past the
code of `EOS`, and the room decides whether the same bytes fit. -/
theorem mapBits_of_ok {C : CodeTable} {bits acc : Bits} {room : Nat} {out : List Byte}
    (h : mapBits C bits acc room = .ok out) (more : Bits) (room' : Nat) :
    mapBits C (bits ++ more) acc room' = if out.length ≤ room' then .ok out else .error .outputOverflow := by
  induction bits generalizing acc room out room' with
  | nil => simp [mapBits] at h
  | cons x bits ih =>
    rw [List.cons_append]
    unfold mapBits at h ⊢
    match hs : symbolOf C (acc ++ [x]) with
    | none => rw [hs] at h; exact ih h room'
    | some .eos => rw [hs] at h; cases h; rfl
    | some (.byte b) =>
      rw [hs] at h
      cases room with
      | zero => cases h
      | succ room =>
        obtain ⟨out, hrest, rfl⟩ := (exceptMap_eq_ok_iff _ _ _).1 h
        cases room' with
        | zero => rfl
        | succ room' =>
          simp only [ih hrest room']
          exact map_append_fits [b] out rfl (Nat.succ_le_succ (Nat.zero_le room'))

/-- R207: the capacity decides whether the bytes of some units fit. -/
theorem rleUnits_of_ok {d : List Byte} {room : Nat} {out : List Byte} (h : rleUnits d room = .ok out) (room' : Nat) :
    rleUnits d room' = if out.length ≤ room' then .ok out else .error .outputOverflow := by
  induction d, room using rleUnits.induct generalizing out room' with
  | case1 room => cases h; rfl
  | case2 s hi lo rest room hfull => simp [rleUnits, hfull] at h
  | case3 s hi lo rest room hroom ih =>
    rw [rleUnits, if_neg hroom, exceptMap_eq_ok_iff] at h
    obtain ⟨out, hrest, rfl⟩ := h
    rw [rleUnits]
    split
    · next hfull =>
      rw [if_neg]
      rw [List.length_append, List.length_replicate]
      omega
    · next hroom' =>
      rw [ih hrest]
      exact map_append_fits _ out List.length_replicate (Nat.not_lt.1 hroom')
  | case4 d room hnil hunit => simp [rleUnits] at h

theorem bitsOf_append (p q : List Byte) : bitsOf (p ++ q) = bitsOf p ++ bitsOf q := by
  induction p with
  | nil => rfl
  | cons b p ih => rw [List.cons_append, bitsOf, ih, bitsOf, List.append_assoc]

/-- R189: a fresh reader yields all bits. -/
theorem mapSymbols_eq (C : CodeTable) (data : List Byte) (cap : Nat) :
    mapSymbols C data cap = mapBits C (bitsOf data) [] cap := rfl

/-- R180: what a complete header leads to. -/
theorem huffDecode_of_le {hi lo : Byte} {rest : List Byte} (m : Byte) (hlen : be16 hi lo ≤ rest.length) (cap : Nat) :
    huffDecode (m :: hi :: lo :: rest) cap =
      (parseTable (rest.take (be16 hi lo))).bind fun C => mapSymbols C (rest.drop (be16 hi lo)) cap := by
  rw [huffDecode, if_neg (Nat.not_lt.2 hlen)]
  cases parseTable (rest.take (be16 hi lo)) <;> rfl

/-- R180, R193: a Huffman decode either meets a header cut short, or a complete one. -/
theorem huffDecode_cases (d : List Byte) :
    (∀ cap, huffDecode d cap = .error .truncatedInput)
    ∨ ∃ m hi lo rest, d = m :: hi :: lo :: rest ∧ be16 hi lo ≤ rest.length := by
  match d with
  | [] | [_] | [_, _] => exact .inl fun _ => rfl
  | m :: hi :: lo :: rest =>
    by_cases hlen : rest.length < be16 hi lo
    · exact .inl fun cap => by rw [huffDecode, if_pos hlen]
    · exact .inr ⟨m, hi, lo, rest, rfl, Nat.not_lt.1 hlen⟩

/-- R180, R190, R192: once a container decodes, more bytes and another capacity change no more than that. -/
theorem huffDecode_of_ok {d : List Byte} {cap : Nat} {out : List Byte} (h : huffDecode d cap = .ok out)
    (extra : List Byte) (cap' : Nat) :
    huffDecode (d ++ extra) cap' = if out.length ≤ cap' then .ok out else .error .outputOverflow := by
  obtain htrunc | ⟨m, hi, lo, rest, rfl, hlen⟩ := huffDecode_cases d
  · cases (htrunc cap).symm.trans h
  rw [huffDecode_of_le m hlen] at h
  have hlen' : be16 hi lo ≤ (rest ++ extra).length := by rw [List.length_append]; omega
  rw [List.cons_append, List.cons_append, List.cons_append, huffDecode_of_le m hlen',
    List.take_append_of_le_length hlen, List.drop_append_of_le_length hlen]
  match htable : parseTable (rest.take (be16 hi lo)) with
  | .error e => rw [htable] at h; cases h
  | .ok C =>
    rw [htable] at h
    change mapSymbols C (rest.drop (be16 hi lo) ++ extra) cap' = _
    rw [mapSymbols_eq, bitsOf_append]
    exact mapBits_of_ok h _ cap'

theorem dispatch_markerHuff (rest : List Byte) (cap : Nat) :
    dispatch (markerHuff :: rest) cap = (huffDecode (markerHuff :: rest) cap, .huff) := rfl

theorem dispatch_markerRle (rest : List Byte) (cap : Nat) :
    dispatch (markerRle :: rest) cap = (rleDecode (markerRle :: rest) cap, .rle) := rfl

/-- R223, R224: a container is refused whatever the capacity, or begins with one of the two markers. -/
theorem dispatch_cases (d : List Byte) :
    (∃ e sel, e ≠ .corruptCodeTable ∧ ∀ cap, dispatch d cap = (.error e, sel))
    ∨ (∃ rest, d = markerHuff :: rest) ∨ ∃ rest, d = markerRle :: rest := by
  match d with
  | [] => exact .inl ⟨.truncatedInput, .none, nofun, fun _ => rfl⟩
  | m :: rest =>
    by_cases hhuff : m = markerHuff
    · exact .inr (.inl ⟨rest, by rw [hhuff]⟩)
    by_cases hrle : m = markerRle
    · exact .inr (.inr ⟨rest, by rw [hrle]⟩)
    · exact .inl ⟨.unknownEncodingType, .none, nofun, fun cap => by rw [dispatch, if_neg hhuff, if_neg hrle]⟩

/-- Settles O34: of either decoder the capacity decides only whether the bytes fit. -/
theorem decodeCapacityDecidesOverflow : Obligations.DecodeCapacityDecidesOverflow := by
  intro d cap out h
  refine ⟨dispatch_length d cap out _ (Prod.ext h rfl), fun cap' => ?_⟩
  obtain ⟨e, sel, -, herr⟩ | ⟨rest, rfl⟩ | ⟨rest, rfl⟩ := dispatch_cases d
  · rw [herr] at h
    cases h
  · rw [dispatch_markerHuff] at h ⊢
    simpa using huffDecode_of_ok h [] cap'
  · rw [dispatch_markerRle] at h ⊢
    exact rleUnits_of_ok h cap'

/-- Settles O48: the codes are read one by one up to that of `EOS`, whose code ends the decode whatever follows. -/
theorem bitsAfterEndOfStreamAreIgnored : Obligations.BitsAfterEndOfStreamAreIgnored := by
  refine ⟨fun C I c more room hnodup hne hfree hI heos hroom => ?_, fun d extra cap out h => ?_⟩
  · exact mapBits_codeBits ⟨hnodup, hne, hfree⟩ hI heos more hroom
  · rw [huffDecode_of_ok h extra cap, if_pos (huffDecode_length d cap out h)]

/-! ### Where `CorruptCodeTable` comes from -/

theorem exceptMap_eq_error_iff {ε α β : Type} (f : α → β) (x : Except ε α) (e : ε) :
    x.map f = .error e ↔ x = .error e := by
  cases x <;> simp [Except.map]

/-- R191, R192: the symbol mapper fails for want of bits or of room only. -/
theorem mapBits_error {C : CodeTable} {bits acc : Bits} {room : Nat} {e : ErrKind}
    (h : mapBits C bits acc room = .error e) : e = .truncatedInput ∨ e = .outputOverflow := by
  induction bits generalizing acc room with
  | nil => cases h; exact .inl rfl
  | cons x bits ih =>
    unfold mapBits at h
    match hs : symbolOf C (acc ++ [x]) with
    | none => rw [hs] at h; exact ih h
    | some .eos => rw [hs] at h; cases h
    | some (.byte b) =>
      rw [hs] at h
      cases room with
      | zero => cases h; exact .inr rfl
      | succ room => exact ih ((exceptMap_eq_error_iff _ _ _).1 h)

/-- R206, R207: the run unpacker fails for want of bytes or of room only. -/
theorem rleUnits_error {d : List Byte} {room : Nat} {e : ErrKind} (h : rleUnits d room = .error e) :
    e = .truncatedInput ∨ e = .outputOverflow := by
  induction d, room using rleUnits.induct with
  | case1 room => cases h
  | case2 s hi lo rest room hfull => rw [rleUnits, if_pos hfull] at h; cases h; exact .inr rfl
  | case3 s hi lo rest room hroom ih =>
    rw [rleUnits, if_neg hroom, exceptMap_eq_error_iff] at h
    exact ih h
  | case4 d room hnil hunit => exact .inl (by simpa [rleUnits, eq_comm] using h)

/-- R193: a Huffman decode reports a corrupt table exactly for a complete header whose table does not parse. -/
theorem huffDecode_corrupt_iff (d : List Byte) (cap : Nat) :
    huffDecode d cap = .error .corruptCodeTable ↔ ∃ m hi lo rest, d = m :: hi :: lo :: rest
      ∧ be16 hi lo ≤ rest.length ∧ ∀ C, parseTable (rest.take (be16 hi lo)) ≠ .ok C := by
  constructor
  · intro h
    obtain htrunc | ⟨m, hi, lo, rest, rfl, hlen⟩ := huffDecode_cases d
    · cases (htrunc cap).symm.trans h
    refine ⟨m, hi, lo, rest, rfl, hlen, fun C hC => ?_⟩
    rw [huffDecode_of_le m hlen, hC] at h
    obtain he | he := mapBits_error h <;> cases he
  · rintro ⟨m, hi, lo, rest, rfl, hlen, hbad⟩
    rw [huffDecode_of_le m hlen, (parseTable_eq_error_iff _ _).2 ⟨rfl, hbad⟩]
    rfl

/-- R232: an error of the command is one of the dispatcher, with the dispatcher's codec. -/
theorem decodeResult_err_iff (d : List Byte) (cap : Nat) {e : ErrKind} (he : e ≠ .none) :
    (decodeResult d cap).err = e ↔ (dispatch d cap).1 = .error e := by
  unfold decodeResult
  match dispatch d cap with
  | (.error e', sel) => simp
  | (.ok out, sel) => simpa using he.symm

theorem decodeResult_sel (d : List Byte) (cap : Nat) : (decodeResult d cap).sel = (dispatch d cap).2 := by
  unfold decodeResult
  match dispatch d cap with
  | (.error e, sel) | (.ok out, sel) => rfl

/-- R193, R223: only the Huffman decoder reports a corrupt table. -/
theorem dispatch_corrupt_iff (d : List Byte) (cap : Nat) :
    (dispatch d cap).1 = .error .corruptCodeTable ↔
      (∃ rest, d = markerHuff :: rest) ∧ huffDecode d cap = .error .corruptCodeTable := by
  refine ⟨fun h => ?_, ?_⟩
  · obtain ⟨e, sel, hne, herr⟩ | ⟨rest, rfl⟩ | ⟨rest, rfl⟩ := dispatch_cases d
    · rw [herr] at h
      exact absurd (Except.error.inj h) hne
    · exact ⟨⟨rest, rfl⟩, h⟩
    · obtain he | he := rleUnits_error h <;> cases he
  · rintro ⟨⟨rest, rfl⟩, h⟩
    exact h

/-- Settles O31: of the dispatcher's two decoders only the Huffman decoder reports a corrupt table, and it does so from
the header and the table alone. -/
theorem corruptCodeTableExactlyForBadTables : Obligations.CorruptCodeTableExactlyForBadTables := by
  intro d cap
  have hnone : ErrKind.corruptCodeTable ≠ .none := nofun
  rw [decodeResult_err_iff d cap hnone, dispatch_corrupt_iff, huffDecode_corrupt_iff, decodeResult_sel]
  refine ⟨⟨?_, ?_⟩, ?_⟩
  · rintro ⟨⟨rest', hmark⟩, m, hi, lo, rest, rfl, hlen, hbad⟩
    obtain rfl : m = markerHuff := (List.cons.inj hmark).1
    exact ⟨hi, lo, rest, rfl, hlen, hbad⟩
  · rintro ⟨hi, lo, rest, rfl, hlen, hbad⟩
    exact ⟨⟨_, rfl⟩, _, hi, lo, rest, rfl, hlen, hbad⟩
  · rintro ⟨⟨rest', rfl⟩, -⟩
    rfl

end Sys2Proof.Machine

/-! PROOFS. The run-length codec: the runs of an input are maximal (R200), and a run is split into full-capacity units
and one remainder (R201). -/

namespace Sys2Proof.Machine

/-! ### Adjacent runs -/

/-- The scan reports the run of its current symbol first. -/
theorem runsFrom_head (cur : Byte) (cnt : Nat) (I : List Byte) : ∀ r ∈ (runsFrom cur cnt I).head?, r.1 = cur := by
  induction I generalizing cnt with
  | nil => simp [runsFrom]
  | cons b I ih =>
    rw [runsFrom]
    split
    · exact ih (cnt + 1)
    · simp

/-- A run of the scan ends only at a byte of another symbol, which the next run begins with. -/
theorem runsFrom_isChain (cur : Byte) (cnt : Nat) (I : List Byte) :
    (runsFrom cur cnt I).IsChain (fun r r' => r.1 ≠ r'.1) := by
  induction I generalizing cur cnt with
  | nil => exact List.isChain_singleton _
  | cons b I ih =>
    rw [runsFrom]
    split
    · exact ih cur (cnt + 1)
    · next hb =>
      refine List.isChain_cons.2 ⟨fun r hr => ?_, ih b 1⟩
      rw [runsFrom_head b 1 I r hr]
      exact Ne.symm hb

/-- R200: the runs are maximal. -/
theorem runs_isChain (I : List Byte) : (runs I).IsChain (fun r r' => r.1 ≠ r'.1) := by
  cases I with
  | nil => exact List.isChain_nil
  | cons b I => exact runsFrom_isChain b 1 I

/-! ### The units of a run -/

/-- The loop takes off full-capacity units while more than one of them is left; `n` units suffice for that. -/
theorem splitLoop_eq (n : Nat) (s : Byte) {r : Nat} (hr : r ≤ 65535 * (n + 1)) :
    splitLoop n s r =
      List.replicate ((r - 1) / 65535) (s, 65535) ++ [(s, r - 65535 * ((r - 1) / 65535))] := by
  induction n generalizing r with
  | zero =>
    have hquot : (r - 1) / 65535 = 0 := by omega
    rw [splitLoop, hquot]
    rfl
  | succ n ih =>
    rw [splitLoop]
    split
    · next hfull =>
      simp only [rleCountMax] at hfull ⊢
      have hquot : (r - 1) / 65535 = (r - 65535 - 1) / 65535 + 1 := by omega
      have hrem : r - 65535 - 65535 * ((r - 65535 - 1) / 65535)
          = r - 65535 * ((r - 65535 - 1) / 65535 + 1) := by omega
      rw [ih (by omega), hquot, hrem, List.replicate_succ, List.cons_append]
    · next hlast =>
      have hquot : (r - 1) / 65535 = 0 := by
        rw [rleCountMax] at hlast
        omega
      rw [hquot]
      rfl

/-- R201: full-capacity units first, then the remainder. -/
theorem split_eq (s : Byte) (r : Nat) :
    split s r = List.replicate ((r - 1) / 65535) (s, 65535) ++ [(s, r - 65535 * ((r - 1) / 65535))] :=
  splitLoop_eq _ s (by rw [rleCountMax]; omega)

/-! ### The obligations -/

/-- Settles O45: a run of the scan ends only where the symbol changes, and the loop of `SPLIT` stops at the first length
that one unit holds. -/
theorem runsAreMaximalAndSplitFull : Obligations.RunsAreMaximalAndSplitFull :=
  ⟨fun I => ⟨runs_spell I, runs_pos I, runs_isChain I⟩,
    fun x r hr => ⟨split_eq x r, by omega, by omega⟩⟩

/-- Settles O46: the units of a run decode to its copies, and the runs spell the input. -/
theorem runLengthRoundTrip : Obligations.RunLengthRoundTrip := fun I _ hcap => rleDecode_rleEncode I hcap

end Sys2Proof.Machine

/-! PROOFS. The host's accesses: register reads and writes (R234, R235), byte reads and writes (R236, R237), and the
step that runs a decoded command (R225, R243). -/

namespace Sys2Proof.Machine

/-! ### Register accesses -/

/-- R21: the register map both ways. -/
theorem regAt_eq_some_iff (o : Nat) (r : Reg) : regAt o = some r ↔ o = regOffset r := by
  constructor
  · intro h
    unfold regAt at h
    split at h <;> cases h <;> rfl
  · rintro rfl
    cases r <;> rfl

/-- R21, R32: an offset is that of a named register, or differs from each of them. -/
theorem regAt_cases (o : Nat) :
    (∃ r, o = regOffset r)
    ∨ (regAt o = none ∧ o ≠ 0x00 ∧ o ≠ 0x04 ∧ o ≠ 0x08 ∧ o ≠ 0x0C ∧ o ≠ 0x10 ∧ o ≠ 0x14 ∧ o ≠ 0x18 ∧ o ≠ 0x1C
      ∧ o ≠ 0x20) := by
  cases h : regAt o with
  | some r => exact .inl ⟨r, (regAt_eq_some_iff o r).1 h⟩
  | none =>
    have hne : ∀ r, o ≠ regOffset r := fun r hr => by simp [(regAt_eq_some_iff o r).2 hr] at h
    exact .inr ⟨rfl, hne .cmd, hne .status, hne .irqEn, hne .srcLen, hne .dstCap, hne .dstLen, hne .huffLen,
      hne .rleLen, hne .id⟩

theorem accessLegal_reg (p : Params) {o : Nat} (halign : o % 4 = 0) (hrange : o ≤ 0xFC) :
    accessLegal p ⟨.reg, o, 32⟩ = true :=
  (accessLegal_iff _ _).2 ⟨rfl, halign, hrange⟩

theorem accessLegal_byte {p : Params} {b : Buf} {a : Nat} (ha : a < p.size b) : accessLegal p ⟨.buf b, a, 8⟩ = true :=
  (accessLegal_iff _ _).2 ⟨rfl, ha⟩

theorem step_reg_read {s : State} {o : Nat} {n : HostName} {rest : List HostOp} (ht : s.turn = .host)
    (hs : s.script = .read ⟨.reg, o, 32⟩ n :: rest) (halign : o % 4 = 0) (hrange : o ≤ 0xFC) :
    step s = .next (advance (bindValue n (regRead o s) (withScript rest s))) :=
  step_host_read s _ n rest ht hs (accessLegal_reg _ halign hrange)

/-- Settles O7, by cases on the register that stands at the offset. -/
theorem registerReadReturnsItsValue : Obligations.RegisterReadReturnsItsValue := by
  intro s o n rest ht hs halign hrange
  rw [step_reg_read ht hs halign hrange]
  obtain ⟨r, rfl⟩ | ⟨hnone, hne⟩ := regAt_cases o
  · cases r <;> rfl
  · simp [regRead, hnone, hne]

/-- R24: writing 1 to `DONE` clears it, writing 0 keeps it. -/
theorem doneAfterStatusWrite_eq (done : Bool) (v : Word) :
    doneAfterStatusWrite done v = if v.getLsbD 1 = true then false else done := by
  rw [doneAfterStatusWrite]
  cases v.getLsbD 1 <;> simp

/-- Settles O8, by cases on the register that stands at the offset. -/
theorem registerWriteHasItsEffect : Obligations.RegisterWriteHasItsEffect := by
  intro s o x v rest ht hs hv halign hrange
  rw [step_host_write s _ x v rest ht hs hv (accessLegal_reg _ halign hrange)]
  refine congrArg (mapNext advance) ?_
  obtain ⟨r, rfl⟩ | ⟨hnone, hne⟩ := regAt_cases o
  · cases r with
    | status =>
      rw [← doneAfterStatusWrite_eq]
      rfl
    | _ => rfl
  · simp [hostWrite, regWrite, hnone, hne, withScript]

/-! ### The step that runs a command -/

/-- R235: the host's step with a `CMD` write at the head of its script. -/
theorem step_commandWrite {s : State} {v : Word} {rest : List HostOp} (ht : s.turn = .host)
    (hs : s.script = commandWrite v :: rest) : step s = mapNext advance (exec (decode v) (withScript rest s)) :=
  step_host_write s (regAccess .cmd) (.lit v) v rest ht hs rfl (accessLegal_regAccess _ .cmd)

/-- Settles O4: the first two parts are the host's `CMD` write, which `withFetchWord` places; the third is the engine's
turn. -/
theorem stepRunsTheDecodedCommand : Obligations.StepRunsTheDecodedCommand := by
  refine ⟨fun s v rest ht hs => step_commandWrite ht hs, fun s w hw => ?_, fun i s hi ht heng hop => ?_⟩
  · have hscript : (s.withFetchWord 32 w).script = commandWrite (BitVec.ofNat 32 w) :: s.script := by
      rw [State.withFetchWord, Nat.mod_eq_of_lt hw]
    exact step_commandWrite rfl hscript
  · rw [step, event, ht, engineTurn_busy s i hi heng hop]

/-! ### Byte accesses -/

/-- R237: a byte write is a store in its own buffer, and leaves the other one alone. -/
theorem buf_hostStore (b b' : Buf) (a : Nat) (v : Byte) (s : State) :
    (hostStore b a v s).buf b' = if b' = b then (s.buf b).set a v else s.buf b' := by
  cases b <;> cases b' <;> rfl

/-- R75: a byte write adds `HostHazard` to the record while busy, and nothing else. -/
theorem faults_hostStore (b : Buf) (a : Nat) (v : Byte) (s : State) :
    ((hostStore b a v s).faults.hostHazard = true ↔ s.faults.hostHazard = true ∨ s.eng = .busy)
      ∧ (hostStore b a v s).faults.uninitRead = s.faults.uninitRead := by
  simp [FaultRecord.addIf, busy_eq_true]

/-- Settles O11: the step is a `hostStore` of the low byte. -/
theorem hostByteWriteStoresOneByte : Obligations.HostByteWriteStoresOneByte := by
  intro s b a x v rest ht hs hv ha
  obtain ⟨hhazard, huninit⟩ := faults_hostStore b a (v.setWidth 8) (withScript rest s)
  refine ⟨advance (hostStore b a (v.setWidth 8) (withScript rest s)),
    step_host_write s _ x v rest ht hs hv (accessLegal_byte ha), ?_, fun a' hne => ?_, fun b' a' hne => ?_, hhazard,
    huninit, rfl, rfl, rfl, rfl, rfl, rfl, rfl, rfl, rfl, rfl, rfl, rfl⟩
  · exact (congrArg (·.get? a) ((buf_hostStore b b _ _ _).trans (if_pos rfl))).trans (get?_set_self _ _ _)
  · exact (congrArg (·.get? a') ((buf_hostStore b b _ _ _).trans (if_pos rfl))).trans (get?_set_of_ne _ _ hne)
  · exact congrArg (·.get? a') ((buf_hostStore b b' _ _ _).trans (if_neg hne))

/-- R39, R236: reading a written byte records no fault. -/
theorem hostLoadRecord_of_written {b : Buf} {a : Nat} {x : Byte} {s : State} (hx : (s.buf b).get? a = some x) :
    hostLoadRecord b a s = { s with draws := if drawsFresh b s then s.draws + 1 else s.draws } := by
  simp [hostLoadRecord, recordsUninit, hx]

/-- R236: a read of a written byte that is no fresh draw returns it. -/
theorem hostLoadValue_of_written {b : Buf} {a : Nat} {x : Byte} {s : State} (hfresh : drawsFresh b s = false)
    (hx : (s.buf b).get? a = some x) : hostLoadValue b a s = x := by
  simp [hostLoadValue, hfresh, hx]

/-- R75: only a read of `DST` while busy is a fresh draw. -/
theorem drawsFresh_eq_false {b : Buf} {s : State} (h : b = .src ∨ s.eng = .idle) : drawsFresh b s = false := by
  obtain rfl | hidle := h
  · rfl
  · rw [drawsFresh, (busy_eq_false s).2 hidle, Bool.and_false]

/-- R236: the host's step that reads a written byte. -/
theorem step_byte_read {s : State} {b : Buf} {a : Nat} {x : Byte} {n : HostName} {rest : List HostOp}
    (ht : s.turn = .host) (hs : s.script = .read ⟨.buf b, a, 8⟩ n :: rest) (ha : a < s.params.size b)
    (hx : (s.buf b).get? a = some x) :
    step s = .next (advance (bindValue n ((hostLoadValue b a s).setWidth 32)
      { withScript rest s with draws := if drawsFresh b s then s.draws + 1 else s.draws })) := by
  rw [step_host_read s _ n rest ht hs (accessLegal_byte ha)]
  exact congrArg (fun u => Host.Outcome.next (advance (bindValue n _ u)))
    (hostLoadRecord_of_written (s := withScript rest s) hx)

/-- Settles O12: no fault is recorded; outside a fresh draw the stored byte is returned and no free value is used. -/
theorem hostByteReadReturnsTheStoredByte : Obligations.HostByteReadReturnsTheStoredByte := by
  intro s b a x n rest ht hs ha hx
  have hstep := step_byte_read ht hs ha hx
  refine ⟨fun h => ?_, fun _ _ => ⟨_, _, hstep⟩⟩
  have hfresh : drawsFresh b s = false := drawsFresh_eq_false h
  rw [hstep, hostLoadValue_of_written hfresh hx, hfresh]
  rfl

end Sys2Proof.Machine

/-! PROOFS. Command issue: `NOP` (R227), the start of a command (R225), a write while busy (R226), a reserved opcode
(R228). -/

namespace Sys2Proof.Machine

/-- Settles O15: `issueNop` clears the lengths exactly when idle and by the reading of R28 to R30; `NOP` is the command
of every value whose `OP` field is that of the value 0. -/
theorem nopChangesNothing : Obligations.NopChangesNothing := by
  refine ⟨fun s h => ?_, fun s hidle hreading => ?_, fun s v hv => ?_⟩
  · have hkeep : (!s.busy && s.params.readings.nopClearsLengths) = false := by
      obtain hbusy | hreading := h
      · rw [(busy_eq_true s).2 hbusy]
        rfl
      · rw [hreading, Bool.and_false]
    rw [exec_nop, issueNop, hkeep, clearLengthsIf_false]
  · have hclear : (!s.busy && s.params.readings.nopClearsLengths) = true := by
      rw [(busy_eq_false s).2 hidle, hreading]
      rfl
    rw [exec_nop, issueNop, hclear]
    rfl
  · have hop : opField v = opField 0#32 := opField_congr v 0#32 hv
    rw [decode, hop]
    rfl

/-- R225: at the host's turn, with the engine idle, a started command starts. -/
theorem exec_start {i : Instr} {s : State} (hi : isStarted i = true) (hturn : s.turn = .host) (heng : s.eng = .idle) :
    exec i s = .next (startCommand i.op s) := by
  simp only [exec_started i s hi, runCommand, hturn, issueCommand, heng]

/-- Settles O16: the fields that the statement writes out are those that `startCommand` sets. -/
theorem commandStartLatchesTheOperands : Obligations.CommandStartLatchesTheOperands :=
  fun _ _ hi hturn heng => exec_start hi hturn heng

/-- Settles O17: the host's turn is not the engine's. -/
theorem commandWriteWhileBusyIsIgnored : Obligations.CommandWriteWhileBusyIsIgnored :=
  fun v _ hturn heng => exec_of_busy (decode v) heng (by rw [hturn]; decide)

/-- R228, R266: the status after the refusal of a reserved opcode, `DONE` and the code 5. -/
theorem status_recordIllegalCommand {s : State} (hidle : s.eng = .idle) :
    (recordIllegalCommand s).status = 0x00000052#32 := by
  simp [State.status, State.busy, hidle, errCode, selCode, bitWord]

/-- Settles O18: what is recorded is `recordIllegalCommand`. -/
theorem reservedOpcodeRecordsIllegalCommand : Obligations.ReservedOpcodeRecordsIllegalCommand := by
  intro i s hi hidle
  refine ⟨recordIllegalCommand s, ?_, rfl, status_recordIllegalCommand hidle, Bool.true_and _⟩
  simp only [exec_reserved i s hi, refuseReserved, hidle]

end Sys2Proof.Machine

/-! PROOFS. The completions of the four commands as exact next states (R229 to R232, R238 to R243), and what their
results depend on (R235, R238). -/

namespace Sys2Proof.Machine

section Completing

variable {i : Instr} {s : State} {I : List Byte}

/-- R39: a command whose input is in place reads no unwritten byte. -/
theorem readsUnwritten_of_inputIs (hI : inputIs s I) : s.readsUnwritten = false := by
  obtain ⟨hwf, hlen, _, hget⟩ := hI
  have hbytes : s.src.firstBytes? s.inputLen = some I := (firstBytes?_eq_some _ _ _ _ hwf).2 ⟨hlen.symm, hlen ▸ hget⟩
  simp [State.readsUnwritten, hbytes]

/-- R240 to R243: a completion whose input is in place changes `DST`, the reports and the engine, and nothing else. -/
theorem finishCommand_of_inputIs (r : CmdResult) (hs : completing s) (hI : inputIs s I) :
    finishCommand r s = { s with
      dst := if r.err = .none then s.dst.setPrefix r.out else s.dst
      dstLen := if r.err = .none then BitVec.ofNat 32 r.out.length else 0#32
      err := r.err, sel := r.sel, huffLen := r.hl, rleLen := r.rl, eng := .idle, done := true } := by
  obtain ⟨_, _, htaint⟩ := hs
  have hread : s.readsUnwritten = false := readsUnwritten_of_inputIs hI
  simp [finishCommand, State.resultUndefined, hread, htaint]

/-- R240: the completion of a command that succeeds. -/
theorem exec_completing_success (hi : isStarted i = true) (hs : completing s) (hI : inputIs s I) {sel : Sel}
    {out : List Byte} {hl rl : Word}
    (hr : resultOf i I s.cap = { err := .none, sel := sel, out := out, hl := hl, rl := rl }) :
    exec i s = .next { s with
      err := .none, sel := sel, dst := s.dst.setPrefix out, dstLen := BitVec.ofNat 32 out.length
      huffLen := hl, rleLen := rl, eng := .idle, done := true } := by
  rw [exec_completing hi hs hI, finishCommand_of_inputIs _ hs hI, hr]
  rfl

/-- R241: the completion of a command that reports an error. -/
theorem exec_completing_failure (hi : isStarted i = true) (hs : completing s) (hI : inputIs s I) {e : ErrKind}
    {sel : Sel} {hl rl : Word} (hr : resultOf i I s.cap = .failure e sel hl rl) :
    exec i s = .next { s with
      err := e, sel := sel, dstLen := 0#32, huffLen := hl, rleLen := rl, eng := .idle, done := true } := by
  rw [exec_completing hi hs hI, finishCommand_of_inputIs _ hs hI, hr]
  by_cases he : e = .none <;> simp [CmdResult.failure, he]

/-- R239: the completion of an encode that selected the container `c`. -/
theorem exec_completing_encode (hi : isStarted i = true) (hs : completing s) (hI : inputIs s I) {c : List Byte}
    {sel : Sel} {hl rl : Word} (hr : resultOf i I s.cap = encodeResult c sel hl rl s.cap) :
    exec i s = .next
      (if s.lCap.toNat < c.length then
        { s with
          err := .outputOverflow, sel := sel, dstLen := 0#32, huffLen := hl, rleLen := rl, eng := .idle, done := true }
      else
        { s with
          err := .none, sel := sel, dst := s.dst.setPrefix c, dstLen := BitVec.ofNat 32 c.length
          huffLen := hl, rleLen := rl, eng := .idle, done := true }) := by
  split
  · next hover => exact exec_completing_failure hi hs hI (hr.trans (if_pos hover))
  · next hfits => exact exec_completing_success hi hs hI (hr.trans (if_neg hfits))

end Completing

/-- Settles O19: `ENC_RLE` always selects the run-length container. -/
theorem encRleCompletes : Obligations.EncRleCompletes :=
  fun _ _ hs hI => exec_completing_encode rfl hs hI rfl

/-- Settles O20: `ENC_HUFF` selects the Huffman container where there is one. -/
theorem encHuffCompletes : Obligations.EncHuffCompletes := by
  intro s I hs hI
  cases hh : huffEncode I with
  | error e => exact exec_completing_failure rfl hs hI (by simp only [resultOf, encHuffResult, hh, CmdResult.failure])
  | ok h => exact exec_completing_encode rfl hs hI (by simp only [resultOf, encHuffResult, hh, sat])

/-- R220, R221: the selection, container and codec apart. -/
theorem select_eq (h r : List Byte) :
    select h r = (if r.length < h.length then r else h, if r.length < h.length then Sel.rle else Sel.huff) := by
  unfold select
  split <;> rfl

/-- Settles O21: `ENC_BEST` selects the shorter container where there is a Huffman container. -/
theorem encBestCompletes : Obligations.EncBestCompletes := by
  intro s I hs hI
  cases hh : huffEncode I with
  | error e => exact exec_completing_failure rfl hs hI (by simp only [resultOf, encBestResult, hh, CmdResult.failure])
  | ok h => exact exec_completing_encode rfl hs hI (by simp only [resultOf, encBestResult, hh, select_eq, sat])

/-- Settles O22: the marker decides the decoder and the codec reported, and the decoder's answer is the result. -/
theorem decodeCompletes : Obligations.DecodeCompletes := by
  intro s d hs hd res sel
  have hdispatch : dispatch d s.cap = (res, sel) := by
    cases d with
    | nil => rfl
    | cons m rest =>
      by_cases hhuff : m = 0x48#8
      · subst hhuff
        rfl
      · by_cases hrle : m = 0x52#8
        · subst hrle
          rfl
        · simp [dispatch, markerHuff, markerRle, res, sel, hhuff, hrle]
  clear_value res sel
  cases res with
  | error e =>
    exact exec_completing_failure rfl hs hd (by simp only [resultOf, decodeResult, hdispatch, CmdResult.failure])
  | ok out => exact exec_completing_success rfl hs hd (by simp only [resultOf, decodeResult, hdispatch])

/-! ### What a result depends on -/

/-- Settles O27: a completion reads its latches and `SRC`, and writes none of the three registers. -/
theorem operandWritesWhileBusyDoNotReachTheCommand : Obligations.OperandWritesWhileBusyDoNotReachTheCommand := by
  intro i o v s hi hturn heng ho
  rw [exec_engineTurn hi hturn heng]
  obtain rfl | rfl | rfl := ho <;> exact exec_engineTurn hi hturn heng

/-- R233: when every byte of an input that fits the buffer is written, the input is in place. -/
theorem exists_inputIs_of_written {s : State} (hwf : Memory.wf s.params.srcMemSize s.src)
    (hfit : s.lSrcLen.toNat ≤ s.params.srcMemSize)
    (hwritten : ∀ a, a < s.lSrcLen.toNat → (s.src.get? a).isSome = true) :
    ∃ I, inputIs s I := by
  refine ⟨(List.range s.lSrcLen.toNat).map fun a => (s.src.get? a).getD 0#8, hwf, by simp [State.inputLen], by simpa,
    fun a ha => ?_⟩
  have hlt : a < s.lSrcLen.toNat := by simpa using ha
  obtain ⟨v, hv⟩ := Option.isSome_iff_exists.1 (hwritten a hlt)
  simp [hlt, hv]

/-- R233: the input in place in one state is in place in another with the same latched length, buffer size and bytes. -/
theorem inputIs_congr {s s' : State} {I : List Byte} (hI : inputIs s I) (hwf : Memory.wf s'.params.srcMemSize s'.src)
    (hsize : s.params.srcMemSize = s'.params.srcMemSize) (hlen : s.lSrcLen = s'.lSrcLen)
    (hsrc : ∀ a, a < s.lSrcLen.toNat → s.src.get? a = s'.src.get? a) : inputIs s' I := by
  obtain ⟨_, hI, hle, hget⟩ := hI
  exact ⟨hwf, (congrArg BitVec.toNat hlen).symm.trans hI, hsize ▸ hle,
    fun a ha => (hsrc a (ha.trans_eq hI.symm)).symm.trans (hget a ha)⟩

/-- R238: the result is the same from two states with the same operands. -/
theorem commandResult_congr (f : List Byte → Nat → CmdResult) {s s' : State} (htaint : s.tainted = false)
    (htaint' : s'.tainted = false) (hwf : Memory.wf s.params.srcMemSize s.src)
    (hwf' : Memory.wf s'.params.srcMemSize s'.src) (hsize : s.params.srcMemSize = s'.params.srcMemSize)
    (hlen : s.lSrcLen = s'.lSrcLen) (hcap : s.lCap = s'.lCap)
    (hsrc : s.lSrcLen.toNat ≤ s.params.srcMemSize → ∀ a, a < s.lSrcLen.toNat →
      s.src.get? a = s'.src.get? a ∧ (s.src.get? a).isSome = true) :
    commandResult f s = commandResult f s' := by
  by_cases hfit : s.lSrcLen.toNat ≤ s.params.srcMemSize
  · obtain ⟨I, hI⟩ : ∃ I, inputIs s I :=
      exists_inputIs_of_written hwf hfit fun a ha => (hsrc hfit a ha).2
    have hI' : inputIs s' I := inputIs_congr hI hwf' hsize hlen fun a ha => (hsrc hfit a ha).1
    rw [commandResult_of_inputIs f htaint hI, commandResult_of_inputIs f htaint' hI', State.cap, State.cap, hcap]
  · have hlong := Nat.lt_of_not_le hfit
    rw [commandResult_of_tooLong f htaint hlong, commandResult_of_tooLong f htaint' (hsize ▸ hlen ▸ hlong)]

/-- Settles O28: the two completions report the same result, and `DST` begins with its output. -/
theorem resultDependsOnlyOnTheOperands : Obligations.ResultDependsOnlyOnTheOperands := by
  rintro i s s' t t' hi ⟨hturn, heng, htaint⟩ ⟨hturn', heng', htaint'⟩ hwf hwf' hsize hlen hcap hsrc ht ht'
  obtain rfl := Host.Outcome.next.inj ((exec_engineTurn hi hturn heng).symm.trans ht)
  obtain rfl := Host.Outcome.next.inj ((exec_engineTurn hi hturn' heng').symm.trans ht')
  have hr : (commandResult (resultOf i) s).within s.cap := commandResult_within i s
  have hr' : (commandResult (resultOf i) s').within s'.cap := commandResult_within i s'
  rw [← commandResult_congr (resultOf i) htaint htaint' hwf hwf' hsize hlen hcap hsrc] at hr' ⊢
  obtain ⟨hout, hdst⟩ := finishCommand_dst_out hr
  obtain ⟨_, hdst'⟩ := finishCommand_dst_out hr'
  exact ⟨rfl, rfl, rfl, rfl, rfl, fun a ha => (hdst a (hout ▸ ha)).trans (hdst' a (hout ▸ ha)).symm⟩

/-! ### The selection -/

theorem encodeResult_of_ok {c : List Byte} {sel : Sel} {hl rl : Word} {cap : Nat}
    (h : (encodeResult c sel hl rl cap).err = .none) :
    (encodeResult c sel hl rl cap).sel = sel ∧ (encodeResult c sel hl rl cap).out = c := by
  unfold encodeResult at h ⊢
  split at h
  · cases h
  · next hfits => simp [hfits]

/-- R96, R97: a Huffman container begins with its marker. -/
theorem head?_huffEncode {I h : List Byte} (hh : huffEncode I = .ok h) : h.head? = some 0x48#8 := by
  obtain ⟨tb, _, rfl⟩ := (exceptMap_eq_ok_iff _ _ _).1 hh
  rfl

/-- Settles O49, by cases on which container is strictly shorter. -/
theorem selectionIsCorrect : Obligations.SelectionIsCorrect := by
  intro I h cap hh hok
  simp only [encBestResult, hh] at hok ⊢
  obtain ⟨hsel, hout⟩ := encodeResult_of_ok hok
  rw [hsel, hout, select_eq]
  by_cases hshort : (rleEncode I).length < h.length
  · rw [if_pos hshort, if_pos hshort]
    exact .inl ⟨rfl, rfl, rfl, hshort⟩
  · rw [if_neg hshort, if_neg hshort]
    exact .inr ⟨rfl, rfl, head?_huffEncode hh, Nat.le_of_not_lt hshort⟩

end Sys2Proof.Machine

/-! PROOFS. The errors of the four commands (R260 to R267): an input that is too long, the errors an encoder can report,
and where `UnknownEncodingType` and `TruncatedInput` come from. -/

namespace Sys2Proof.Machine

/-! ### An input that is too long -/

/-- R39, R233: a length beyond the buffer stops the command before it reads. -/
theorem readsUnwritten_of_tooLong {s : State} (hlong : s.params.srcMemSize < s.lSrcLen.toNat) :
    s.readsUnwritten = false := by
  have hlong' : s.inputTooLong = true := decide_eq_true hlong
  rw [State.readsUnwritten, hlong', Bool.not_true, Bool.false_and]

/-- Settles O23: the failure has no output, and without a read the completion records nothing and draws no value. -/
theorem tooLongInputFailsBeforeAnyRead : Obligations.TooLongInputFailsBeforeAnyRead := by
  rintro i s hi ⟨hturn, heng, htaint⟩ hlong
  have hread : s.readsUnwritten = false := readsUnwritten_of_tooLong hlong
  rw [exec_engineTurn hi hturn heng, commandResult_of_tooLong _ htaint hlong]
  simp [finishCommand, CmdResult.failure, State.resultUndefined, hread, htaint]

/-! ### The errors of an encode -/

/-- R162: serializing a table fails for a code that is too long, and for nothing else. -/
theorem serEntries_error {C : CodeTable} {e : ErrKind} (h : serEntries C = .error e) : e = .codeTooLong := by
  induction C with
  | nil => cases h
  | cons entry C ih =>
    rw [serEntries] at h
    split at h
    · cases h
      rfl
    · exact ih ((exceptMap_eq_error_iff _ _ _).1 h)

theorem huffEncode_error {I : List Byte} {e : ErrKind} (h : huffEncode I = .error e) : e = .codeTooLong :=
  serEntries_error ((exceptMap_eq_error_iff _ _ _).1 h)

/-- R229 to R231: no encode reports an error of the other kinds. -/
theorem encode_err_ne (I : List Byte) (cap : Nat) {e : ErrKind} (he : e ∉ [.none, .outputOverflow, .codeTooLong]) :
    (encBestResult I cap).err ≠ e ∧ (encHuffResult I cap).err ≠ e ∧ (encRleResult I cap).err ≠ e := by
  have hselected : ∀ c sel hl rl, (encodeResult c sel hl rl cap).err ≠ e := by
    rintro c sel hl rl rfl
    obtain h | h := encodeResult_err c sel hl rl cap <;> simp [h] at he
  cases hh : huffEncode I with
  | error e' =>
    have hcode : e' ≠ e := by
      rw [huffEncode_error hh]
      rintro rfl
      simp at he
    exact ⟨by simpa only [encBestResult, hh] using hcode, by simpa only [encHuffResult, hh] using hcode,
      hselected _ _ _ _⟩
  | ok h =>
    exact ⟨by simpa only [encBestResult, hh] using hselected _ _ _ _,
      by simpa only [encHuffResult, hh] using hselected _ _ _ _, hselected _ _ _ _⟩

/-! ### The dispatcher -/

/-- R96, R223: a container is empty, begins with one of the two markers, or has none. -/
theorem container_cases (d : List Byte) :
    d = [] ∨ (∃ rest, d = markerHuff :: rest) ∨ (∃ rest, d = markerRle :: rest)
    ∨ ∃ m rest, d = m :: rest ∧ m ≠ markerHuff ∧ m ≠ markerRle := by
  cases d with
  | nil => exact .inl rfl
  | cons m rest =>
    by_cases hhuff : m = markerHuff
    · exact .inr (.inl ⟨rest, by rw [hhuff]⟩)
    by_cases hrle : m = markerRle
    · exact .inr (.inr (.inl ⟨rest, by rw [hrle]⟩))
    · exact .inr (.inr (.inr ⟨m, rest, rfl, hhuff, hrle⟩))

/-- R223: a first byte that is no marker. -/
theorem dispatch_noMarker {m : Byte} (hhuff : m ≠ markerHuff) (hrle : m ≠ markerRle) (rest : List Byte) (cap : Nat) :
    dispatch (m :: rest) cap = (.error .unknownEncodingType, .none) := by
  rw [dispatch, if_neg hhuff, if_neg hrle]

/-- R223, R224: the codec reported is the one the first byte names, whatever the outcome. -/
theorem dispatch_sel (d : List Byte) (cap : Nat) : (dispatch d cap).2 =
    if d.head? = some markerHuff then Sel.huff else if d.head? = some markerRle then Sel.rle else Sel.none := by
  obtain rfl | ⟨rest, rfl⟩ | ⟨rest, rfl⟩ | ⟨m, rest, rfl, hhuff, hrle⟩ := container_cases d
  · rfl
  · rfl
  · rfl
  · simp [dispatch_noMarker hhuff hrle, hhuff, hrle]

/-- R193: the errors of a Huffman decode. -/
theorem huffDecode_error {d : List Byte} {cap : Nat} {e : ErrKind} (h : huffDecode d cap = .error e) :
    e = .truncatedInput ∨ e = .outputOverflow ∨ e = .corruptCodeTable := by
  obtain htrunc | ⟨m, hi, lo, rest, rfl, hlen⟩ := huffDecode_cases d
  · exact .inl (Except.error.inj ((htrunc cap).symm.trans h)).symm
  rw [huffDecode_of_le m hlen] at h
  match htable : parseTable (rest.take (be16 hi lo)) with
  | .error e' =>
    rw [htable] at h
    cases h
    exact .inr (.inr ((parseTable_eq_error_iff _ _).1 htable).1)
  | .ok C =>
    rw [htable] at h
    exact (mapBits_error h).imp_right .inl

/-- R261: neither decoder reports an unknown encoding. -/
theorem dispatch_unknown_iff (d : List Byte) (cap : Nat) :
    (dispatch d cap).1 = .error .unknownEncodingType ↔ ∃ m rest, d = m :: rest ∧ m ≠ markerHuff ∧ m ≠ markerRle := by
  constructor
  · intro h
    obtain rfl | ⟨rest, rfl⟩ | ⟨rest, rfl⟩ | hnone := container_cases d
    · cases h
    · obtain he | he | he := huffDecode_error h <;> cases he
    · obtain he | he := rleUnits_error h <;> cases he
    · exact hnone
  · rintro ⟨m, rest, rfl, hhuff, hrle⟩
    rw [dispatch_noMarker hhuff hrle]

/-- Settles O30: of what a decode runs only the dispatcher reports an unknown encoding, and no encode does. -/
theorem unknownEncodingTypeExactlyForNoMarker : Obligations.UnknownEncodingTypeExactlyForNoMarker := by
  refine ⟨fun d cap => ?_, fun I cap => encode_err_ne I cap (by decide)⟩
  have hiff : (decodeResult d cap).err = .unknownEncodingType ↔ ∃ m rest, d = m :: rest ∧ m ≠ 0x48#8 ∧ m ≠ 0x52#8 :=
    (decodeResult_err_iff d cap (by decide)).trans (dispatch_unknown_iff d cap)
  refine ⟨hiff, fun h => ⟨?_, ?_⟩⟩
  · obtain ⟨m, rest, rfl, hhuff, hrle⟩ := hiff.1 h
    rw [decodeResult_sel, dispatch_noMarker hhuff hrle]
  · obtain ⟨_, hout⟩ : (decodeResult d cap).within cap := resultOf_within .decode d cap
    exact hout (by rw [h]; decide)

/-- R224, R263: a truncated input is an empty container, or one of which the decoder of its marker says so. -/
theorem dispatch_truncated_iff (d : List Byte) (cap : Nat) :
    (dispatch d cap).1 = .error .truncatedInput ↔
      d = []
      ∨ (∃ rest, d = markerHuff :: rest ∧ huffDecode (markerHuff :: rest) cap = .error .truncatedInput)
      ∨ ∃ rest, d = markerRle :: rest ∧ rleUnits rest cap = .error .truncatedInput := by
  constructor
  · intro h
    obtain rfl | ⟨rest, rfl⟩ | ⟨rest, rfl⟩ | ⟨m, rest, rfl, hhuff, hrle⟩ := container_cases d
    · exact .inl rfl
    · exact .inr (.inl ⟨rest, rfl, h⟩)
    · exact .inr (.inr ⟨rest, rfl, h⟩)
    · rw [dispatch_noMarker hhuff hrle] at h
      cases h
  · rintro (rfl | ⟨rest, rfl, h⟩ | ⟨rest, rfl, h⟩)
    · rfl
    · exact h
    · exact h

/-! ### Bit data that runs out -/

/-- R191, R263: the codes of some bytes, no more than there is room for, and then bits that no code of the table
begins. -/
def RunsOut (C : CodeTable) (bits : Bits) (room : Nat) : Prop :=
  ∃ I tail, bits = codeBits C I ++ tail ∧ (∀ b ∈ I, (codeOf C (.byte b)).isSome = true) ∧ I.length ≤ room
    ∧ ∀ e ∈ C, ¬ e.2 <+: tail

theorem ne_of_symbolOf_eq_none {C : CodeTable} {acc : Bits} (h : symbolOf C acc = none) : ∀ e ∈ C, e.2 ≠ acc := by
  rintro ⟨s, c⟩ he rfl
  obtain ⟨t, ht, _⟩ := symbolOf_mem he
  cases h.symm.trans ht

/-- R188: the symbol that a code is mapped to has that code. -/
theorem mem_of_symbolOf_eq_some {C : CodeTable} {s : Symbol} {c : Bits} (h : symbolOf C c = some s) : (s, c) ∈ C := by
  induction C with
  | nil => cases h
  | cons e C ih =>
    rw [symbolOf] at h
    split at h
    · next hc => simp [hc, ← Option.some.inj h]
    · exact List.mem_cons_of_mem _ (ih h)

/-- R191: bits that no code begins run out before anything is emitted. -/
theorem mapBits_of_noCode {C : CodeTable} {bits acc : Bits} (h : ∀ e ∈ C, ¬ e.2 <+: acc ++ bits) (room : Nat) :
    mapBits C bits acc room = .error .truncatedInput := by
  induction bits generalizing acc with
  | nil => rfl
  | cons x bits ih =>
    have hnone : symbolOf C (acc ++ [x]) = none :=
      symbolOf_eq_none fun e he hacc => h e he ⟨bits, by simp [← hacc]⟩
    rw [mapBits, hnone]
    exact ih (by simpa using h)

/-- R189: with room for it, the code of a byte emits the byte before whatever the bits after it give. -/
theorem mapBits_byte_append {C : CodeTable} (hC : IsPrefixCode C) {b : Byte} {c : Bits} (hs : (.byte b, c) ∈ C)
    (more : Bits) (room : Nat) :
    mapBits C (c ++ more) [] (room + 1) = (mapBits C more [] room).map (b :: ·) := by
  obtain ⟨acc, x, h, hmap⟩ := mapBits_code hC hs more (room + 1)
  rw [hmap, mapBits, h, symbolOf_code hC hs]

theorem mapBits_of_runsOut {C : CodeTable} (hC : IsPrefixCode C) {bits : Bits} {room : Nat} (h : RunsOut C bits room) :
    mapBits C bits [] room = .error .truncatedInput := by
  obtain ⟨I, tail, rfl, hI, hroom, htail⟩ := h
  induction I generalizing room with
  | nil => exact mapBits_of_noCode htail room
  | cons b I ih =>
    obtain ⟨hb, hI⟩ := List.forall_mem_cons.1 hI
    obtain ⟨c, hc⟩ := Option.isSome_iff_exists.1 hb
    obtain ⟨room, rfl⟩ : ∃ k, room = k + 1 := ⟨room - 1, by simp at hroom; omega⟩
    rw [codeBits, hc, Option.getD_some, List.append_assoc,
      mapBits_byte_append hC ((codeOf_eq_some_iff hC.nodup _ _).1 hc), ih hI (Nat.le_of_succ_le_succ hroom)]
    rfl

theorem IsPrefixCode.not_prefix_nil {C : CodeTable} (hC : IsPrefixCode C) : ∀ e ∈ C, ¬ e.2 <+: [] :=
  fun e he hpre => hC.nonempty e he (List.prefix_nil.1 hpre)

/-- R189, R191: when the bits run out, those of the code begun and those still to read are cut short; no code begins
what is read of a code, since the mapper would have emitted its symbol. -/
theorem runsOut_of_mapBits {C : CodeTable} (hC : IsPrefixCode C) {bits acc : Bits} {room : Nat}
    (hacc : ∀ e ∈ C, ¬ e.2 <+: acc) (h : mapBits C bits acc room = .error .truncatedInput) :
    RunsOut C (acc ++ bits) room := by
  induction bits generalizing acc room with
  | nil => exact ⟨[], acc, by simp [codeBits], by simp, Nat.zero_le _, hacc⟩
  | cons x bits ih =>
    rw [List.append_cons]
    unfold mapBits at h
    match hs : symbolOf C (acc ++ [x]) with
    | none =>
      rw [hs] at h
      refine ih (fun e he hpre => ?_) h
      exact (List.prefix_concat_iff.1 hpre).elim (ne_of_symbolOf_eq_none hs e he) (hacc e he)
    | some .eos =>
      rw [hs] at h
      cases h
    | some (.byte b) =>
      rw [hs] at h
      cases room with
      | zero => cases h
      | succ room =>
        obtain ⟨I, tail, hbits, hI, hroom, htail⟩ := ih hC.not_prefix_nil ((exceptMap_eq_error_iff _ _ _).1 h)
        have hcode : codeOf C (.byte b) = some (acc ++ [x]) :=
          (codeOf_eq_some_iff hC.nodup _ _).2 (mem_of_symbolOf_eq_some hs)
        refine ⟨b :: I, tail, ?_, List.forall_mem_cons.2 ⟨by simp [hcode], hI⟩, Nat.succ_le_succ hroom, htail⟩
        rw [codeBits, hcode, Option.getD_some, List.append_assoc _ (codeBits C I), ← hbits, List.nil_append]

/-- R263: the bit data of a table that parses is truncated exactly when it runs out. -/
theorem mapSymbols_truncated_iff {C : CodeTable} (hC : IsPrefixCode C) (data : List Byte) (cap : Nat) :
    mapSymbols C data cap = .error .truncatedInput ↔ RunsOut C (bitsOf data) cap :=
  ⟨runsOut_of_mapBits hC hC.not_prefix_nil, mapBits_of_runsOut hC⟩

/-- R193, R263: the three ways in which a Huffman container is truncated. -/
theorem huffDecode_truncated_iff (m : Byte) (rest : List Byte) (cap : Nat) :
    huffDecode (m :: rest) cap = .error .truncatedInput ↔
      rest.length < 2
      ∨ ∃ hi lo body, rest = hi :: lo :: body
        ∧ (body.length < be16 hi lo
          ∨ be16 hi lo ≤ body.length ∧ ∃ C, parseTable (body.take (be16 hi lo)) = .ok C
            ∧ RunsOut C (bitsOf (body.drop (be16 hi lo))) cap) := by
  constructor
  · intro h
    match rest with
    | [] | [_] => exact .inl (by simp)
    | hi :: lo :: body =>
      refine .inr ⟨hi, lo, body, rfl, ?_⟩
      by_cases hlen : body.length < be16 hi lo
      · exact .inl hlen
      have hfull : be16 hi lo ≤ body.length := Nat.not_lt.1 hlen
      rw [huffDecode_of_le m hfull] at h
      obtain hbad | ⟨C, hC, htable⟩ := parseTable_cases (body.take (be16 hi lo))
      · rw [hbad] at h
        cases h
      · rw [hC] at h
        exact .inr ⟨hfull, C, hC, (mapSymbols_truncated_iff htable.code _ cap).1 h⟩
  · rintro (hshort | ⟨hi, lo, body, rfl, hshort | ⟨hfull, C, hC, hout⟩⟩)
    · match rest, hshort with
      | [], _ | [_], _ => rfl
    · rw [huffDecode, if_pos hshort]
    · rw [huffDecode_of_le m hfull, hC]
      exact (mapSymbols_truncated_iff ((parseTable_eq_ok_iff _ C).1 hC).code _ cap).2 hout

/-! ### Units cut short -/

/-- R206, R263: some units, with no more bytes than there is room for, and then 1 or 2 bytes. -/
def CutShort (d : List Byte) (room : Nat) : Prop :=
  ∃ (units : List (Byte × Byte × Byte)) (cut : List Byte),
    d = units.flatMap (fun u => [u.1, u.2.1, u.2.2]) ++ cut
    ∧ (cut.length = 1 ∨ cut.length = 2)
    ∧ (units.map (fun u => 256 * u.2.1.toNat + u.2.2.toNat)).sum ≤ room

/-- R263: the run unpacker reports a truncated input exactly for units cut short. -/
theorem rleUnits_truncated_iff (d : List Byte) (room : Nat) :
    rleUnits d room = .error .truncatedInput ↔ CutShort d room := by
  constructor
  · intro h
    induction d, room using rleUnits.induct with
    | case1 room => cases h
    | case2 s hi lo rest room hfull =>
      rw [rleUnits, if_pos hfull] at h
      cases h
    | case3 s hi lo rest room hroom ih =>
      rw [rleUnits, if_neg hroom, exceptMap_eq_error_iff] at h
      obtain ⟨units, cut, rfl, hcut, hsum⟩ := ih h
      refine ⟨(s, hi, lo) :: units, cut, rfl, hcut, ?_⟩
      simp only [be16] at hroom hsum
      simp only [List.map_cons, List.sum_cons]
      omega
    | case4 d room hnil hunit =>
      match d with
      | [] => exact absurd rfl hnil
      | [_] => exact ⟨[], _, rfl, .inl rfl, Nat.zero_le _⟩
      | [_, _] => exact ⟨[], _, rfl, .inr rfl, Nat.zero_le _⟩
      | s :: hi :: lo :: rest => exact (hunit s hi lo rest rfl).elim
  · rintro ⟨units, cut, rfl, hcut, hsum⟩
    induction units generalizing room with
    | nil =>
      match cut, hcut with
      | [_], _ | [_, _], _ => rfl
    | cons u units ih =>
      obtain ⟨s, hi, lo⟩ := u
      simp only [List.map_cons, List.sum_cons] at hsum
      have hroom : ¬ room < be16 hi lo := by rw [be16]; omega
      have hrest := ih (room - be16 hi lo) (by rw [be16]; omega)
      change rleUnits (s :: hi :: lo :: (units.flatMap (fun u => [u.1, u.2.1, u.2.2]) ++ cut)) room = _
      rw [rleUnits, if_neg hroom, hrest]
      rfl

/-- Settles O32: the dispatcher's own cause, those of the Huffman decoder and that of the run unpacker; the codec is the
one of the first byte, and no encode reports the error. -/
theorem truncatedInputExactlyForItsFourCauses : Obligations.TruncatedInputExactlyForItsFourCauses := by
  refine ⟨fun d cap => ⟨?_, fun _ => (decodeResult_sel d cap).trans (dispatch_sel d cap)⟩,
    fun I cap => encode_err_ne I cap (by decide)⟩
  rw [decodeResult_err_iff d cap (by decide), dispatch_truncated_iff]
  simp only [huffDecode_truncated_iff, rleUnits_truncated_iff]
  constructor
  · rintro (rfl | ⟨_, rfl, hshort | ⟨hi, lo, rest, rfl, hshort | ⟨hfull, C, hC, I, tail, hout⟩⟩⟩
      | ⟨_, rfl, units, cut, rfl, hcut⟩)
    · exact .inl rfl
    · exact .inr (.inl ⟨_, rfl, hshort⟩)
    · exact .inr (.inr (.inl ⟨hi, lo, rest, rfl, hshort⟩))
    · exact .inr (.inr (.inr (.inl ⟨hi, lo, rest, C, I, tail, rfl, hfull, hC, hout⟩)))
    · exact .inr (.inr (.inr (.inr ⟨units, cut, rfl, hcut⟩)))
  · rintro (rfl | ⟨rest, rfl, hshort⟩ | ⟨hi, lo, rest, rfl, hshort⟩ | ⟨hi, lo, rest, C, I, tail, rfl, hfull, hC, hout⟩
      | ⟨units, cut, rfl, hcut⟩)
    · exact .inl rfl
    · exact .inr (.inl ⟨_, rfl, .inl hshort⟩)
    · exact .inr (.inl ⟨_, rfl, .inr ⟨hi, lo, rest, rfl, .inl hshort⟩⟩)
    · exact .inr (.inl ⟨_, rfl, .inr ⟨hi, lo, rest, rfl, .inr ⟨hfull, C, hC, I, tail, hout⟩⟩⟩)
    · exact .inr (.inr ⟨_, rfl, units, cut, rfl, hcut⟩)

end Sys2Proof.Machine

/-! PROOFS. `DONE` and the interrupt: which step raises the one (R228, R243, R271), and which lowers the other (R24, R25,
R37, R225, R272). -/

namespace Sys2Proof.Machine

/-- A move of the host that is no write changes neither `DONE` nor `IE`. -/
theorem hostTurn_write_or_flags {s t : State} (ht : hostTurn s = .next t) :
    (∃ a v w rest, s.script = .write a v :: rest ∧ s.hostValue v = .ok w ∧ hostWrite a w (withScript rest s) = .next t)
    ∨ t.done = s.done ∧ t.ie = s.ie := by
  unfold hostTurn at ht
  split at ht
  · obtain rfl := Host.Outcome.next.inj ht
    exact .inr ⟨rfl, rfl⟩
  · next op rest hscript =>
    obtain ⟨a, v, w, rfl, _, hv, hx⟩ | ⟨a, n, _, _, rfl⟩ | ⟨ops, rfl⟩ | ⟨ops, rfl⟩ := hostOp_cases op rest s t ht
    · exact .inl ⟨a, v, w, rest, hscript, hv, hx⟩
    · obtain ⟨_, hx⟩ | ⟨b, _, hx⟩ := hostRead_cases a n (withScript rest s) <;> rw [hx] <;> exact .inr ⟨rfl, rfl⟩
    · exact .inr ⟨rfl, rfl⟩
    · exact .inr ⟨rfl, rfl⟩

/-! ### `DONE` rises -/

/-- R228, R243: of a command's events only the refusal of a reserved opcode and a completion set `DONE`. -/
theorem exec_raises_done {i : Instr} {s t : State} (ht : exec i s = .next t) (hs : s.done = false)
    (hdone : t.done = true) :
    (s.eng = .idle ∧ isReserved i = true ∧ t.err = .illegalCommand)
    ∨ (s.eng = .busy ∧ s.turn = .engine ∧ t.eng = .idle) := by
  obtain hx | ⟨_, _, _, hx⟩ | ⟨_, _, _, hx⟩ | ⟨heng, hi, hx⟩ | ⟨heng, hturn, _, hx⟩ := exec_cases i s <;>
    obtain rfl := Host.Outcome.next.inj (hx.symm.trans ht)
  · cases hs.symm.trans hdone
  · cases hs.symm.trans hdone
  · cases hdone
  · exact .inl ⟨heng, hi, rfl⟩
  · exact .inr ⟨heng, hturn, rfl⟩

/-- R24: no register write sets `DONE`. -/
theorem done_of_regWrite {o : Nat} {v : Word} {s : State} (h : (regWrite o v s).done = true) : s.done = true := by
  obtain hx | ⟨_, hx⟩ | ⟨_, hx⟩ | ⟨_, hx⟩ | ⟨_, hx⟩ := regWrite_cases o v s <;> rw [hx] at h
  · exact h
  · exact (Bool.and_eq_true_iff.1 h).1
  · exact h
  · exact h
  · exact h

/-- R228: at the host's turn only the write of a reserved opcode to `CMD` sets `DONE`. -/
theorem hostWrite_raises_done {a : Access} {w : Word} {s t : State} (hturn : s.turn = .host)
    (ht : hostWrite a w s = .next t) (hs : s.done = false) (hdone : t.done = true) :
    s.eng = .idle ∧ t.err = .illegalCommand ∧ a.space = .reg ∧ a.addr = 0x00 ∧ isReserved (decode w) = true := by
  obtain ⟨hspace, haddr, hx⟩ | ⟨_, hx⟩ | ⟨b, _, hx⟩ := hostWrite_cases a w s <;> rw [hx] at ht
  · obtain ⟨heng, hi, herr⟩ | ⟨_, hengine, _⟩ := exec_raises_done ht hs hdone
    · exact ⟨heng, herr, hspace, haddr, hi⟩
    · cases hturn.symm.trans hengine
  · obtain rfl := Host.Outcome.next.inj ht
    cases hs.symm.trans (done_of_regWrite hdone)
  · obtain rfl := Host.Outcome.next.inj ht
    cases hs.symm.trans hdone

/-- Settles O56, by the agent that moves: the host raises `DONE` only by a write, the engine by the command it runs, and
a reset clears it. -/
theorem doneRisesOnlyAtCompletionOrRefusal : Obligations.DoneRisesOnlyAtCompletionOrRefusal := by
  intro s t ht hs hdone
  obtain ⟨u, hu, rfl⟩ := step_eq_next s t ht
  rw [advance_done] at hdone
  obtain ⟨hturn, hx⟩ | ⟨hturn, hx⟩ | ⟨_, rfl⟩ := event_cases s u hu
  · obtain ⟨a, v, w, rest, hscript, hv, hwrite⟩ | ⟨hsame, _⟩ := hostTurn_write_or_flags hx
    · obtain ⟨heng, herr, hspace, haddr, hi⟩ := hostWrite_raises_done (s := withScript rest s) hturn hwrite hs hdone
      exact .inr ⟨hturn, heng, herr, a, v, w, rest, hscript, hspace, haddr, hv, hi⟩
    · cases (hs.symm.trans hsame.symm).trans hdone
  · obtain ⟨_, rfl⟩ | ⟨heng, i, _, _, hexec⟩ := engineTurn_cases s u hx
    · cases hs.symm.trans hdone
    · obtain ⟨hidle, _⟩ | ⟨_, _, hidle⟩ := exec_raises_done hexec hs hdone
      · cases heng.symm.trans hidle
      · exact .inl ⟨hturn, heng, hidle⟩
  · cases hdone

/-! ### The interrupt falls -/

theorem irq_eq_true_iff (s : State) : s.irq = true ↔ s.done = true ∧ s.ie = true := Bool.and_eq_true_iff

theorem irq_congr {s t : State} (hdone : t.done = s.done) (hie : t.ie = s.ie) : t.irq = s.irq := by
  rw [State.irq, State.irq, hdone, hie]

/-- R225: of a command's events only the start of a command lowers the interrupt. -/
theorem exec_lowers_irq {i : Instr} {s t : State} (ht : exec i s = .next t) (hs : s.irq = true) (hirq : t.irq = false) :
    s.eng = .idle ∧ isStarted i = true := by
  have hie : s.ie = true := ((irq_eq_true_iff s).1 hs).2
  obtain hx | ⟨_, _, _, hx⟩ | ⟨heng, _, hi, hx⟩ | ⟨_, _, hx⟩ | ⟨_, _, _, hx⟩ := exec_cases i s <;>
    obtain rfl := Host.Outcome.next.inj (hx.symm.trans ht)
  · cases hs.symm.trans hirq
  · cases hs.symm.trans hirq
  · exact ⟨heng, hi⟩
  · cases hie.symm.trans hirq
  · cases hie.symm.trans hirq

/-- R24, R25: the two register writes that lower the interrupt. -/
theorem regWrite_lowers_irq {o : Nat} {v : Word} {s : State} (hs : s.irq = true) (hirq : (regWrite o v s).irq = false) :
    (o = 0x04 ∧ v.getLsbD 1 = true) ∨ (o = 0x08 ∧ v.getLsbD 0 = false) := by
  obtain ⟨hdone, hie⟩ := (irq_eq_true_iff s).1 hs
  obtain hx | ⟨ho, hx⟩ | ⟨ho, hx⟩ | ⟨_, hx⟩ | ⟨_, hx⟩ := regWrite_cases o v s <;> rw [hx] at hirq
  · cases hs.symm.trans hirq
  · exact .inl ⟨ho, by simpa [State.irq, doneAfterStatusWrite, hdone, hie] using hirq⟩
  · exact .inr ⟨ho, by simpa [State.irq, ieOfWrite, hdone] using hirq⟩
  · cases hs.symm.trans hirq
  · cases hs.symm.trans hirq

/-- R271, R272: the host writes that lower the interrupt. -/
theorem hostWrite_lowers_irq {a : Access} {w : Word} {s t : State} (ht : hostWrite a w s = .next t)
    (hs : s.irq = true) (hirq : t.irq = false) :
    a.space = .reg ∧ ((a.addr = 0x04 ∧ w.getLsbD 1 = true) ∨ (a.addr = 0x08 ∧ w.getLsbD 0 = false)
      ∨ (a.addr = 0x00 ∧ s.eng = .idle ∧ isStarted (decode w) = true)) := by
  obtain ⟨hspace, haddr, hx⟩ | ⟨hspace, hx⟩ | ⟨b, _, hx⟩ := hostWrite_cases a w s <;> rw [hx] at ht
  · exact ⟨hspace, .inr (.inr ⟨haddr, exec_lowers_irq ht hs hirq⟩)⟩
  · obtain rfl := Host.Outcome.next.inj ht
    exact ⟨hspace, (regWrite_lowers_irq hs hirq).imp_right .inl⟩
  · obtain rfl := Host.Outcome.next.inj ht
    cases hs.symm.trans hirq

/-- Settles O57, by the agent that moves: the host lowers the interrupt only by a write, and the engine starts no
command. -/
theorem interruptFallsOnlyInThreeWays : Obligations.InterruptFallsOnlyInThreeWays := by
  refine ⟨irq_eq_true_iff, fun s t ht hs hirq => ?_⟩
  obtain ⟨u, hu, rfl⟩ := step_eq_next s t ht
  rw [advance_irq] at hirq
  obtain ⟨hturn, hx⟩ | ⟨_, hx⟩ | ⟨hturn, _⟩ := event_cases s u hu
  · obtain ⟨a, v, w, rest, hscript, hv, hwrite⟩ | ⟨hdone, hie⟩ := hostTurn_write_or_flags hx
    · obtain ⟨hspace, hway⟩ := hostWrite_lowers_irq (s := withScript rest s) hwrite hs hirq
      exact .inr ⟨hturn, a, v, w, rest, hscript, hspace, hv, hway⟩
    · cases (hs.symm.trans (irq_congr hdone hie).symm).trans hirq
  · obtain ⟨_, rfl⟩ | ⟨heng, i, _, _, hexec⟩ := engineTurn_cases s u hx
    · cases hs.symm.trans hirq
    · obtain ⟨hidle, _⟩ := exec_lowers_irq hexec hs hirq
      cases heng.symm.trans hidle
  · exact .inl hturn

end Sys2Proof.Machine

/-! PROOFS. Reset, and what holds across whole runs: what a reset leaves (R290), the fault record that nothing clears
(R38, R293), and the command in flight that ends (R77, R298). -/

namespace Sys2Proof.Machine

/-! ### What a reset leaves -/

/-- R290: the status word of the reset state, with every one of its fields 0. -/
theorem status_resetWith (p : Params) : (State.resetWith p).status = 0x00000000#32 := by
  simp [State.status, State.resetWith, State.busy, errCode, selCode, bitWord]

/-- R290: the reset capacity is the whole output buffer, whose size fits a register by R7. -/
theorem toNat_dstCap_resetWith {p : Params} (hp : p.wf = true) : (State.resetWith p).dstCap.toNat = p.dstMemSize := by
  obtain ⟨_, _, _, hdst⟩ := wf_bounds p hp
  exact (BitVec.toNat_ofNat _ _).trans (Nat.mod_eq_of_lt (by omega))

/-- R290, R291: every written flag is 0. -/
theorem get?_buf_resetWith (p : Params) (b : Buf) (a : Nat) : ((State.resetWith p).buf b).get? a = none := by
  cases b <;> rfl

theorem step_reset {s : State} (hturn : s.turn = .reset) : step s = .next (advance (resetMachine s)) := by
  simp [step, event, hturn, mapNext]

/-- Settles O5: what a reset leaves in the registers and the buffers is what `State.resetWith` has there, and it keeps
the fault record and the sizes. -/
theorem resetLeavesTheResetState : Obligations.ResetLeavesTheResetState := by
  constructor
  · intro s hp hturn
    have hreserved : ∀ o, 0x24 ≤ o → o ≤ 0xFC → regRead o (advance (resetMachine s)) = 0#32 :=
      fun o ho _ => regRead_reserved o _ ho
    exact ⟨advance (resetMachine s), step_reset hturn, rfl, status_resetWith s.params, rfl, rfl, rfl, rfl, rfl,
      toNat_dstCap_resetWith hp, rfl, rfl, rfl, rfl, rfl, hreserved, rfl, get?_buf_resetWith s.params, rfl, rfl⟩
  · intro p hp
    exact ⟨rfl, status_resetWith p, rfl, rfl, toNat_dstCap_resetWith hp, rfl, rfl, rfl, rfl, get?_buf_resetWith p, rfl⟩

/-! ### What no event takes away -/

/-- From `s` to `t` the schedule is kept (R70), and every fault kind that is on record (R38). -/
structure Retains (s t : State) : Prop where
  sched : t.sched = s.sched
  faults : ∀ k, s.faults.has k = true → t.faults.has k = true

theorem Retains.of_eq {s t : State} (hsched : t.sched = s.sched) (hfaults : t.faults = s.faults) : Retains s t :=
  ⟨hsched, fun _ hk => by rwa [hfaults]⟩

/-- Recording a fault removes none. -/
theorem Retains.of_addIf {s t : State} {k : FaultKind} {c : Bool} (hsched : t.sched = s.sched)
    (hfaults : t.faults = s.faults.addIf k c) : Retains s t :=
  ⟨hsched, fun _ hk => by rw [hfaults]; exact has_addIf _ _ _ _ hk⟩

theorem exec_retains {i : Instr} {s t : State} (ht : exec i s = .next t) : Retains s t := by
  obtain hx | ⟨_, _, _, hx⟩ | ⟨_, _, _, hx⟩ | ⟨_, _, hx⟩ | ⟨_, _, _, hx⟩ := exec_cases i s <;>
    obtain rfl := Host.Outcome.next.inj (hx.symm.trans ht)
  · exact .of_eq rfl rfl
  · exact .of_eq rfl rfl
  · exact .of_eq rfl rfl
  · exact .of_eq rfl rfl
  · exact .of_addIf rfl (finishCommand_faults _ s)

theorem regWrite_retains (o : Nat) (v : Word) (s : State) : Retains s (regWrite o v s) := by
  obtain hx | ⟨_, hx⟩ | ⟨_, hx⟩ | ⟨_, hx⟩ | ⟨_, hx⟩ := regWrite_cases o v s <;> rw [hx] <;> exact .of_eq rfl rfl

theorem hostWrite_retains {a : Access} {v : Word} {s t : State} (ht : hostWrite a v s = .next t) : Retains s t := by
  obtain ⟨_, _, hx⟩ | ⟨_, hx⟩ | ⟨b, _, hx⟩ := hostWrite_cases a v s <;> rw [hx] at ht
  · exact exec_retains ht
  · obtain rfl := Host.Outcome.next.inj ht
    exact regWrite_retains _ _ _
  · obtain rfl := Host.Outcome.next.inj ht
    exact .of_addIf rfl (hostStore_faults b _ _ s)

theorem hostRead_retains (a : Access) (n : HostName) (s : State) : Retains s (hostRead a n s) := by
  obtain ⟨_, hx⟩ | ⟨b, _, hx⟩ := hostRead_cases a n s <;> rw [hx]
  · exact .of_eq rfl rfl
  · exact .of_addIf rfl (hostLoadRecord_faults b a.addr s)

theorem hostOp_retains {op : HostOp} {rest : List HostOp} {s t : State} (ht : hostOp op rest s = .next t) :
    Retains s t := by
  obtain ⟨a, v, w, _, _, _, hx⟩ | ⟨a, n, _, _, rfl⟩ | ⟨ops, rfl⟩ | ⟨ops, rfl⟩ := hostOp_cases op rest s t ht
  · obtain ⟨hsched, hfaults⟩ := hostWrite_retains hx
    exact ⟨hsched, hfaults⟩
  · obtain ⟨hsched, hfaults⟩ := hostRead_retains a n (withScript rest s)
    exact ⟨hsched, hfaults⟩
  · exact .of_eq rfl rfl
  · exact .of_eq rfl rfl

theorem hostTurn_retains {s t : State} (ht : hostTurn s = .next t) : Retains s t := by
  unfold hostTurn at ht
  split at ht
  · obtain rfl := Host.Outcome.next.inj ht
    exact .of_eq rfl rfl
  · exact hostOp_retains ht

theorem event_retains {s t : State} (ht : event s = .next t) : Retains s t := by
  obtain ⟨_, hx⟩ | ⟨_, hx⟩ | ⟨_, rfl⟩ := event_cases s t ht
  · exact hostTurn_retains hx
  · obtain ⟨_, rfl⟩ | ⟨_, i, _, _, hexec⟩ := engineTurn_cases s t hx
    · exact .of_eq rfl rfl
    · exact exec_retains hexec
  · exact .of_eq rfl rfl

/-- Settles O53: passing the move on leaves the record as the event left it. -/
theorem faultsAreNeverRemoved : Obligations.FaultsAreNeverRemoved := by
  intro s t k ht hk
  obtain ⟨u, hu, rfl⟩ := step_eq_next s t ht
  exact (event_retains hu).faults k hk

/-! ### The command in flight ends -/

/-- R298: within `n` steps the engine is idle, or the host's own access is refused. -/
def EndsWithin (n : Nat) (s : State) : Prop :=
  ∃ k, k ≤ n ∧ ((∃ t : State, Sys2Proof.core.run k s = .next t ∧ t.eng = .idle)
    ∨ ∃ r, Sys2Proof.core.run k s = .refused r)

theorem endsWithin_of_idle {s : State} (n : Nat) (heng : s.eng = .idle) : EndsWithin n s :=
  ⟨0, Nat.zero_le n, .inl ⟨s, core_run_zero s, heng⟩⟩

theorem endsWithin_of_refused {s : State} {r : Refusal} (n : Nat) (hr : step s = .refused r) : EndsWithin (n + 1) s :=
  ⟨1, Nat.le_add_left 1 n, .inr ⟨r, core_run_refused 0 s r hr⟩⟩

theorem EndsWithin.of_step {s t : State} {n : Nat} (ht : step s = .next t) (h : EndsWithin n t) :
    EndsWithin (n + 1) s := by
  obtain ⟨k, hk, hrun⟩ := h
  exact ⟨k + 1, Nat.succ_le_succ hk, by rwa [core_run_next k s t ht]⟩

/-- R70, R298: after a step that leaves a command in flight the schedule names the agent that moves; one that is used
up names the engine. -/
theorem turn_after_step {s t : State} (ht : step s = .next t) (heng : t.eng = .busy) :
    t.turn = s.sched.headD .engine ∧ t.sched = s.sched.tail := by
  obtain ⟨u, hu, rfl⟩ := step_eq_next s t ht
  have hsched : u.sched = s.sched := (event_retains hu).sched
  refine ⟨?_, by rw [advance_sched, hsched]⟩
  rw [advance_turn, ← hsched, nextTurn]
  cases u.sched with
  | nil => simp [(busy_eq_true u).2 heng]
  | cons a l => rfl

/-- R243, R290: at the engine's turn and at a reset the command in flight ends. -/
theorem step_ends_command {s t : State} (heng : s.eng = .busy) (hturn : s.turn ≠ .host) (ht : step s = .next t) :
    t.eng = .idle := by
  obtain ⟨u, hu, rfl⟩ := step_eq_next s t ht
  obtain ⟨hhost, _⟩ | ⟨hengine, hx⟩ | ⟨_, rfl⟩ := event_cases s u hu
  · exact absurd hhost hturn
  · obtain ⟨hidle, _⟩ | ⟨_, i, hi, _, hexec⟩ := engineTurn_cases s u hx
    · cases heng.symm.trans hidle
    · rw [exec_engineTurn hi hengine heng] at hexec
      obtain rfl := Host.Outcome.next.inj hexec
      rfl
  · rfl

/-- A command in flight ends within one step more than it takes from every state that the step can lead to with the
command still in flight. -/
theorem endsWithin_succ {s : State} {n : Nat} (h : s.Inv)
    (hnext : ∀ t, step s = .next t → t.Inv → t.eng = .busy → EndsWithin n t) : EndsWithin (n + 1) s := by
  obtain ⟨t, ht⟩ | ⟨_, hr, _⟩ | ⟨_, hr, _⟩ := stepNeverFaults s h
  · refine .of_step ht ?_
    cases heng : t.eng with
    | idle => exact endsWithin_of_idle n heng
    | busy => exact hnext t ht (stepKeepsTheInvariant s t h ht).1 heng
  · exact endsWithin_of_refused n hr
  · exact endsWithin_of_refused n hr

theorem endsWithin_one {s : State} (h : s.Inv) (heng : s.eng = .busy) (hturn : s.turn ≠ .host) : EndsWithin 1 s :=
  endsWithin_succ h fun _ ht _ hbusy => absurd ((step_ends_command heng hturn ht).symm.trans hbusy) (by decide)

/-- R298, by induction on the schedule: each step uses up one entry of it, and once it is used up the engine moves. -/
theorem endsWithin_sched {s : State} {l : List Turn} (h : s.Inv) (hs : s.sched = l) : EndsWithin (l.length + 2) s := by
  induction l generalizing s with
  | nil =>
    refine endsWithin_succ h fun t ht hinv heng => ?_
    have hturn : t.turn = .engine := by simpa [hs] using (turn_after_step ht heng).1
    exact endsWithin_one hinv heng (by rw [hturn]; decide)
  | cons a l ih =>
    refine endsWithin_succ h fun t ht hinv heng => ?_
    have hsched : t.sched = l := by simpa [hs] using (turn_after_step ht heng).2
    exact ih hinv hsched

/-- Settles O58: the schedule's length bounds the host's moves before the engine's. -/
theorem commandInFlightCompletes : Obligations.CommandInFlightCompletes :=
  fun _ h _ => endsWithin_sched h rfl

end Sys2Proof.Machine
